-- ==== Sys2Proof/Word.lean ====
section
/-! DEFINITION. The words of the PPRE: what the spec treats as bits (00_scope.md R9, 10_state.md R28). -/

namespace Sys2Proof

/-- A byte of SURF, ATLAS, CELLBUF or NAMEBUF (10_state.md R22). -/
abbrev Byte := BitVec 8

/-- A colour index 0..3, the contents of one lane (30_encoding.md R82, 20_memory.md R54). -/
abbrev Color := BitVec 2

/-- A 32-bit register of the REG space (10_state.md R28). -/
abbrev Word32 := BitVec 32

/-- A 64-bit command word, bit 63 the most significant (30_encoding.md R80). -/
abbrev CmdWord := BitVec 64

end Sys2Proof
end

