-- ==== Sys2Proof/Syntax.lean ====
section
/-! DEFINITION. The ten commands of the PPRE (30_encoding.md R84), one constructor per row of opcode_table.json.
Operand slots are naturals, because operand arithmetic never wraps (00_scope.md R9, 20_memory.md R60). -/

namespace Sys2Proof

/-- The masking mode of a blit: ATTR bit 2, 0 direct and 1 mask (30_encoding.md R82). -/
inductive MaskMode where
  | direct
  | mask
  deriving DecidableEq, Repr, Inhabited

/-- The PPRE's commands with their operands (30_encoding.md R83, R84, R90). -/
inductive Instr where
  /-- `INIT` (45_surface_control.md R186). -/
  | init
  /-- `RSTSURF` (45_surface_control.md R188). -/
  | rstsurf
  /-- `BLIT tile, x, y, color, mode` (41_tile_blitter.md R104). -/
  | blit (tile x y : Nat) (color : Color) (mode : MaskMode)
  /-- `BLITC tile, x, y, color, mode [, INV]` (41_tile_blitter.md R106). -/
  | blitc (tile x y : Nat) (color : Color) (mode : MaskMode) (inverse : Bool)
  /-- `FILL x, y, w, h, color` (42_rect_filler.md R125). -/
  | fill (x y w h : Nat) (color : Color)
  /-- `DRAWBOARD n` (43_board_composer.md R150). -/
  | drawboard (n : Nat)
  /-- `DRAWNAME q, len [, ACTIVE]` (43_board_composer.md R155). -/
  | drawname (q len : Nat) (active : Bool)
  /-- `RENDERFIELD q` (44_game_field.md R174). -/
  | renderfield (q : Nat)
  /-- `UPDATECELL q, pos [, BLINK]` (44_game_field.md R176). -/
  | updatecell (q pos : Nat) (blink : Bool)
  /-- `WAITVSYNC` (45_surface_control.md R190). -/
  | waitvsync
  deriving DecidableEq, Repr, Inhabited

/-- The mnemonic of a command (30_encoding.md R84). -/
def Instr.mnemonic : Instr → String
  | .init => "INIT"
  | .rstsurf => "RSTSURF"
  | .blit .. => "BLIT"
  | .blitc .. => "BLITC"
  | .fill .. => "FILL"
  | .drawboard .. => "DRAWBOARD"
  | .drawname .. => "DRAWNAME"
  | .renderfield .. => "RENDERFIELD"
  | .updatecell .. => "UPDATECELL"
  | .waitvsync => "WAITVSYNC"

/-- The value of the OP field that selects a command (30_encoding.md R84). -/
def Instr.opcode : Instr → Nat
  | .init => 0x01
  | .rstsurf => 0x02
  | .blit .. => 0x03
  | .blitc .. => 0x04
  | .fill .. => 0x05
  | .drawboard .. => 0x06
  | .drawname .. => 0x07
  | .renderfield .. => 0x08
  | .updatecell .. => 0x09
  | .waitvsync => 0x0A

end Sys2Proof
end

