-- ==== Sys2Proof/WellFormed.lean ====
section
/-! DEFINITION. Well-formed commands: every slot operand fits its 12-bit slot (30_encoding.md R81, R83, R85).
Colours, modes and flags fit by their type. A well-formed operand may still be out of its command's valid range:
that is OUT_OF_BOUNDS (60_exceptions.md R201), not ill-formedness. -/

namespace Sys2Proof

/-- `v` fits an operand slot A, B, C or D, which is 12 bits wide (30_encoding.md R81). -/
def fitsSlot (v : Nat) : Bool := decide (v < 4096)

/-- Every slot operand of the command fits its slot. -/
def Instr.wellFormed : Instr → Bool
  | .init => true
  | .rstsurf => true
  | .blit tile x y _ _ => fitsSlot tile && fitsSlot x && fitsSlot y
  | .blitc tile x y _ _ _ => fitsSlot tile && fitsSlot x && fitsSlot y
  | .fill x y w h _ => fitsSlot x && fitsSlot y && fitsSlot w && fitsSlot h
  | .drawboard n => fitsSlot n
  | .drawname q len _ => fitsSlot q && fitsSlot len
  | .renderfield q => fitsSlot q
  | .updatecell q pos _ => fitsSlot q && fitsSlot pos
  | .waitvsync => true

end Sys2Proof
end

