-- ==== Sys2Proof/Decode.lean ====
section
/-! DEFINITION. Decoding and encoding of command words (30_encoding.md R80 to R90), total on every 64-bit word. -/

namespace Sys2Proof

/-- `v[hi:lo]`: bits `hi` down to `lo` of a command word as an unsigned number (00_scope.md R9). -/
def CmdWord.bits (v : CmdWord) (hi lo : Nat) : Nat := v.toNat / 2 ^ lo % 2 ^ (hi + 1 - lo)

/-- The field OP, bits 63:56 (30_encoding.md R81). -/
def opField (v : CmdWord) : Nat := CmdWord.bits v 63 56

/-- The field ATTR, bits 55:48 (30_encoding.md R81, R82). -/
def attrField (v : CmdWord) : Nat := CmdWord.bits v 55 48

/-- Operand slot A, bits 47:36 (30_encoding.md R81). -/
def slotA (v : CmdWord) : Nat := CmdWord.bits v 47 36

/-- Operand slot B, bits 35:24 (30_encoding.md R81). -/
def slotB (v : CmdWord) : Nat := CmdWord.bits v 35 24

/-- Operand slot C, bits 23:12 (30_encoding.md R81). -/
def slotC (v : CmdWord) : Nat := CmdWord.bits v 23 12

/-- Operand slot D, bits 11:0 (30_encoding.md R81). -/
def slotD (v : CmdWord) : Nat := CmdWord.bits v 11 0

/-- The colour index, bits 49:48 (30_encoding.md R82). -/
def colorField (v : CmdWord) : Color := BitVec.ofNat 2 (CmdWord.bits v 49 48)

/-- The masking mode, bit 50: 0 direct, 1 mask (30_encoding.md R82). -/
def modeField (v : CmdWord) : MaskMode := if CmdWord.bits v 50 50 = 1 then .mask else .direct

/-- The inverse flag, bit 51 (30_encoding.md R82). -/
def inverseField (v : CmdWord) : Bool := decide (CmdWord.bits v 51 51 = 1)

/-- The active flag, bit 52 (30_encoding.md R82). -/
def activeField (v : CmdWord) : Bool := decide (CmdWord.bits v 52 52 = 1)

/-- The blink flag, bit 53 (30_encoding.md R82). -/
def blinkField (v : CmdWord) : Bool := decide (CmdWord.bits v 53 53 = 1)

/-- Why a word is no command; both are ILLEGAL_COMMAND (60_exceptions.md R202). -/
inductive Illegal where
  /-- OP is 0x00 or 0x0B to 0xFF (30_encoding.md R86). -/
  | reservedOpcode (op : Nat)
  /-- OP is assigned and a bit that its pattern shows as 0 is 1 (30_encoding.md R87). -/
  | reservedBits (op : Nat)
  deriving DecidableEq, Repr

/-- Bits `hi:lo` of the word, reserved in a format, are 0 (30_encoding.md R83, R87). -/
def zeroBits (v : CmdWord) (hi lo : Nat) : Bool := decide (CmdWord.bits v hi lo = 0)

/-- The command `i`, provided the reserved bits of its format are 0 (30_encoding.md R87). -/
def acceptIf (reservedZero : Bool) (op : Nat) (i : Instr) : Except Illegal Instr :=
  if reservedZero then .ok i else .error (.reservedBits op)

/-- The decoder: total, every word is exactly one command or illegal (30_encoding.md R84 to R89). -/
def decode (v : CmdWord) : Except Illegal Instr :=
  match opField v with
  | 0x01 => acceptIf (zeroBits v 55 0) 0x01 .init
  | 0x02 => acceptIf (zeroBits v 55 0) 0x02 .rstsurf
  | 0x03 => acceptIf (zeroBits v 55 51 && zeroBits v 11 0) 0x03
      (.blit (slotA v) (slotB v) (slotC v) (colorField v) (modeField v))
  | 0x04 => acceptIf (zeroBits v 55 52 && zeroBits v 11 0) 0x04
      (.blitc (slotA v) (slotB v) (slotC v) (colorField v) (modeField v) (inverseField v))
  | 0x05 => acceptIf (zeroBits v 55 50) 0x05
      (.fill (slotA v) (slotB v) (slotC v) (slotD v) (colorField v))
  | 0x06 => acceptIf (zeroBits v 55 48 && zeroBits v 35 0) 0x06 (.drawboard (slotA v))
  | 0x07 => acceptIf (zeroBits v 55 53 && zeroBits v 51 48 && zeroBits v 23 0) 0x07
      (.drawname (slotA v) (slotB v) (activeField v))
  | 0x08 => acceptIf (zeroBits v 55 48 && zeroBits v 35 0) 0x08 (.renderfield (slotA v))
  | 0x09 => acceptIf (zeroBits v 55 54 && zeroBits v 52 48 && zeroBits v 23 0) 0x09
      (.updatecell (slotA v) (slotB v) (blinkField v))
  | 0x0A => acceptIf (zeroBits v 55 0) 0x0A .waitvsync
  | op => .error (.reservedOpcode op)

/-- The word `OO TT AAA BBB CCC DDD` (30_encoding.md R81); a slot takes the twelve low bits of its operand. -/
def packWord (op attr a b c d : Nat) : CmdWord :=
  BitVec.ofNat 64 (op % 256 * 2 ^ 56 + attr % 256 * 2 ^ 48 + a % 4096 * 2 ^ 36 + b % 4096 * 2 ^ 24
    + c % 4096 * 2 ^ 12 + d % 4096)

/-- The value of the mode bit in its place in ATTR (30_encoding.md R82). -/
def MaskMode.attr : MaskMode → Nat
  | .direct => 0
  | .mask => 4

/-- The word of a command (30_encoding.md R84, R90); FCMD holds it after a fault (60_exceptions.md R206). -/
def encode : Instr → CmdWord
  | .init => packWord 0x01 0 0 0 0 0
  | .rstsurf => packWord 0x02 0 0 0 0 0
  | .blit tile x y color mode => packWord 0x03 (mode.attr + color.toNat) tile x y 0
  | .blitc tile x y color mode inverse =>
      packWord 0x04 (cond inverse 8 0 + mode.attr + color.toNat) tile x y 0
  | .fill x y w h color => packWord 0x05 color.toNat x y w h
  | .drawboard n => packWord 0x06 0 n 0 0 0
  | .drawname q len active => packWord 0x07 (cond active 16 0) q len 0 0
  | .renderfield q => packWord 0x08 0 q 0 0 0
  | .updatecell q pos blink => packWord 0x09 (cond blink 32 0) q pos 0 0
  | .waitvsync => packWord 0x0A 0 0 0 0 0

/-- One row of opcode_table.json: `mask` is 1 in every fixed bit, `pattern` is the row's "match". -/
structure OpcodeRow where
  mnemonic : String
  mask : CmdWord
  pattern : CmdWord
  deriving DecidableEq, Repr

/-- opcode_table.json's masks and match values, in its order (30_encoding.md R87, R89). -/
def opcodeTable : List OpcodeRow :=
  [⟨"INIT", 0xFFFFFFFFFFFFFFFF#64, 0x0100000000000000#64⟩,
   ⟨"RSTSURF", 0xFFFFFFFFFFFFFFFF#64, 0x0200000000000000#64⟩,
   ⟨"BLIT", 0xFFF8000000000FFF#64, 0x0300000000000000#64⟩,
   ⟨"BLITC", 0xFFF0000000000FFF#64, 0x0400000000000000#64⟩,
   ⟨"FILL", 0xFFFC000000000000#64, 0x0500000000000000#64⟩,
   ⟨"DRAWBOARD", 0xFFFF000FFFFFFFFF#64, 0x0600000000000000#64⟩,
   ⟨"DRAWNAME", 0xFFEF000000FFFFFF#64, 0x0700000000000000#64⟩,
   ⟨"RENDERFIELD", 0xFFFF000FFFFFFFFF#64, 0x0800000000000000#64⟩,
   ⟨"UPDATECELL", 0xFFDF000000FFFFFF#64, 0x0900000000000000#64⟩,
   ⟨"WAITVSYNC", 0xFFFFFFFFFFFFFFFF#64, 0x0A00000000000000#64⟩]

/-- The word `v` matches the row: `(W & mask) == match` (30_encoding.md R89). -/
def OpcodeRow.matchesWord (r : OpcodeRow) (v : CmdWord) : Bool := v &&& r.mask == r.pattern

/-- The command the decoder reads from `nbits` bits `w`, bit 0 the least significant, the bits above `nbits` being 0:
a command is one 64-bit number (20_memory.md R58 (c), 30_encoding.md R80). -/
def decodeTableWord (nbits w : Nat) : Option Instr :=
  if nbits ≤ 64 ∧ w < 2 ^ nbits then (decode (BitVec.ofNat 64 w)).toOption else none

end Sys2Proof
end

