-- ==== Sys2Proof/Config.lean ====
section
/-! DEFINITION. What is fixed when the hardware is made: the parameters of 00_scope.md R7, the shape of the layout
store (43_board_composer.md R141, 00_scope.md R8), and the free values, constants with no body that nothing can
evaluate. -/

namespace Sys2Proof

/-! ### Parameters the spec fixes (00_scope.md R7) -/

/-- S: the row stride in bytes. -/
abbrev Config.stride : Nat := 80
/-- B: the bank size in bytes, and the offset of bank 1. -/
abbrev Config.bankSize : Nat := 8000
/-- SURF_H: the number of pixel rows. -/
abbrev Config.surfRows : Nat := 200
/-- SURF_W: the number of pixel columns. -/
abbrev Config.surfCols : Nat := 320
/-- SURF_BYTES. -/
abbrev Config.surfBytes : Nat := 16000
/-- ATLAS_BYTES. -/
abbrev Config.atlasBytes : Nat := 4096
/-- CELLS: cells in a quadrant, and bytes in CELLBUF. -/
abbrev Config.cells : Nat := 100
/-- Bytes in NAMEBUF (10_state.md R22, R26). -/
abbrev Config.nameBytes : Nat := 16
/-- FIELD_N: cells in a field row and in a field column. -/
abbrev Config.fieldN : Nat := 10
/-- MAXQ: quadrants. -/
abbrev Config.maxQuadrants : Nat := 4
/-- HILITE_DELTA: added to the border tiles of an active quadrant. -/
abbrev Config.hiliteDelta : Nat := 0x80
/-- DRAWER_COLS: the drawer panel's width in tile columns. -/
abbrev Config.drawerCols : Nat := 3

/-- Where lane 0 of a byte lies (20_memory.md R54, R57). -/
inductive PixelOrder where
  | msbFirst
  | lsbFirst
  deriving DecidableEq, Repr, Inhabited

/-- PIXEL_ORDER: this hardware is MSB_FIRST (20_memory.md R54, R57, decision D1; log entry 16). -/
def Config.pixelOrder : PixelOrder := .msbFirst

/-- The four byte memories (10_state.md R22). -/
inductive Space where
  | surf
  | atlas
  | cellbuf
  | namebuf
  deriving DecidableEq, Repr, Inhabited

/-- The size of a memory in bytes (10_state.md R22). -/
def Space.size : Space → Nat
  | .surf => Config.surfBytes
  | .atlas => Config.atlasBytes
  | .cellbuf => Config.cells
  | .namebuf => Config.nameBytes

/-! ### The layout store LROM (10_state.md R27, 00_scope.md R8) -/

/-- Drawer side of a quadrant: LEFT or RIGHT of the playfield (43_board_composer.md R151). -/
inductive Orient where
  | left
  | right
  deriving DecidableEq, Repr, Inhabited

/-- A layout entry, in LEFT coordinates relative to the frame (43_board_composer.md R141). -/
inductive Entry where
  /-- Kind `T`: one tile; `dx` in tile columns, `dy` in pixel rows. -/
  | tile (tileL tileR : Byte) (dx dy : Int) (color : Color) (mode : MaskMode)
  /-- Kind `R`: one filled rectangle, all in pixels. -/
  | rect (dx dy : Int) (w h : Nat) (color : Color)
  deriving DecidableEq, Repr, Inhabited

/-- A quadrant's origin: tile column and pixel row of its playfield's first cell (43_board_composer.md R149). -/
structure Origin where
  col : Nat
  prow : Nat
  deriving DecidableEq, Repr, Inhabited

/-- The open parameters P1 to P13 (00_scope.md R8, 92_eei_decisions.md part 2). -/
structure Layout where
  /-- FOFS_WIDE[1] (P1). -/
  fofsWide1 : BitVec 4
  /-- FOFS_WIDE[2] (P1). -/
  fofsWide2 : BitVec 4
  /-- QORIGIN[0..3] (P2). -/
  qorigin : Vector Origin 4
  /-- CORNER_STYLE(i, n) at place `4 * (n - 1) + i` (P3). -/
  cornerStyle : Vector Nat 16
  /-- L_FLANK by style (P3). -/
  flank : List (List Entry)
  /-- L_BADGE (P4). -/
  badge : List Entry
  /-- L_DRAWER (P5). -/
  drawer : List Entry
  /-- DRAWER_H_PX (P5): a constraint on `drawer` only. -/
  drawerHeight : Nat
  /-- L_EDGE[SHORT] (P6). -/
  edgeShort : List Entry
  /-- L_EDGE[FULL] (P6). -/
  edgeFull : List Entry
  /-- L_NAME (P7). -/
  name : List Entry
  /-- NAME_MAX (P8). -/
  nameMax : Nat
  /-- NAME_DX[LEFT] (P8). -/
  nameDxLeft : Int
  /-- NAME_DX[RIGHT] (P8). -/
  nameDxRight : Int
  /-- NAME_DY (P8). -/
  nameDy : Int
  /-- NAME_COLOR_ACT (P9). -/
  nameColorAct : Color
  /-- NAME_COLOR_INACT (P9). -/
  nameColorInact : Color
  /-- MARKER_TILE (P10). -/
  markerTile : Byte
  /-- MARKER_DX[LEFT] (P10). -/
  markerDxLeft : Int
  /-- MARKER_DX[RIGHT] (P10). -/
  markerDxRight : Int
  /-- MARKER_DY (P10). -/
  markerDy : Int
  /-- MARKER_COLOR (P10). -/
  markerColor : Color
  /-- MARKER_MODE (P10). -/
  markerMode : MaskMode
  /-- GLYPH[0..127] (P11). -/
  glyph : Vector Byte 128
  /-- HIT_TILE (P12). -/
  hitTile : Byte
  /-- HIT_ALT_TILE (P12). -/
  hitAltTile : Byte
  /-- MISS_TILE (P12). -/
  missTile : Byte
  /-- MARK_MODE (P13). -/
  markMode : MaskMode
  /-- HIT_COLOR (P13). -/
  hitColor : Color
  /-- MISS_COLOR (P13). -/
  missColor : Color
  deriving DecidableEq, Repr, Inhabited

/-! ### Free values: constants with no body -/

/-- The layout store this hardware was made with; nothing about it is known (00_scope.md R8, 10_state.md R27;
log entry 3). -/
opaque Config.layoutStore : Layout

/-- What offset `a` of a memory reads as while nothing has been written there since the memory became unspecified for
the `stamp`-th time: some value, stable, unknown to any proof (10_state.md R42, 93 U1, U2, U4 (c); log entry 2). -/
opaque Config.freeByte (space : Space) (stamp a : Nat) : Byte

/-- The value of the `k`-th host read that has no defined value (93 U4 (a), (b), U7; log entry 8). -/
opaque Config.freeRead (k : Nat) : BitVec 64

/-- The level of VSYNC at the `k`-th free sample (45_surface_control.md R191, 93 U5; log entry 4). -/
opaque Config.freeSample (k : Nat) : Bool

end Sys2Proof
end

