-- ==== Sys2Proof/Machine/State.lean ====
section
/-! DEFINITION. The state of the PPRE as plain data (10_state.md), its reset value (10_state.md R42), and the reasons a
step can stop. -/

namespace Sys2Proof.Machine

open Sys2Proof

/-- A byte memory. `cells` lists the bytes that have been written since the memory last became unspecified, addresses
strictly rising; an unlisted address holds no known byte and reads as `Config.freeByte` of `stamp` (10_state.md R42;
log entry 2). -/
structure Mem where
  stamp : Nat
  cells : List Host.Cell
  deriving DecidableEq, Repr

/-- The addresses of the cells strictly rise and lie below `bound`. -/
def cellsRise (bound : Nat) : List Host.Cell → Bool
  | [] => true
  | [c] => decide (c.1 < bound)
  | c :: d :: rest => decide (c.1 < d.1) && cellsRise bound (d :: rest)

/-- The memory is in its canonical form: addresses strictly rising, all inside the space. -/
def Mem.wf (space : Space) (m : Mem) : Bool := cellsRise space.size m.cells

/-- A result code; codes 5 to 7 are never produced and have no constructor (60_exceptions.md R200, 93 U6). -/
inductive ResultCode where
  | ok
  | outOfBounds
  | illegalCommand
  | syncTimeout
  | notReady
  deriving DecidableEq, Repr, Inhabited

/-- STATUS (10_state.md R30). -/
structure Status where
  /-- Bit 0, INITED. -/
  inited : Bool
  /-- Bit 1, CTXVALID. -/
  ctxValid : Bool
  /-- Bit 2, FAULT. -/
  fault : Bool
  deriving DecidableEq, Repr

/-- CTX, the RendererContext (10_state.md R31). -/
structure Ctx where
  /-- Bits 3:0, FOFS. -/
  fofs : BitVec 4
  /-- Bits 6:4, PCNT. -/
  pcnt : BitVec 3
  deriving DecidableEq, Repr

/-- What a running WAITVSYNC waits for (10_state.md R38, 45_surface_control.md R190). -/
inductive WaitPhase where
  | assertion
  | deassertion
  deriving DecidableEq, Repr

/-- The hidden state of a running WAITVSYNC: its phase and its 32-bit sample count (10_state.md R38,
60_exceptions.md R213). -/
structure Wait where
  phase : WaitPhase
  count : Word32
  deriving DecidableEq, Repr

/-- One access of the host to the window, by byte offset from the PPRE's base (10_state.md R22, R28). A write of 64
bits to CMD issues a command (10_state.md R29). -/
inductive HostAction where
  | read8 (offset : Nat)
  | write8 (offset : Nat) (value : Byte)
  | read32 (offset : Nat)
  | write32 (offset : Nat) (value : Word32)
  | read64 (offset : Nat)
  | write64 (offset : Nat) (value : CmdWord)
  deriving DecidableEq, Repr

/-- The whole state: everything the spec gives the machine, the inputs still to come, and two fields of the model's
own (`hostData`, `fresh`). -/
structure State where
  /-- STATUS (R30). -/
  status : Status
  /-- RESULT (R32). -/
  result : ResultCode
  /-- FCODE (R33). -/
  fcode : ResultCode
  /-- FCMD (R34). -/
  fcmd : CmdWord
  /-- CTX (R31). -/
  ctx : Ctx
  /-- VSTO (R35). -/
  vsto : Word32
  /-- SURF (R24). -/
  surf : Mem
  /-- ATLAS (R23). -/
  atlas : Mem
  /-- CELLBUF (R25). -/
  cellbuf : Mem
  /-- NAMEBUF (R26). -/
  namebuf : Mem
  /-- LROM (R27): fixed, no agent writes it. -/
  lrom : Layout
  /-- The hidden state of a running WAITVSYNC (R38); `none` when the engine is idle. -/
  wait : Option Wait
  /-- MODE_REQ (R37): how often it was pulsed since reset. -/
  modeReqPulses : Nat
  /-- VSYNC (R36): the coming samples, first first; after them samples are free values. -/
  vsyncIn : List Bool
  /-- RESET (70_reset_and_hazards.md R230): its level at the coming steps; after them it is not asserted. -/
  resetIn : List Bool
  /-- The host's accesses to come, first first (R21, R40). -/
  hostActs : List HostAction
  /-- The data the last host read returned, zero-extended (the model's own; log entry 7). -/
  hostData : BitVec 64
  /-- How many free values and unspecified memories have been drawn (the model's own; log entry 18). -/
  fresh : Nat
  deriving DecidableEq, Repr

/-- The state right after power-on reset (10_state.md R42). -/
def State.reset : State where
  status := ⟨false, false, false⟩
  result := .ok
  fcode := .ok
  fcmd := 0
  ctx := ⟨0, 0⟩
  vsto := 0
  surf := ⟨0, []⟩
  atlas := ⟨0, []⟩
  cellbuf := ⟨0, []⟩
  namebuf := ⟨0, []⟩
  lrom := Config.layoutStore
  wait := none
  modeReqPulses := 0
  vsyncIn := []
  resetIn := []
  hostActs := []
  hostData := 0
  fresh := 1

/-- Why the machine stops. A rejected command is no such stop: it ends with a result code and the machine goes on
(60_exceptions.md R206). -/
inductive Fault where
  /-- Raised by the shared operation that performs Surface accesses, if one names a pixel row of 200 or more or a byte
  column of 80 or more, for which no offset is defined (20_memory.md R51, R52). Safe: every command checks its ranges
  first, so no command reaches it (60_exceptions.md R201, R205). -/
  | rowOutOfContract
  deriving DecidableEq, Repr

/-- Why a step has no meaning. -/
inductive Refusal where
  /-- An instruction that has no meaning yet; raised by no arm of `exec`. Safe. -/
  | notModelled (mnemonic : String)
  /-- A host access to REG that is not one aligned full-width access to one register: not defined (10_state.md R28,
  93_implementation_defined.md U8). Raised by the host port. Safe. -/
  | registerAccessNotDefined (offset : Nat)
  /-- A host access wider than a byte to a byte memory: the window gives byte access only (10_state.md R22). Raised by
  the host port. Safe. -/
  | wideMemoryAccess (offset : Nat)
  deriving DecidableEq, Repr

end Sys2Proof.Machine
end

