-- ==== Sys2Proof/Machine/Ops.lean ====
section
/-! DEFINITION. The shared operations: byte memories, the AddressMapper, the engine's Surface accesses, how a command
ends (with OK or through the fault sequence), free draws, and reset. -/

namespace Sys2Proof.Machine

open Sys2Proof

/-! ### Byte memories (20_memory.md R61, R62) -/

/-- The byte listed at `a`, if one is. -/
def lookupCells : List Host.Cell → Nat → Option Byte
  | [], _ => none
  | (b, u) :: rest, a => if a = b then some u else lookupCells rest a

/-- The list with byte `v` at `a`, addresses kept rising. -/
def writeCells : List Host.Cell → Nat → Byte → List Host.Cell
  | [], a, v => [(a, v)]
  | (b, u) :: rest, a, v =>
    if a < b then (a, v) :: (b, u) :: rest
    else if a = b then (a, v) :: rest
    else (b, u) :: writeCells rest a v

/-- MemRead of one byte: the last byte written there, or the memory's unspecified byte (R62, 10_state.md R42). -/
def Mem.read (space : Space) (m : Mem) (a : Nat) : Byte :=
  match lookupCells m.cells a with
  | some v => v
  | none => Config.freeByte space m.stamp a

/-- MemWrite of one byte (R62). -/
def Mem.write (m : Mem) (a : Nat) (v : Byte) : Mem := { m with cells := writeCells m.cells a v }

/-- A memory all of whose bytes are unspecified, by the `stamp`-th draw (10_state.md R42, 45_surface_control.md R186). -/
def Mem.unspecified (stamp : Nat) : Mem := ⟨stamp, []⟩

/-- `n` cells from address `a` on, each holding 0x00. -/
def zeroCells : Nat → Nat → List Host.Cell
  | _, 0 => []
  | a, n + 1 => (a, 0x00#8) :: zeroCells (a + 1) n

/-! ### The AddressMapper (20_memory.md R50 to R53) -/

/-- `rowOffset(row)`, defined on rows 0..199 only (R50, R51). -/
def rowOffset (row : Nat) : Option Nat :=
  if row < Config.surfRows then some (row / 2 * Config.stride + row % 2 * Config.bankSize) else none

/-- `surfAddr(row, bcol)`, the only way the engine forms a SURF offset (R52). -/
def surfAddr (row bcol : Nat) : Option Nat :=
  if bcol < Config.stride then (rowOffset row).map (· + bcol) else none

/-- The row that holds SURF offset `a`: the inverse of `surfAddr` (R53). -/
def rowOfAddr (a : Nat) : Nat := 2 * (a % Config.bankSize / Config.stride) + a / Config.bankSize

/-- The byte column of SURF offset `a`: the inverse of `surfAddr` (R53). -/
def bcolOfAddr (a : Nat) : Nat := a % Config.bankSize % Config.stride

/-! ### The engine's Surface accesses, in the order of 20_memory.md R66 -/

/-- What one Surface access does to its byte. -/
inductive AccessKind where
  /-- Write one byte. -/
  | put (v : Byte)
  /-- Read the byte, then write `(old & ~mask) | (fill & mask)` (42_rect_filler.md R124). -/
  | merge (fill mask : Byte)
  deriving DecidableEq, Repr

/-- One Surface access, by logical row and byte column (20_memory.md R52). -/
structure Access where
  row : Nat
  bcol : Nat
  kind : AccessKind
  deriving DecidableEq, Repr

/-- The byte an access leaves where `old` stood (42_rect_filler.md R124). -/
def AccessKind.result : AccessKind → Byte → Byte
  | .put v, _ => v
  | .merge fill mask, old => (old &&& ~~~mask) ||| (fill &&& mask)

/-- Perform one access on SURF; `none` if its row or byte column is out of contract (20_memory.md R51). -/
def applyAccess (acc : Access) (m : Mem) : Option Mem :=
  (surfAddr acc.row acc.bcol).map fun a => m.write a (acc.kind.result (m.read .surf a))

/-- Perform accesses one at a time, in order (20_memory.md R64 (b)). -/
def applyAccesses : List Access → Mem → Option Mem
  | [], m => some m
  | acc :: rest, m => (applyAccess acc m).bind (applyAccesses rest)

/-! ### How a command ends (60_exceptions.md R200 to R209) -/

/-- The command ends with result OK (10_state.md R32). -/
def finishOk (s : State) : State := { s with result := .ok }

/-- The fault sequence `raise F(W)` (60_exceptions.md R206): RESULT always, FCODE, FCMD and STATUS.FAULT only for the
first fault since reset; nothing else. There is no handler and no return (R208). -/
def raise (code : ResultCode) (w : CmdWord) (s : State) : State :=
  if s.status.fault then { s with result := code }
  else
    { s with
      result := code
      fcode := code
      fcmd := w
      status := { s.status with fault := true } }

/-- The command ends with the fault `code`: the machine goes on. -/
def endWithFault (code : ResultCode) (w : CmdWord) (s : State) : Host.Outcome State Fault Refusal :=
  .next (raise code w s)

/-- Perform the accesses of a command whose checks have passed, and end OK (60_exceptions.md R205). -/
def performAndFinish (accs : List Access) (s : State) : Host.Outcome State Fault Refusal :=
  match applyAccesses accs s.surf with
  | some m => .next (finishOk { s with surf := m })
  | none => .fault .rowOutOfContract

/-- Expand, validate, perform (43_board_composer.md R148): a plan is either a fault code, found before any write, or
the command's accesses in order. -/
def runPlan (w : CmdWord) (plan : Except ResultCode (List Access)) (s : State) :
    Host.Outcome State Fault Refusal :=
  match plan with
  | .error code => endWithFault code w s
  | .ok accs => performAndFinish accs s

/-! ### Free draws -/

/-- The next sample of VSYNC: the next input level, or a free value when the input gives none (45_surface_control.md
R191, 10_state.md R36). -/
def sampleVsync (s : State) : Bool × State :=
  match s.vsyncIn with
  | v :: rest => (v, { s with vsyncIn := rest })
  | [] => (Config.freeSample s.fresh, { s with fresh := s.fresh + 1 })

/-- A host read that returns `value`, zero-extended; it has no other effect (20_memory.md R62). -/
def returnToHost (value : BitVec 64) (s : State) : State := { s with hostData := value }

/-- A host read of `width` bits that has no defined value: any value, drawn anew each time (93 U4, U7). -/
def returnUnspecified (width : Nat) (s : State) : State :=
  { s with
    hostData := (Config.freeRead s.fresh).setWidth width |>.setWidth 64
    fresh := s.fresh + 1 }

/-! ### The byte memories of the state by space (10_state.md R22) -/

/-- The memory of a space. -/
def memOf (space : Space) (s : State) : Mem :=
  match space with
  | .surf => s.surf
  | .atlas => s.atlas
  | .cellbuf => s.cellbuf
  | .namebuf => s.namebuf

/-- The state with another memory in a space. -/
def setMem (space : Space) (m : Mem) (s : State) : State :=
  match space with
  | .surf => { s with surf := m }
  | .atlas => { s with atlas := m }
  | .cellbuf => { s with cellbuf := m }
  | .namebuf => { s with namebuf := m }

/-! ### Reset (70_reset_and_hazards.md R230, R231) -/

/-- RESET is asserted: every register takes its value of 10_state.md R42, a running command is abandoned, and all four
memories become unspecified anew. The layout store and what lies outside the PPRE (the coming inputs, the data of the
host's last read) stay (log entry 10). -/
def applyReset (s : State) : State :=
  { State.reset with
    surf := Mem.unspecified s.fresh
    atlas := Mem.unspecified s.fresh
    cellbuf := Mem.unspecified s.fresh
    namebuf := Mem.unspecified s.fresh
    lrom := s.lrom
    vsyncIn := s.vsyncIn
    resetIn := s.resetIn
    hostActs := s.hostActs
    hostData := s.hostData
    fresh := s.fresh + 1 }

end Sys2Proof.Machine
end

