-- ==== Sys2Proof/Machine/Flags.lean ====
section
/-! DEFINITION. The status flags and the register words software sees (10_state.md R28 to R35), and the flag updates of
the commands that write a flag (10_state.md R30). -/

namespace Sys2Proof.Machine

open Sys2Proof

/-- The numeric result codes (60_exceptions.md R200). -/
def ResultCode.code : ResultCode → Nat
  | .ok => 0
  | .outOfBounds => 1
  | .illegalCommand => 2
  | .syncTimeout => 3
  | .notReady => 4

/-- RESULT or FCODE as a 32-bit register: the code in bits 2:0, the rest 0 (10_state.md R32, R33). -/
def ResultCode.word (c : ResultCode) : Word32 := BitVec.ofNat 32 c.code

/-- STATUS as a 32-bit register: INITED bit 0, CTXVALID bit 1, FAULT bit 2, the rest 0 (10_state.md R30). -/
def Status.word (st : Status) : Word32 :=
  BitVec.ofNat 32 (st.inited.toNat + 2 * st.ctxValid.toNat + 4 * st.fault.toNat)

/-- CTX as a 32-bit register: FOFS bits 3:0, PCNT bits 6:4, the rest 0 (10_state.md R31). -/
def Ctx.word (c : Ctx) : Word32 := BitVec.ofNat 32 (c.fofs.toNat + 16 * c.pcnt.toNat)

/-- INIT sets INITED (10_state.md R30, 45_surface_control.md R186). -/
def setInited (s : State) : State := { s with status := { s.status with inited := true } }

/-- A DRAWBOARD that ends OK writes CTX and sets CTXVALID (10_state.md R30, R31, 43_board_composer.md R150). -/
def setContext (fofs : BitVec 4) (n : Nat) (s : State) : State :=
  { s with
    ctx := ⟨fofs, BitVec.ofNat 3 n⟩
    status := { s.status with ctxValid := true } }

/-- The drawing commands need INITED (60_exceptions.md R203 (a)). -/
def initedReady (s : State) : Bool := s.status.inited

/-- The commands that read CTX need INITED and CTXVALID (60_exceptions.md R203). -/
def contextReady (s : State) : Bool := s.status.inited && s.status.ctxValid

end Sys2Proof.Machine
end

