-- ==== Sys2Proof/Machine/Operands.lean ====
section
/-! DEFINITION. Operand forms: lanes, colour replication and masks (20_memory.md R54 to R57), the byte a blit writes
(41_tile_blitter.md R100, R101), the geometry of a rectangle's rows (42_rect_filler.md R120, R121), characters and cells,
and the range checks of the operands (60_exceptions.md R201). -/

namespace Sys2Proof.Machine

open Sys2Proof

/-! ### Lanes (20_memory.md R54, R55, R57, R71) -/

/-- The number of the lowest bit of lane `p` (R54, R57). -/
def laneShift : PixelOrder → Nat → Nat
  | .msbFirst, p => 6 - 2 * p
  | .lsbFirst, p => 2 * p

/-- The pixel in lane `p` of a byte, for `p` in 0..3 (R54). -/
def lane (v : Byte) (p : Nat) : Color := (v >>> laneShift Config.pixelOrder p).setWidth 2

/-- `laneMask(p)` for either lane order (R57). -/
def laneMaskOf : PixelOrder → Nat → Byte
  | .msbFirst, p => 0xC0#8 >>> (2 * p)
  | .lsbFirst, p => 0x03#8 <<< (2 * p)

/-- `leftMask(p)`, lanes `p..3`, for either lane order (R57). -/
def leftMaskOf : PixelOrder → Nat → Byte
  | .msbFirst, p => 0xFF#8 >>> (2 * p)
  | .lsbFirst, p => 0xFF#8 <<< (2 * p)

/-- `rightMask(p)`, lanes `0..p`, for either lane order (R57). -/
def rightMaskOf : PixelOrder → Nat → Byte
  | .msbFirst, p => 0xFF#8 <<< (6 - 2 * p)
  | .lsbFirst, p => 0xFF#8 >>> (6 - 2 * p)

/-- `laneMask(p)` of this hardware (R57). -/
def laneMask (p : Nat) : Byte := laneMaskOf Config.pixelOrder p

/-- `leftMask(p)` of this hardware (R57). -/
def leftMask (p : Nat) : Byte := leftMaskOf Config.pixelOrder p

/-- `rightMask(p)` of this hardware (R57). -/
def rightMask (p : Nat) : Byte := rightMaskOf Config.pixelOrder p

/-- `pixel(row, px)`, decoded from SURF; none for a row or a pixel column outside the Surface (R55). -/
def pixel (m : Mem) (row px : Nat) : Option Color :=
  (surfAddr row (px / 4)).map fun a => lane (m.read .surf a) (px % 4)

/-- `rep(c)`: the colour in every lane, `(c<<6)|(c<<4)|(c<<2)|c` (R56). -/
def rep (c : Color) : Byte :=
  let v : Byte := c.setWidth 8
  v <<< 6 ||| v <<< 4 ||| v <<< 2 ||| v

/-! ### Tiles (41_tile_blitter.md R100, R101) -/

/-- `tileByte(t, r, b)` (R100, 10_state.md R23). -/
def tileByte (atlas : Mem) (t r b : Nat) : Byte := atlas.read .atlas (16 * t + 2 * r + b)

/-- `outByte(v, color, mode, inv)`: inverse first, then the mask (R101). -/
def outByte (v : Byte) (color : Color) (mode : MaskMode) (inv : Bool) : Byte :=
  let u := if inv then v ^^^ 0xFF#8 else v
  match mode with
  | .direct => u
  | .mask => u &&& rep color

/-! ### Rectangle rows (42_rect_filler.md R120), for `w` at least 1 -/

/-- `startByte = x >> 2`. -/
def startByte (x : Nat) : Nat := x / 4

/-- `endByte = (x + w - 1) >> 2`. -/
def endByte (x w : Nat) : Nat := (x + w - 1) / 4

/-- `startPixel = x & 3`. -/
def startPixel (x : Nat) : Nat := x % 4

/-- `endPixel = (x + w - 1) & 3`. -/
def endPixel (x w : Nat) : Nat := (x + w - 1) % 4

/-! ### Operand memories (44_game_field.md R171, 43_board_composer.md R157) -/

/-- `cell(p)` (44_game_field.md R171). -/
def cellCode (s : State) (p : Nat) : Byte := s.cellbuf.read .cellbuf p

/-- Character `k` of the name (10_state.md R26). -/
def nameChar (s : State) (k : Nat) : Byte := s.namebuf.read .namebuf k

/-! ### Range checks (60_exceptions.md R201) -/

/-- BLIT and BLITC: tile 0..255, x 0..39, y 0..24 (41_tile_blitter.md R104). -/
def blitInRange (tile x y : Nat) : Bool := decide (tile ≤ 255) && decide (x ≤ 39) && decide (y ≤ 24)

/-- FILL: the origin on the Surface and the span inside it, sums exact (42_rect_filler.md R125, 20_memory.md R60). -/
def fillInRange (x y w h : Nat) : Bool :=
  decide (x ≤ 319) && decide (y ≤ 199) && decide (x + w ≤ 320) && decide (y + h ≤ 200)

/-- DRAWBOARD: 1 to 4 players (43_board_composer.md R150). -/
def playersInRange (n : Nat) : Bool := decide (1 ≤ n) && decide (n ≤ 4)

/-- The quadrant is an active one (43_board_composer.md R155, R161 (a)). -/
def quadrantActive (q : Nat) (s : State) : Bool := decide (q < s.ctx.pcnt.toNat)

/-- The name length: at most NAME_MAX, which is at most 16 (43_board_composer.md R157; log entry 15). -/
def lengthInRange (len : Nat) (s : State) : Bool :=
  decide (len ≤ s.lrom.nameMax) && decide (len ≤ Config.nameBytes)

/-- The first `len` name bytes are below 0x80 (43_board_composer.md R157). -/
def nameIsAscii (len : Nat) (s : State) : Bool :=
  (List.range len).all fun k => decide ((nameChar s k).toNat < 0x80)

/-- The cell's code is Empty, Hit or Miss (44_game_field.md R171). -/
def cellValid (s : State) (p : Nat) : Bool := decide ((cellCode s p).toNat ≤ 2)

end Sys2Proof.Machine
end

