-- ==== Sys2Proof/Machine/RectFiller.lean ====
section
/-! DEFINITION. The RectFiller: the primitive `fillAt` and the command FILL (42_rect_filler.md). -/

namespace Sys2Proof.Machine

open Sys2Proof

/-- The accesses of `fillAt` in one row, for `w` at least 1 (R121, R122, R124). -/
def fillRowAccesses (x w : Nat) (color : Color) (row : Nat) : List Access :=
  if startByte x = endByte x w then
    [⟨row, startByte x, .merge (rep color) (leftMask (startPixel x) &&& rightMask (endPixel x w))⟩]
  else
    ⟨row, startByte x, .merge (rep color) (leftMask (startPixel x))⟩ ::
      ((List.range (endByte x w - startByte x - 1)).map fun k =>
          (⟨row, startByte x + 1 + k, .put (rep color)⟩ : Access)) ++
      [⟨row, endByte x w, .merge (rep color) (rightMask (endPixel x w))⟩]

/-- `fillAt(x, y, w, h, color)` as its accesses in order (R122, 20_memory.md R66). An empty rectangle has none; the
formulas of R120 are not evaluated for `w = 0` (R126 (a)). -/
def fillAccesses (x y w h : Nat) (color : Color) : List Access :=
  if w = 0 then []
  else (List.range h).flatMap fun j => fillRowAccesses x w color (y + j)

/-- What FILL does: its checks in order, then the rectangle (R125, R126). -/
def fillPlan (x y w h : Nat) (color : Color) (s : State) : Except ResultCode (List Access) :=
  if !initedReady s then .error .notReady
  else if !fillInRange x y w h then .error .outOfBounds
  else .ok (fillAccesses x y w h color)

/-- FILL (R125). -/
def execFill (x y w h : Nat) (color : Color) (s : State) : Host.Outcome State Fault Refusal :=
  runPlan (encode (.fill x y w h color)) (fillPlan x y w h color s) s

end Sys2Proof.Machine
end

