-- ==== Sys2Proof/Machine/TileBlitter.lean ====
section
/-! DEFINITION. The TileBlitter: the primitive `blitAt` and the commands BLIT and BLITC (41_tile_blitter.md). -/

namespace Sys2Proof.Machine

open Sys2Proof

/-- `blitAt(tile, col, prow, color, mode, inv)` as its sixteen accesses in order (R102, R103, 20_memory.md R66). -/
def blitAccesses (atlas : Mem) (tile col prow : Nat) (color : Color) (mode : MaskMode) (inv : Bool) :
    List Access :=
  (List.range 8).flatMap fun r =>
    [⟨prow + r, 2 * col, .put (outByte (tileByte atlas tile r 0) color mode inv)⟩,
     ⟨prow + r, 2 * col + 1, .put (outByte (tileByte atlas tile r 1) color mode inv)⟩]

/-- What BLIT and BLITC do: their checks in order, then the tile at pixel row `8 * y` (R104, R106). -/
def blitPlan (tile x y : Nat) (color : Color) (mode : MaskMode) (inv : Bool) (s : State) :
    Except ResultCode (List Access) :=
  if !initedReady s then .error .notReady
  else if !blitInRange tile x y then .error .outOfBounds
  else .ok (blitAccesses s.atlas tile x (8 * y) color mode inv)

/-- BLIT (R104, R105). -/
def execBlit (tile x y : Nat) (color : Color) (mode : MaskMode) (s : State) :
    Host.Outcome State Fault Refusal :=
  runPlan (encode (.blit tile x y color mode)) (blitPlan tile x y color mode false s) s

/-- BLITC (R106, R107). -/
def execBlitc (tile x y : Nat) (color : Color) (mode : MaskMode) (inverse : Bool) (s : State) :
    Host.Outcome State Fault Refusal :=
  runPlan (encode (.blitc tile x y color mode inverse)) (blitPlan tile x y color mode inverse s) s

end Sys2Proof.Machine
end

