-- ==== Sys2Proof/Machine/Layout.lean ====
section
/-! DEFINITION. The layout engine: orientation, frames, placement, the board lists, the name's primitives, marks, and
the well-formedness of the layout store (43_board_composer.md R141 to R160, 44_game_field.md R172, R173). -/

namespace Sys2Proof.Machine

open Sys2Proof

/-- A primitive call with operands in range (41_tile_blitter.md R102, 42_rect_filler.md R122). -/
inductive Prim where
  | blit (tile col prow : Nat) (color : Color) (mode : MaskMode) (inv : Bool)
  | fill (x y w h : Nat) (color : Color)
  deriving DecidableEq, Repr

/-- The Surface accesses of a primitive, in order (20_memory.md R66). -/
def Prim.accesses (atlas : Mem) : Prim → List Access
  | .blit tile col prow color mode inv => blitAccesses atlas tile col prow color mode inv
  | .fill x y w h color => fillAccesses x y w h color

/-- `fofsOf(n)`: FOFS_WIDE[n] for 1 or 2 players, otherwise 0 (R150). -/
def fofsOf (lay : Layout) (n : Nat) : BitVec 4 :=
  if n = 1 then lay.fofsWide1 else if n = 2 then lay.fofsWide2 else 0

/-- `orient(i, n)` (R151). -/
def orient (i n : Nat) : Orient :=
  if i = 0 then .left
  else if n = 2 ∧ i = 1 then .right
  else if (n = 3 ∨ n = 4) ∧ 1 < i then .right
  else .left

/-- `QORIGIN[i]`, for `i` in 0..3 (R149). -/
def originOf (lay : Layout) (i : Nat) : Option Origin := lay.qorigin[i]?

/-- `CORNER_STYLE(i, n)`, for `i` in 0..3 and `n` in 1..4 (R152). -/
def cornerStyleOf (lay : Layout) (i n : Nat) : Option Nat := lay.cornerStyle[4 * (n - 1) + i]?

/-- `tileAt`: a tile at a computed place, or INVALID (R155). -/
def tileAt (tile : Nat) (col prow : Int) (color : Color) (mode : MaskMode) (inv : Bool) : Option Prim :=
  if col < 0 ∨ 39 < col ∨ prow < 0 ∨ 192 < prow ∨ 255 < tile then none
  else some (.blit tile col.toNat prow.toNat color mode inv)

/-- `place(e, c0, p0, o, delta)`: one layout entry as a primitive, mirrored in a RIGHT quadrant, or INVALID (R146). -/
def place (e : Entry) (c0 p0 : Int) (o : Orient) (delta : Nat) : Option Prim :=
  match e with
  | .tile tileL tileR dx dy color mode =>
    let col : Int := match o with
      | .left => c0 + dx
      | .right => c0 + 9 - dx
    let tile := (match o with
      | .left => tileL.toNat
      | .right => tileR.toNat) + delta
    tileAt tile col (p0 + dy) color mode false
  | .rect dx dy w h color =>
    let x : Int := match o with
      | .left => 8 * c0 + dx
      | .right => 8 * c0 + 80 - dx - w
    let y : Int := p0 + dy
    if x < 0 ∨ y < 0 ∨ 320 < x + w ∨ 200 < y + h then none
    else some (.fill x.toNat y.toNat w h color)

/-- All the primitives, if none is INVALID (R148). -/
def allValid : List (Option Prim) → Option (List Prim)
  | [] => some []
  | none :: _ => none
  | some p :: rest => (allValid rest).map (p :: ·)

/-- The accesses of a list of primitives, in order. -/
def primAccesses (atlas : Mem) (ps : List Prim) : List Access := ps.flatMap (Prim.accesses atlas)

/-- The plan of a composite command: OUT_OF_BOUNDS if any primitive is INVALID, else all accesses (R148). -/
def composePlan (atlas : Mem) (prims : List (Option Prim)) : Except ResultCode (List Access) :=
  match allValid prims with
  | none => .error .outOfBounds
  | some ps => .ok (primAccesses atlas ps)

/-! ### The board (R150, R152) -/

/-- `L_FIELD`: the 80 by 80 pixel playfield in the background colour (R152, 90_conflicts.md C2). -/
def fieldList : List Entry := [.rect 0 0 80 80 0]

/-- `boardLists(i, n)`, the five lists in order; none if the style indexes no flank list (R152; log entry 15). -/
def boardEntries (lay : Layout) (i n : Nat) : Option (List Entry) :=
  ((cornerStyleOf lay i n).bind fun style => lay.flank[style]?).map fun flank =>
    flank ++ lay.badge ++ lay.drawer ++ fieldList ++ (if n = 1 then lay.edgeShort else lay.edgeFull)

/-- The primitives of quadrant `i` with `n` players (R143, R146, R150). -/
def quadrantPrims (lay : Layout) (n i : Nat) : List (Option Prim) :=
  match originOf lay i, boardEntries lay i n with
  | some org, some entries =>
    entries.map fun e => place e (org.col + (fofsOf lay n).toNat) org.prow (orient i n) 0
  | _, _ => [none]

/-- The primitives of DRAWBOARD, quadrant 0 first (R150). -/
def boardPrims (lay : Layout) (n : Nat) : List (Option Prim) :=
  (List.range n).flatMap (quadrantPrims lay n)

/-! ### The name (R155 to R160) -/

/-- `fold(ch)`: ASCII lower case to upper case (R156). -/
def foldCase (ch : Byte) : Byte := if 0x61 ≤ ch.toNat ∧ ch.toNat ≤ 0x7A then ch - 0x20#8 else ch

/-- `glyphOf(ch)`, for `ch` below 0x80 (R156). -/
def glyphOf (lay : Layout) (ch : Byte) : Byte := lay.glyph.getD (foldCase ch).toNat 0

/-- `NAME_DX[o]` (R159). -/
def nameDx (lay : Layout) : Orient → Int
  | .left => lay.nameDxLeft
  | .right => lay.nameDxRight

/-- `MARKER_DX[o]` (R160). -/
def markerDx (lay : Layout) : Orient → Int
  | .left => lay.markerDxLeft
  | .right => lay.markerDxRight

/-- The primitives of DRAWNAME for a quadrant whose frame is `(c0, p0)`: the border list, the text, and for an active
quadrant the marker (R155, R158, R159, R160). -/
def namePrims (lay : Layout) (o : Orient) (c0 p0 : Int) (text : List Byte) (active : Bool) :
    List (Option Prim) :=
  lay.name.map (fun e => place e c0 p0 o (if active then Config.hiliteDelta else 0)) ++
  text.mapIdx (fun k ch =>
    tileAt (glyphOf lay ch).toNat (c0 + nameDx lay o + k) (p0 + lay.nameDy)
      (if active then lay.nameColorAct else lay.nameColorInact) .mask active) ++
  (if active then
    [tileAt lay.markerTile.toNat (c0 + markerDx lay o) (p0 + lay.markerDy) lay.markerColor lay.markerMode false]
  else [])

/-! ### Marks (44_game_field.md R172, R173) -/

/-- `mark(q, p, tile, color)` for a quadrant whose frame is `(c0, p0)` (R172, R173). -/
def markAt (lay : Layout) (c0 p0 : Int) (p : Nat) (tile : Byte) (color : Color) : Option Prim :=
  tileAt tile.toNat (c0 + (p % Config.fieldN : Nat)) (p0 + (8 * (p / Config.fieldN) : Nat)) color lay.markMode false

/-! ### Well-formedness of the store (R147) and the constraints of its parameters (00_scope.md R8) -/

/-- No primitive is INVALID. -/
def noneInvalid (prims : List (Option Prim)) : Bool := prims.all Option.isSome

/-- A tile entry's indices leave room for the highlight delta (R147 clause 3). -/
def highlightFits : Entry → Bool
  | .tile tileL tileR .. => decide (tileL.toNat ≤ 0x7F) && decide (tileR.toNat ≤ 0x7F)
  | .rect .. => true

/-- Every primitive of DRAWNAME is valid in quadrant `i` of `n`, for either activity and every length (R147 clause 3).
The validity of a text tile does not depend on its character. -/
def nameValid (lay : Layout) (n i : Nat) : Bool :=
  match originOf lay i with
  | none => false
  | some org =>
    [false, true].all fun active =>
      (List.range (lay.nameMax + 1)).all fun len =>
        noneInvalid (namePrims lay (orient i n) (org.col + (fofsOf lay n).toNat) org.prow
          (List.replicate len 0) active)

/-- An entry of kind `T`. -/
def isTileEntry : Entry → Bool
  | .tile .. => true
  | .rect .. => false

/-- A rectangle entry is not empty (R141, R147 clause 5). -/
def rectNonempty : Entry → Bool
  | .tile .. => true
  | .rect _ _ w h _ => decide (1 ≤ w) && decide (1 ≤ h)

/-- Every list of entries of the store. -/
def allEntries (lay : Layout) : List Entry :=
  lay.flank.flatten ++ lay.badge ++ lay.drawer ++ lay.edgeShort ++ lay.edgeFull ++ lay.name

/-- `LayoutWF` (R147), its six clauses in order. -/
def layoutWF (lay : Layout) : Bool :=
  ([lay.fofsWide1, lay.fofsWide2].all fun f => f == 6 || f == 7) &&
  ([1, 2, 3, 4].all fun n => (List.range n).all fun i => noneInvalid (quadrantPrims lay n i)) &&
  (([1, 2, 3, 4].all fun n => (List.range n).all fun i => nameValid lay n i) && lay.name.all highlightFits) &&
  (decide (lay.nameMax ≤ Config.nameBytes) && lay.nameColorAct != lay.nameColorInact) &&
  ((lay.flank.all fun l => l.length == 2 && l.all isTileEntry) && (allEntries lay).all rectNonempty) &&
  ([1, 2, 3, 4].all fun n => (List.range n).all fun i =>
    match cornerStyleOf lay i n with
    | some style => decide (style < lay.flank.length)
    | none => false)

/-- The pixel extent of an entry: left, right, top and bottom, the right and bottom ends excluded. -/
def entryExtent : Entry → Int × Int × Int × Int
  | .tile _ _ dx dy _ _ => (8 * dx, 8 * dx + 8, dy, dy + 8)
  | .rect dx dy w h _ => (dx, dx + w, dy, dy + h)

/-- The entries together span `width` by `height` pixels (R152, "3 columns wide, fixed height"; log entry 15). -/
def spans (width height : Nat) : List Entry → Bool
  | [] => false
  | e :: es =>
    let box := es.foldl (fun b f =>
      let x := entryExtent f
      (min b.1 x.1, max b.2.1 x.2.1, min b.2.2.1 x.2.2.1, max b.2.2.2 x.2.2.2)) (entryExtent e)
    box.2.1 - box.1 == width && box.2.2.2 - box.2.2.1 == height

/-- The constraints the spec gives on single parameters, beside `LayoutWF` (00_scope.md R8, R152). -/
def layoutConstraints (lay : Layout) : Bool :=
  (lay.qorigin.toList.all fun org => decide (org.col ≤ 39) && decide (org.prow ≤ 199)) &&
  (lay.badge.any isTileEntry && lay.badge.any fun e => !isTileEntry e) &&
  (lay.drawer.all (fun e => decide ((entryExtent e).2.1 ≤ 0)) &&
    spans (8 * Config.drawerCols) lay.drawerHeight lay.drawer) &&
  (lay.edgeShort.all isTileEntry && lay.edgeFull.all isTileEntry)

end Sys2Proof.Machine
end

