-- ==== Sys2Proof/Machine/BoardComposer.lean ====
section
/-! DEFINITION. The BoardComposer's commands DRAWBOARD and DRAWNAME (43_board_composer.md R150, R155). -/

namespace Sys2Proof.Machine

open Sys2Proof

/-- DRAWBOARD's checks in order, then its accesses (R150, R148). -/
def boardPlan (n : Nat) (s : State) : Except ResultCode (List Access) :=
  if !initedReady s then .error .notReady
  else if !playersInRange n then .error .outOfBounds
  else composePlan s.atlas (boardPrims s.lrom n)

/-- DRAWBOARD: CTX and CTXVALID are written before the primitives are performed, and not at all on a fault (R150). -/
def execDrawboard (n : Nat) (s : State) : Host.Outcome State Fault Refusal :=
  match boardPlan n s with
  | .error code => endWithFault code (encode (.drawboard n)) s
  | .ok accs => performAndFinish accs (setContext (fofsOf s.lrom n) n s)

/-- The name text: the first `len` bytes of NAMEBUF (R157). -/
def nameText (len : Nat) (s : State) : List Byte := (List.range len).map (nameChar s)

/-- The primitives of DRAWNAME in quadrant `q`, frame and orientation from CTX (R155, R143, R161 (f)). -/
def drawnamePrims (q len : Nat) (active : Bool) (s : State) : List (Option Prim) :=
  match originOf s.lrom q with
  | none => [none]
  | some org =>
    namePrims s.lrom (orient q s.ctx.pcnt.toNat) (org.col + s.ctx.fofs.toNat) org.prow (nameText len s) active

/-- DRAWNAME's checks in order, then its accesses (R155). -/
def namePlan (q len : Nat) (active : Bool) (s : State) : Except ResultCode (List Access) :=
  if !contextReady s then .error .notReady
  else if !(quadrantActive q s && lengthInRange len s) then .error .outOfBounds
  else if !nameIsAscii len s then .error .outOfBounds
  else composePlan s.atlas (drawnamePrims q len active s)

/-- DRAWNAME (R155). -/
def execDrawname (q len : Nat) (active : Bool) (s : State) : Host.Outcome State Fault Refusal :=
  runPlan (encode (.drawname q len active)) (namePlan q len active s) s

end Sys2Proof.Machine
end

