-- ==== Sys2Proof/Machine/GameField.lean ====
section
/-! DEFINITION. The GameFieldRenderer's commands RENDERFIELD and UPDATECELL (44_game_field.md R174, R176). -/

namespace Sys2Proof.Machine

open Sys2Proof

/-- The glyph and colour of a cell code: none for an Empty cell (R173, R174, R176). -/
def markGlyph (lay : Layout) (blink : Bool) (code : Byte) : Option (Byte × Color) :=
  if code = 1 then some (if blink then lay.hitAltTile else lay.hitTile, lay.hitColor)
  else if code = 2 then some (lay.missTile, lay.missColor)
  else none

/-- The mark of position `p` in quadrant `q`, if its cell is not Empty (R172 to R176). -/
def cellPrims (q : Nat) (blink : Bool) (s : State) (p : Nat) : List (Option Prim) :=
  match markGlyph s.lrom blink (cellCode s p) with
  | none => []
  | some (tile, color) =>
    match originOf s.lrom q with
    | none => [none]
    | some org => [markAt s.lrom (org.col + s.ctx.fofs.toNat) org.prow p tile color]

/-- RENDERFIELD's checks in order, then its accesses, row-major (R174). -/
def fieldPlan (q : Nat) (s : State) : Except ResultCode (List Access) :=
  if !contextReady s then .error .notReady
  else if !quadrantActive q s then .error .outOfBounds
  else if !(List.range Config.cells).all (cellValid s) then .error .outOfBounds
  else composePlan s.atlas ((List.range Config.cells).flatMap (cellPrims q false s))

/-- RENDERFIELD (R174, R175). -/
def execRenderfield (q : Nat) (s : State) : Host.Outcome State Fault Refusal :=
  runPlan (encode (.renderfield q)) (fieldPlan q s) s

/-- UPDATECELL's checks in order, then its accesses (R176). -/
def cellPlan (q pos : Nat) (blink : Bool) (s : State) : Except ResultCode (List Access) :=
  if !contextReady s then .error .notReady
  else if !(quadrantActive q s && decide (pos ≤ 99)) then .error .outOfBounds
  else if !cellValid s pos then .error .outOfBounds
  else composePlan s.atlas (cellPrims q blink s pos)

/-- UPDATECELL (R176, R177). -/
def execUpdatecell (q pos : Nat) (blink : Bool) (s : State) : Host.Outcome State Fault Refusal :=
  runPlan (encode (.updatecell q pos blink)) (cellPlan q pos blink s) s

end Sys2Proof.Machine
end

