-- ==== Sys2Proof/Machine/SurfaceControl.lean ====
section
/-! DEFINITION. Surface control and synchronisation: INIT, RSTSURF, WAITVSYNC (45_surface_control.md). -/

namespace Sys2Proof.Machine

open Sys2Proof

/-- INIT: pulse MODE_REQ, set INITED, every SURF byte becomes unspecified, RESULT OK (R186, R187). -/
def execInit (s : State) : Host.Outcome State Fault Refusal :=
  .next (finishOk (setInited
    { s with
      modeReqPulses := s.modeReqPulses + 1
      surf := Mem.unspecified s.fresh
      fresh := s.fresh + 1 }))

/-- SURF after all its bytes were written with 0x00 (R188). -/
def Mem.cleared (m : Mem) : Mem := { m with cells := zeroCells 0 Config.surfBytes }

/-- The accesses of RSTSURF in order: offsets 0 to 15999 ascending, each by its row and byte column (R188, R189 (a),
20_memory.md R53, R66). -/
def clearAccesses : List Access :=
  (List.range Config.surfBytes).map fun a => ⟨rowOfAddr a, bcolOfAddr a, .put 0x00#8⟩

/-- RSTSURF (R188). -/
def execRstsurf (s : State) : Host.Outcome State Fault Refusal :=
  if !initedReady s then endWithFault .notReady (encode .rstsurf) s
  else .next (finishOk { s with surf := s.surf.cleared })

/-- WAITVSYNC starts: phase 1, no sample taken. The samples are taken one a step (`waitStep`), because the command may
never end (R190, R192, 70_reset_and_hazards.md R243; log entry 5). -/
def execWaitvsync (s : State) : Host.Outcome State Fault Refusal :=
  .next { s with wait := some ⟨.assertion, 0⟩ }

/-- One turn of WAITVSYNC's loops: the timeout check, one sample, and what it leads to (R190, R191, R192). -/
def waitStep (wt : Wait) (s : State) : State :=
  if s.vsto ≠ 0 ∧ wt.count = s.vsto then
    raise .syncTimeout (encode .waitvsync) { s with wait := none }
  else
    match wt.phase, sampleVsync s with
    | .assertion, (false, s') => { s' with wait := some ⟨.assertion, wt.count + 1⟩ }
    | .assertion, (true, s') => { s' with wait := some ⟨.deassertion, wt.count + 1⟩ }
    | .deassertion, (true, s') => { s' with wait := some ⟨.deassertion, wt.count + 1⟩ }
    | .deassertion, (false, s') => finishOk { s' with wait := none }

end Sys2Proof.Machine
end

