-- ==== Sys2Proof/Machine/Dispatch.lean ====
section
/-! DEFINITION. One arm per command (30_encoding.md R84). -/

namespace Sys2Proof.Machine

open Sys2Proof

def exec (i : Instr) (s : State) : Host.Outcome State Fault Refusal :=
  match i with
  | .init => Sys2Proof.Machine.execInit s
  | .rstsurf => Sys2Proof.Machine.execRstsurf s
  | .blit tile x y color mode => Sys2Proof.Machine.execBlit tile x y color mode s
  | .blitc tile x y color mode inverse => Sys2Proof.Machine.execBlitc tile x y color mode inverse s
  | .fill x y w h color => Sys2Proof.Machine.execFill x y w h color s
  | .drawboard n => Sys2Proof.Machine.execDrawboard n s
  | .drawname q len active => Sys2Proof.Machine.execDrawname q len active s
  | .renderfield q => Sys2Proof.Machine.execRenderfield q s
  | .updatecell q pos blink => Sys2Proof.Machine.execUpdatecell q pos blink s
  | .waitvsync => Sys2Proof.Machine.execWaitvsync s

end Sys2Proof.Machine
end

