-- ==== Sys2Proof/Machine/HostPort.lean ====
section
/-! DEFINITION. The host window and the command port (10_state.md R22, R28, R29), and what a step does in each
situation of the engine. -/

namespace Sys2Proof.Machine

open Sys2Proof

/-- What stands at one byte offset of the host window (10_state.md R22). -/
inductive WindowByte where
  /-- Offset `a` of a byte memory. -/
  | mem (space : Space) (a : Nat)
  /-- A byte of the REG space. -/
  | reg
  /-- Unassigned. -/
  | unassigned
  deriving DecidableEq, Repr

/-- The host address map (R22). -/
def windowByte (offset : Nat) : WindowByte :=
  if offset < 0x3E80 then .mem .surf offset
  else if 0x4000 ≤ offset ∧ offset < 0x5000 then .mem .atlas (offset - 0x4000)
  else if 0x5000 ≤ offset ∧ offset < 0x5064 then .mem .cellbuf (offset - 0x5000)
  else if 0x5080 ≤ offset ∧ offset < 0x5090 then .mem .namebuf (offset - 0x5080)
  else if 0x5100 ≤ offset ∧ offset < 0x5128 then .reg
  else .unassigned

/-- The `n` bytes from `offset` on, as the window shows them. -/
def windowBytes (offset n : Nat) : List WindowByte := (List.range n).map fun k => windowByte (offset + k)

/-- An access wider than a byte, or to REG, that is not a defined register access: ignored or unspecified if it lies
wholly in unassigned offsets (R22, 93 U7), otherwise refused (R22, R28, 93 U8; log entry 9). -/
def otherAccess (offset n : Nat) (ignored : State) : Host.Outcome State Fault Refusal :=
  if (windowBytes offset n).all (· == .unassigned) then .next ignored
  else if (windowBytes offset n).any (· == .reg) then .refused (.registerAccessNotDefined offset)
  else .refused (.wideMemoryAccess offset)

/-- A host read of one byte (R22, 20_memory.md R62). -/
def hostRead8 (offset : Nat) (s : State) : Host.Outcome State Fault Refusal :=
  match windowByte offset with
  | .mem space a => .next (returnToHost (((memOf space s).read space a).setWidth 64) s)
  | .reg => otherAccess offset 1 s
  | .unassigned => .next (returnUnspecified 8 s)

/-- A host write of one byte (R22, 20_memory.md R62). -/
def hostWrite8 (offset : Nat) (v : Byte) (s : State) : Host.Outcome State Fault Refusal :=
  match windowByte offset with
  | .mem space a => .next (setMem space ((memOf space s).write a v) s)
  | .reg => otherAccess offset 1 s
  | .unassigned => .next s

/-- A host read of 32 bits: STATUS, RESULT, FCODE, CTX (unspecified while CTXVALID is 0) or VSTO (R28, R31). -/
def hostRead32 (offset : Nat) (s : State) : Host.Outcome State Fault Refusal :=
  match offset with
  | 0x5108 => .next (returnToHost (s.status.word.setWidth 64) s)
  | 0x510C => .next (returnToHost (s.result.word.setWidth 64) s)
  | 0x5110 => .next (returnToHost (s.fcode.word.setWidth 64) s)
  | 0x5114 => .next (if s.status.ctxValid then returnToHost (s.ctx.word.setWidth 64) s else returnUnspecified 32 s)
  | 0x5120 => .next (returnToHost (s.vsto.setWidth 64) s)
  | _ => otherAccess offset 4 (returnUnspecified 32 s)

/-- A host write of 32 bits: VSTO is stored, the read-only registers ignore it (R28, R35). -/
def hostWrite32 (offset : Nat) (v : Word32) (s : State) : Host.Outcome State Fault Refusal :=
  match offset with
  | 0x5120 => .next { s with vsto := v }
  | 0x5108 => .next s
  | 0x510C => .next s
  | 0x5110 => .next s
  | 0x5114 => .next s
  | _ => otherAccess offset 4 s

/-- A host read of 64 bits: FCMD, or the write-only CMD, which returns an unspecified value (R28, 93 U4 (b)). -/
def hostRead64 (offset : Nat) (s : State) : Host.Outcome State Fault Refusal :=
  match offset with
  | 0x5100 => .next (returnUnspecified 64 s)
  | 0x5118 => .next (returnToHost s.fcmd s)
  | _ => otherAccess offset 8 (returnUnspecified 64 s)

/-- The command port: execute the word, or end with ILLEGAL_COMMAND (10_state.md R29, 60_exceptions.md R202). -/
def runWord (w : CmdWord) (s : State) : Host.Outcome State Fault Refusal :=
  match decode w with
  | .ok i => exec i s
  | .error _ => endWithFault .illegalCommand w s

/-- A host write of 64 bits: a command to CMD; the read-only FCMD ignores it (R28, R29). -/
def hostWrite64 (offset : Nat) (w : CmdWord) (s : State) : Host.Outcome State Fault Refusal :=
  match offset with
  | 0x5100 => runWord w s
  | 0x5118 => .next s
  | _ => otherAccess offset 8 s

/-- One access of the host (R22, R28, R40). -/
def hostAccess (act : HostAction) (s : State) : Host.Outcome State Fault Refusal :=
  match act with
  | .read8 offset => hostRead8 offset s
  | .write8 offset v => hostWrite8 offset v s
  | .read32 offset => hostRead32 offset s
  | .write32 offset v => hostWrite32 offset v s
  | .read64 offset => hostRead64 offset s
  | .write64 offset w => hostWrite64 offset w s

/-- A step without reset: a running WAITVSYNC goes on and holds the host (R40); otherwise the host makes its next
access; with none to make, the engine stays idle (70_reset_and_hazards.md R231, log entry 1). -/
def runStep (s : State) : Host.Outcome State Fault Refusal :=
  match s.wait with
  | some wt => .next (waitStep wt s)
  | none =>
    match s.hostActs with
    | [] => .next s
    | act :: rest => hostAccess act { s with hostActs := rest }

/-- A step: RESET is looked at first (70_reset_and_hazards.md R230, R231; log entry 10). -/
def stepOnce (s : State) : Host.Outcome State Fault Refusal :=
  match s.resetIn with
  | [] => runStep s
  | false :: rest => runStep { s with resetIn := rest }
  | true :: rest => .next (applyReset { s with resetIn := rest })

/-- The state in which the next step executes the command word `w`: no reset is due, no WAITVSYNC runs, and the host's
next access writes `w` to CMD (10_state.md R29; log entry 1). -/
def placeCommand (w : CmdWord) (s : State) : State :=
  { s with
    resetIn := []
    wait := none
    hostActs := .write64 0x5100 w :: s.hostActs }

end Sys2Proof.Machine
end

