-- ==== Sys2Proof/Machine/Step.lean ====
section
/-! DEFINITION. One step of the machine, and how the host pipeline places a word to be executed next. -/

namespace Sys2Proof.Machine

open Sys2Proof

/-- One step: a reset, one turn of a running WAITVSYNC, one host access (a whole command, if it writes CMD), or
nothing (`stepOnce`). -/
def step (s : State) : Host.Outcome State Fault Refusal := stepOnce s

/-- `s` with the command word `w` (bits above `nbits` zero) as the host's next write to CMD, so that the next step
executes it (log entry 1). -/
def State.withFetchWord (s : State) (nbits w : Nat) : State := placeCommand (BitVec.ofNat 64 (w % 2 ^ nbits)) s

end Sys2Proof.Machine
end

