-- ==== Sys2Proof/Safety.lean ====
section
/-! DEFINITION. The terms claims are stated in: the invariant of the machine, when a command is issued, the causes of
NOT_READY and OUT_OF_BOUNDS as the spec's tables give them, what the scan-out may see, the order of a command's writes,
which host accesses have a definition, and runs that end well. -/

namespace Sys2Proof.Machine

open Sys2Proof

/-! ### The invariant -/

/-- What every reachable state satisfies. -/
structure State.Inv (s : State) : Prop where
  /-- The four memories are in canonical form, inside their spaces (10_state.md R22, 20_memory.md R68). -/
  surfWf : s.surf.wf .surf = true
  atlasWf : s.atlas.wf .atlas = true
  cellbufWf : s.cellbuf.wf .cellbuf = true
  namebufWf : s.namebuf.wf .namebuf = true
  /-- CTX is valid only after INIT (10_state.md R30, 60_exceptions.md R203). -/
  ctxAfterInit : s.status.ctxValid = true → s.status.inited = true
  /-- A valid CTX holds 1 to 4 players and their field offset (10_state.md R31, 43_board_composer.md R150). -/
  ctxPlayers : s.status.ctxValid = true → 1 ≤ s.ctx.pcnt.toNat ∧ s.ctx.pcnt.toNat ≤ 4
  ctxOffset : s.status.ctxValid = true → s.ctx.fofs = fofsOf s.lrom s.ctx.pcnt.toNat
  /-- FCODE is a fault code exactly when a fault was recorded, and FCMD is 0 before (10_state.md R33, R34). -/
  fcodeFault : s.fcode ≠ .ok ↔ s.status.fault = true
  fcmdFault : s.status.fault = false → s.fcmd = 0
  /-- A result other than OK was recorded as a fault (60_exceptions.md R206). -/
  resultFault : s.result ≠ .ok → s.status.fault = true
  /-- A bounded wait never takes more than VSTO samples (45_surface_control.md R192). -/
  waitBounded : ∀ wt, s.wait = some wt → s.vsto ≠ 0 → wt.count ≤ s.vsto
  /-- The next free draw is one that no memory has used (log entry 18). -/
  stampsUsed : s.surf.stamp < s.fresh ∧ s.atlas.stamp < s.fresh ∧ s.cellbuf.stamp < s.fresh
    ∧ s.namebuf.stamp < s.fresh

/-! ### When a command is issued -/

/-- The next step executes the word `w`: no reset is due, no WAITVSYNC runs, and the host's next access writes `w` to
CMD; `rest` are its later accesses (10_state.md R29). -/
def CommandIssued (s : State) (w : CmdWord) (rest : List HostAction) : Prop :=
  s.resetIn.head? ≠ some true ∧ s.wait = none ∧ s.hostActs = .write64 0x5100 w :: rest

/-- The state the issued command runs in: the step has taken the CMD write and one level of RESET. -/
def afterIssue (s : State) (rest : List HostAction) : State :=
  { s with
    hostActs := rest
    resetIn := s.resetIn.tail }

/-! ### Causes of faults, from the spec's tables -/

/-- The commands that need INITED (60_exceptions.md R203 (a)). -/
def needsInit : Instr → Bool
  | .init => false
  | .rstsurf => true
  | .blit .. => true
  | .blitc .. => true
  | .fill .. => true
  | .drawboard .. => true
  | .drawname .. => true
  | .renderfield .. => true
  | .updatecell .. => true
  | .waitvsync => false

/-- The commands that need CTXVALID (60_exceptions.md R203 (b)). -/
def needsContext : Instr → Bool
  | .init => false
  | .rstsurf => false
  | .blit .. => false
  | .blitc .. => false
  | .fill .. => false
  | .drawboard .. => false
  | .drawname .. => true
  | .renderfield .. => true
  | .updatecell .. => true
  | .waitvsync => false

/-- The command is NOT_READY in this state (60_exceptions.md R203). -/
def NotReadyCause (i : Instr) (s : State) : Prop :=
  (needsInit i = true ∧ s.status.inited = false) ∨ (needsContext i = true ∧ s.status.ctxValid = false)

/-- The causes of OUT_OF_BOUNDS by command (60_exceptions.md R201). -/
def OutOfBoundsCause (i : Instr) (s : State) : Prop :=
  match i with
  | .init => False
  | .rstsurf => False
  | .blit tile x y _ _ => 255 < tile ∨ 39 < x ∨ 24 < y
  | .blitc tile x y _ _ _ => 255 < tile ∨ 39 < x ∨ 24 < y
  | .fill x y w h _ => 319 < x ∨ 199 < y ∨ 320 < x + w ∨ 200 < y + h
  | .drawboard n => n < 1 ∨ 4 < n ∨ none ∈ boardPrims s.lrom n
  | .drawname q len active =>
    s.ctx.pcnt.toNat ≤ q ∨ s.lrom.nameMax < len ∨ (∃ k, k < len ∧ 0x80 ≤ (nameChar s k).toNat) ∨
      none ∈ drawnamePrims q len active s
  | .renderfield q =>
    s.ctx.pcnt.toNat ≤ q ∨ (∃ p, p < 100 ∧ 2 < (cellCode s p).toNat) ∨
      none ∈ (List.range 100).flatMap (cellPrims q false s)
  | .updatecell q pos blink =>
    s.ctx.pcnt.toNat ≤ q ∨ 99 < pos ∨ 2 < (cellCode s pos).toNat ∨ none ∈ cellPrims q blink s pos
  | .waitvsync => False

/-! ### The scan-out (20_memory.md R66, R70) -/

/-- The Surface accesses of a plan: none if the command ends with a fault (60_exceptions.md R205). -/
def planAccesses (plan : Except ResultCode (List Access)) : List Access :=
  match plan with
  | .ok accs => accs
  | .error _ => []

/-- The Surface accesses the command performs, in the order of 20_memory.md R66. INIT and WAITVSYNC perform none
(45_surface_control.md R187 (b), R193 (f)). -/
def accessesOf (i : Instr) (s : State) : List Access :=
  match i with
  | .init => []
  | .rstsurf => if s.status.inited then clearAccesses else []
  | .blit tile x y color mode => planAccesses (blitPlan tile x y color mode false s)
  | .blitc tile x y color mode inverse => planAccesses (blitPlan tile x y color mode inverse s)
  | .fill x y w h color => planAccesses (fillPlan x y w h color s)
  | .drawboard n => planAccesses (boardPlan n s)
  | .drawname q len active => planAccesses (namePlan q len active s)
  | .renderfield q => planAccesses (fieldPlan q s)
  | .updatecell q pos blink => planAccesses (cellPlan q pos blink s)
  | .waitvsync => []

/-- While the command runs from `s` the scan-out may see the Surface `m`: some prefix of the command's accesses gives
it (20_memory.md R70, 70_reset_and_hazards.md R242). -/
def ScanOutMaySee (i : Instr) (s : State) (m : Mem) : Prop :=
  ∃ k, applyAccesses ((accessesOf i s).take k) s.surf = some m

/-- No access of the list stores to SURF offset `a`. -/
def Untouched (accs : List Access) (a : Nat) : Prop := ∀ acc ∈ accs, surfAddr acc.row acc.bcol ≠ some a

/-- The row and byte column of each access, in order. -/
def places (accs : List Access) : List (Nat × Nat) := accs.map fun acc => (acc.row, acc.bcol)

/-- Where `blitAt` writes, in order: tile rows 0 to 7, in each the byte at `2 * col`, then the next (20_memory.md
R66). -/
def tilePlaces (col prow : Nat) : List (Nat × Nat) :=
  (List.range 8).flatMap fun r => [(prow + r, 2 * col), (prow + r, 2 * col + 1)]

/-- Where `fillAt` writes, in order: rows `y` to `y + h - 1`, in each the start byte, the middle bytes in ascending byte
column, then the end byte (20_memory.md R66); nowhere if `w` is 0 (42_rect_filler.md R126 (a)). -/
def rectPlaces (x y w h : Nat) : List (Nat × Nat) :=
  if w = 0 then []
  else (List.range' y h).flatMap fun row =>
    (List.range' (x / 4) ((x + w - 1) / 4 - x / 4 + 1)).map fun bcol => (row, bcol)

/-- Where a primitive writes, in order. -/
def Prim.places : Prim → List (Nat × Nat)
  | .blit _ col prow _ _ _ => tilePlaces col prow
  | .fill x y w h _ => rectPlaces x y w h

/-! ### Host accesses that have a definition (10_state.md R22, R28) -/

/-- The first byte offset of a host access. -/
def HostAction.offset : HostAction → Nat
  | .read8 offset => offset
  | .write8 offset _ => offset
  | .read32 offset => offset
  | .write32 offset _ => offset
  | .read64 offset => offset
  | .write64 offset _ => offset

/-- How many bytes a host access covers. -/
def HostAction.width : HostAction → Nat
  | .read8 _ => 1
  | .write8 _ _ => 1
  | .read32 _ => 4
  | .write32 _ _ => 4
  | .read64 _ => 8
  | .write64 _ _ => 8

/-- The access covers an offset of `lo..hi-1`. -/
def HostAction.meets (act : HostAction) (lo hi : Nat) : Prop := lo < act.offset + act.width ∧ act.offset < hi

/-- The access covers a byte of REG (10_state.md R22). -/
def HostAction.meetsReg (act : HostAction) : Prop := act.meets 0x5100 0x5128

/-- The access covers a byte of SURF, ATLAS, CELLBUF or NAMEBUF (10_state.md R22). -/
def HostAction.meetsMemory (act : HostAction) : Prop :=
  act.meets 0 0x3E80 ∨ act.meets 0x4000 0x5000 ∨ act.meets 0x5000 0x5064 ∨ act.meets 0x5080 0x5090

/-- An aligned access to one register at its full width (10_state.md R28). -/
def HostAction.isRegisterAccess : HostAction → Prop
  | .read8 _ => False
  | .write8 _ _ => False
  | .read32 offset => offset ∈ [0x5108, 0x510C, 0x5110, 0x5114, 0x5120]
  | .write32 offset _ => offset ∈ [0x5108, 0x510C, 0x5110, 0x5114, 0x5120]
  | .read64 offset => offset ∈ [0x5100, 0x5118]
  | .write64 offset _ => offset ∈ [0x5100, 0x5118]

/-- The access has no definition, and `r` is the refusal that says why (10_state.md R22, R28,
93_implementation_defined.md U8; log entry 9). -/
def HostAction.refusedAs (act : HostAction) (r : Refusal) : Prop :=
  (act.meetsReg ∧ ¬ act.isRegisterAccess ∧ r = .registerAccessNotDefined act.offset) ∨
  (1 < act.width ∧ act.meetsMemory ∧ ¬ act.meetsReg ∧ r = .wideMemoryAccess act.offset)

/-! ### The VSYNC samples ahead (45_surface_control.md R191) -/

/-- `v(k)`: the `k`-th sample a WAITVSYNC issued in this state would take, from the input and then free. -/
def vsyncAhead (s : State) (k : Nat) : Bool :=
  s.vsyncIn.getD k (Config.freeSample (s.fresh + (k - s.vsyncIn.length)))

/-- The state after `k` samples have been taken. -/
def afterSamples (k : Nat) (s : State) : State :=
  { s with
    vsyncIn := s.vsyncIn.drop k
    fresh := s.fresh + (k - s.vsyncIn.length) }

/-! ### Runs (70_reset_and_hazards.md R247) -/

/-- The run has ended: the host has no access left and the engine is idle. -/
def State.runEnded (s : State) : Bool := s.hostActs.isEmpty && s.wait.isNone

/-- The run has ended well: in addition no fault is recorded (R208, R247). -/
def State.endedWell (s : State) : Bool := s.runEnded && !s.status.fault

end Sys2Proof.Machine
end

