-- ==== Sys2Proof/Certificates/Slice0/Obligations.lean ====
section
/-! DEFINITION. The statements for the provers. OBLIGATIONS.json gives each its title, its tier and the rules it cites.
A statement about a free value holds for every value of it. -/

open Sys2Proof Sys2Proof.Machine

/-! ### Encoding (30_encoding.md) -/

/-- Decode and encode agree: no bit of a command's word is dropped (R81 to R85). -/
def Obligations.DecodeOfEncodeIsTheCommand : Prop :=
  ∀ i : Instr, i.wellFormed = true → decode (encode i) = .ok i

/-- The decoder is the table's: a word is a command exactly if it matches a row, at most one row matches, and the
operands are the fields of the word (R89, which the spec derives from R81, R84, R86 and R87). -/
def Obligations.DecodeFollowsTheOpcodeTable : Prop :=
  ∀ v : CmdWord,
    (∀ i, decode v = .ok i →
      i.wellFormed = true ∧ encode i = v ∧ ∃ r ∈ opcodeTable, r.mnemonic = i.mnemonic ∧ v &&& r.mask = r.pattern) ∧
    (∀ r ∈ opcodeTable, v &&& r.mask = r.pattern → ∃ i, decode v = .ok i ∧ i.mnemonic = r.mnemonic) ∧
    (∀ r ∈ opcodeTable, ∀ r' ∈ opcodeTable, v &&& r.mask = r.pattern → v &&& r'.mask = r'.pattern → r = r')

/-- Words written out from the encodings decode to their commands, and neighbours are rejected (R84, R86, R87). -/
def Obligations.WrittenOutWordsDecode : Prop :=
  decode 0x0100000000000000#64 = .ok .init ∧
  decode 0x0306041005003000#64 = .ok (.blit 0x41 5 3 2 .mask) ∧
  decode 0x040D021000000000#64 = .ok (.blitc 0x21 0 0 1 .mask true) ∧
  decode 0x0502000000140001#64 = .ok (.fill 0 0 320 1 2) ∧
  decode 0x0710001002000000#64 = .ok (.drawname 1 2 true) ∧
  decode 0x0920000025000000#64 = .ok (.updatecell 0 37 true) ∧
  decode 0x0000000000000000#64 = .error (.reservedOpcode 0) ∧
  decode 0x0308000000000000#64 = .error (.reservedBits 3) ∧
  decode 0x0A00000000000001#64 = .error (.reservedBits 10)

/-! ### The step and the command port -/

/-- A step runs the decoded command: a CMD write of a command's word executes it, in the state with that write and one
level of RESET taken (10_state.md R29). -/
def Obligations.StepRunsTheDecodedCommand : Prop :=
  ∀ (s : State) (w : CmdWord) (rest : List HostAction) (i : Instr),
    CommandIssued s w rest → decode w = .ok i → step s = exec i (afterIssue s rest)

/-- A word with a reserved opcode, or with an assigned opcode and a reserved bit set, ends with ILLEGAL_COMMAND and
changes nothing but the fault registers (30_encoding.md R86, R87). -/
def Obligations.IllegalWordOnlyRaisesIllegalCommand : Prop :=
  ∀ (s : State) (w : CmdWord) (rest : List HostAction), CommandIssued s w rest →
    ((opField w = 0 ∨ 0x0B ≤ opField w) → step s = .next (raise .illegalCommand w (afterIssue s rest))) ∧
    ((∀ r ∈ opcodeTable, w &&& r.mask ≠ r.pattern) →
      step s = .next (raise .illegalCommand w (afterIssue s rest)))

/-! ### Reset (10_state.md R42, 70_reset_and_hazards.md R230) -/

/-- The values after reset (R42): registers 0, engine idle, MODE_REQ not asserted, the configured store, every memory
byte a free value. CTX's fields hold no value the spec gives; log entry 6 names the model's. -/
def Obligations.ResetValues : Prop :=
  State.reset.status = ⟨false, false, false⟩ ∧ State.reset.result = .ok ∧ State.reset.fcode = .ok ∧
  State.reset.fcmd = 0 ∧ State.reset.vsto = 0 ∧ State.reset.wait = none ∧ State.reset.modeReqPulses = 0 ∧
  State.reset.lrom = Config.layoutStore ∧
  ∀ space a, (memOf space State.reset).read space a = Config.freeByte space 0 a

/-- RESET takes the machine to the reset values from any state, also during a WAITVSYNC, and is the only event that
clears INITED, CTXVALID, FAULT, FCODE and FCMD (R230). -/
def Obligations.OnlyResetClearsTheFlags : Prop :=
  (∀ s : State, s.resetIn.head? = some true → ∃ t, step s = .next t ∧
    t.status = ⟨false, false, false⟩ ∧ t.result = .ok ∧ t.fcode = .ok ∧ t.fcmd = 0 ∧ t.vsto = 0 ∧ t.wait = none ∧
    ∀ space a, (memOf space t).read space a = Config.freeByte space s.fresh a) ∧
  (∀ s t : State, s.resetIn.head? ≠ some true → step s = .next t →
    (s.status.inited = true → t.status.inited = true) ∧
    (s.status.ctxValid = true → t.status.ctxValid = true) ∧
    (s.status.fault = true → t.status.fault = true ∧ t.fcode = s.fcode ∧ t.fcmd = s.fcmd))

/-! ### Faults (60_exceptions.md) -/

/-- The fault sequence, for the first and for a later fault (R206). -/
def Obligations.RaiseIsTheFaultSequence : Prop :=
  ∀ (c : ResultCode) (w : CmdWord) (s : State), c ≠ .ok →
    (s.status.fault = false →
      raise c w s =
        { s with result := c, fcode := c, fcmd := w, status := { s.status with fault := true } }) ∧
    (s.status.fault = true → raise c w s = { s with result := c })

/-- A command ends OK, or it went through the fault sequence and changed nothing else (R205, R206). WAITVSYNC ends in
later steps and has statements of its own. -/
def Obligations.FaultingCommandChangesOnlyTheFaultRegisters : Prop :=
  ∀ (i : Instr) (s t : State), i ≠ .waitvsync → exec i s = .next t →
    t.result = .ok ∨ ∃ c, c ≠ .ok ∧ t = raise c (encode i) s

/-- NOT_READY: raised exactly when a command needs INITED or CTXVALID and it is 0, whatever its operands (R203). -/
def Obligations.NotReadyExactlyBeforeInitOrDrawboard : Prop :=
  (∀ (i : Instr) (s : State), NotReadyCause i s → exec i s = .next (raise .notReady (encode i) s)) ∧
  (∀ (i : Instr) (s t : State), i ≠ .waitvsync → exec i s = .next t → t.result = .notReady → NotReadyCause i s)

/-- OUT_OF_BOUNDS: raised by a ready command exactly for the causes of the table; WAITVSYNC never raises it (R201).
NAME_MAX is at most 16 in every store (00_scope.md R8). -/
def Obligations.OutOfBoundsCausesAreTheTable : Prop :=
  (∀ (i : Instr) (s : State), i ≠ .waitvsync → s.lrom.nameMax ≤ 16 → ¬ NotReadyCause i s →
    (OutOfBoundsCause i s ↔ exec i s = .next (raise .outOfBounds (encode i) s))) ∧
  (∀ s t : State, exec .waitvsync s = .next t → t.result = s.result) ∧
  (∀ (wt : Wait) (s : State), (waitStep wt s).result = .outOfBounds → s.result = .outOfBounds)

/-- The flags change only as the table of STATUS says (10_state.md R30). -/
def Obligations.CommandsSetFlagsAsTheStatusTableSays : Prop :=
  ∀ (i : Instr) (s t : State), exec i s = .next t →
    (t.status.inited = true ↔ s.status.inited = true ∨ i = .init) ∧
    (t.status.ctxValid = true ↔ s.status.ctxValid = true ∨ ((∃ n, i = .drawboard n) ∧ t.result = .ok)) ∧
    (t.status.fault = true ↔ s.status.fault = true ∨ (i ≠ .waitvsync ∧ t.result ≠ .ok))

/-! ### The AddressMapper and the lanes (20_memory.md) -/

/-- `rowOffset` on rows 0..199, nothing above (R50, R51). -/
def Obligations.RowOffsetFormula : Prop :=
  ∀ row : Nat,
    (row < 200 → rowOffset row = some (row / 2 * 80 + row % 2 * 8000) ∧ row / 2 * 80 + row % 2 * 8000 ≤ 15920) ∧
    (200 ≤ row → rowOffset row = none)

/-- `surfAddr` is a bijection from rows and byte columns onto the offsets, with the stated inverse; even rows fill bank
0 and odd rows bank 1 (R53, which the spec derives from R50 and R52). -/
def Obligations.SurfAddrIsABijection : Prop :=
  (∀ row bcol : Nat, row < 200 → bcol < 80 → ∃ a, a < 16000 ∧ surfAddr row bcol = some a ∧
    a / 8000 = row % 2 ∧ 2 * (a % 8000 / 80) + a / 8000 = row ∧ a % 8000 % 80 = bcol) ∧
  (∀ a : Nat, a < 16000 → ∃! p : Nat × Nat, p.1 < 200 ∧ p.2 < 80 ∧ surfAddr p.1 p.2 = some a)

/-- The lane masks for both lane orders; this hardware is MSB_FIRST (R57). -/
def Obligations.LaneMaskTables : Prop :=
  (List.range 4).map laneMask = [0xC0#8, 0x30#8, 0x0C#8, 0x03#8] ∧
  (List.range 4).map leftMask = [0xFF#8, 0x3F#8, 0x0F#8, 0x03#8] ∧
  (List.range 4).map rightMask = [0xC0#8, 0xF0#8, 0xFC#8, 0xFF#8] ∧
  (List.range 4).map (laneMaskOf .lsbFirst) = [0x03#8, 0x0C#8, 0x30#8, 0xC0#8] ∧
  (List.range 4).map (leftMaskOf .lsbFirst) = [0xFF#8, 0xFC#8, 0xF0#8, 0xC0#8] ∧
  (List.range 4).map (rightMaskOf .lsbFirst) = [0x03#8, 0x0F#8, 0x3F#8, 0xFF#8]

/-- `rep(c)` holds the colour in every lane and is `c * 0x55` (R56). -/
def Obligations.RepFillsEveryLane : Prop :=
  ∀ c : Color, rep c = BitVec.ofNat 8 (c.toNat * 0x55) ∧ ∀ p, p < 4 → lane (rep c) p = c

/-- A blit's byte, lane by lane: complement if inverse, then AND with the colour in mask mode (41_tile_blitter.md R101,
R71). -/
def Obligations.OutByteActsLaneByLane : Prop :=
  ∀ (v : Byte) (color : Color) (mode : MaskMode) (inv : Bool) (p : Nat), p < 4 →
    lane (outByte v color mode inv) p =
      let u := if inv then ~~~(lane v p) else lane v p
      match mode with
      | .direct => u
      | .mask => u &&& color

/-! ### Tile blitter (41_tile_blitter.md) -/

/-- BLIT (R104): its faults in order; otherwise exactly the sixteen bytes of the tile are written, and only SURF and
RESULT change. -/
def Obligations.BlitWritesTheTile : Prop :=
  ∀ (tile x y : Nat) (color : Color) (mode : MaskMode) (s : State),
    (s.status.inited = false →
      exec (.blit tile x y color mode) s = .next (raise .notReady (encode (.blit tile x y color mode)) s)) ∧
    (s.status.inited = true → 255 < tile ∨ 39 < x ∨ 24 < y →
      exec (.blit tile x y color mode) s = .next (raise .outOfBounds (encode (.blit tile x y color mode)) s)) ∧
    (s.status.inited = true → tile ≤ 255 → x ≤ 39 → y ≤ 24 →
      ∃ m, exec (.blit tile x y color mode) s = .next { s with surf := m, result := .ok } ∧
        (∀ r b, r < 8 → b < 2 → ∃ a, surfAddr (8 * y + r) (2 * x + b) = some a ∧
          m.read .surf a = outByte (s.atlas.read .atlas (16 * tile + 2 * r + b)) color mode false) ∧
        ∀ a, (∀ r b, r < 8 → b < 2 → surfAddr (8 * y + r) (2 * x + b) ≠ some a) →
          m.read .surf a = s.surf.read .surf a)

/-- BLITC (R106): as BLIT, with the inverse flag. -/
def Obligations.BlitcWritesTheTile : Prop :=
  ∀ (tile x y : Nat) (color : Color) (mode : MaskMode) (inverse : Bool) (s : State),
    (s.status.inited = false →
      exec (.blitc tile x y color mode inverse) s =
        .next (raise .notReady (encode (.blitc tile x y color mode inverse)) s)) ∧
    (s.status.inited = true → 255 < tile ∨ 39 < x ∨ 24 < y →
      exec (.blitc tile x y color mode inverse) s =
        .next (raise .outOfBounds (encode (.blitc tile x y color mode inverse)) s)) ∧
    (s.status.inited = true → tile ≤ 255 → x ≤ 39 → y ≤ 24 →
      ∃ m, exec (.blitc tile x y color mode inverse) s = .next { s with surf := m, result := .ok } ∧
        (∀ r b, r < 8 → b < 2 → ∃ a, surfAddr (8 * y + r) (2 * x + b) = some a ∧
          m.read .surf a = outByte (s.atlas.read .atlas (16 * tile + 2 * r + b)) color mode inverse) ∧
        ∀ a, (∀ r b, r < 8 → b < 2 → surfAddr (8 * y + r) (2 * x + b) ≠ some a) →
          m.read .surf a = s.surf.read .surf a)

/-- After a masked BLIT every written byte keeps to the colour's mask; after a direct one it is the tile's byte
(R108, which the spec derives from R101 and R102). -/
def Obligations.BlitBytesKeepToTheMask : Prop :=
  ∀ (tile x y : Nat) (color : Color) (s : State), s.status.inited = true → tile ≤ 255 → x ≤ 39 → y ≤ 24 →
    (∃ t, exec (.blit tile x y color .mask) s = .next t ∧ ∀ r b a, r < 8 → b < 2 →
      surfAddr (8 * y + r) (2 * x + b) = some a → t.surf.read .surf a &&& ~~~(rep color) = 0) ∧
    (∃ t, exec (.blit tile x y color .direct) s = .next t ∧ ∀ r b a, r < 8 → b < 2 →
      surfAddr (8 * y + r) (2 * x + b) = some a → t.surf.read .surf a = tileByte s.atlas tile r b)

/-- Repeating a BLIT or a BLITC that ended OK changes nothing more (R105 (g), R107 (f)). -/
def Obligations.BlitsAreIdempotent : Prop :=
  ∀ (tile x y : Nat) (color : Color) (mode : MaskMode) (inverse : Bool) (s t : State), s.surf.wf .surf = true →
    (exec (.blit tile x y color mode) s = .next t → t.result = .ok → exec (.blit tile x y color mode) t = .next t) ∧
    (exec (.blitc tile x y color mode inverse) s = .next t → t.result = .ok →
      exec (.blitc tile x y color mode inverse) t = .next t)

/-! ### Rectangle filler (42_rect_filler.md) -/

/-- FILL (R125): its faults in order; an empty rectangle is OK and changes only RESULT; otherwise SURF and RESULT
change, and of SURF only the byte columns `startByte..endByte` of the rows `y..y+h-1`. -/
def Obligations.FillFollowsItsRule : Prop :=
  ∀ (x y w h : Nat) (color : Color) (s : State),
    (s.status.inited = false →
      exec (.fill x y w h color) s = .next (raise .notReady (encode (.fill x y w h color)) s)) ∧
    (s.status.inited = true → 319 < x ∨ 199 < y ∨ 320 < x + w ∨ 200 < y + h →
      exec (.fill x y w h color) s = .next (raise .outOfBounds (encode (.fill x y w h color)) s)) ∧
    (s.status.inited = true → x ≤ 319 → y ≤ 199 → x + w ≤ 320 → y + h ≤ 200 →
      (w = 0 ∨ h = 0 → exec (.fill x y w h color) s = .next { s with result := .ok }) ∧
      ∃ m, exec (.fill x y w h color) s = .next { s with surf := m, result := .ok } ∧
        applyAccesses (fillAccesses x y w h color) s.surf = some m ∧
        ∀ a, (∀ row bcol, y ≤ row → row < y + h → x / 4 ≤ bcol → bcol ≤ (x + w - 1) / 4 →
            surfAddr row bcol ≠ some a) → m.read .surf a = s.surf.read .surf a)

/-- What FILL paints, pixel by pixel: every pixel of the rectangle becomes the colour, every other pixel keeps its
value (R123, which the spec derives from R120 to R124). -/
def Obligations.FillPaintsExactlyTheRectangle : Prop :=
  ∀ (x y w h : Nat) (color : Color) (s : State),
    s.status.inited = true → x ≤ 319 → y ≤ 199 → x + w ≤ 320 → y + h ≤ 200 →
      ∃ m, exec (.fill x y w h color) s = .next { s with surf := m, result := .ok } ∧
        ∀ row px, row < 200 → px < 320 →
          pixel m row px =
            if y ≤ row ∧ row < y + h ∧ x ≤ px ∧ px < x + w then some color else pixel s.surf row px

/-- Repeating a FILL that ended OK changes nothing more (R126 (i)). -/
def Obligations.FillIsIdempotent : Prop :=
  ∀ (x y w h : Nat) (color : Color) (s t : State), s.surf.wf .surf = true →
    exec (.fill x y w h color) s = .next t → t.result = .ok → exec (.fill x y w h color) t = .next t

/-- The document's scenario: RSTSURF, then FILL 0,0,320,1,2, gives 80 bytes of 0xAA in row 0 and 0x00 elsewhere
(R127, which the spec derives from R122). -/
def Obligations.ClearThenFillFirstRow : Prop :=
  ∀ s : State, s.status.inited = true →
    ∃ t u, exec .rstsurf s = .next t ∧ exec (.fill 0 0 320 1 2) t = .next u ∧
      ∀ a, a < 16000 → u.surf.read .surf a = if a < 80 then 0xAA#8 else 0x00#8

/-! ### Board composer (43_board_composer.md) -/

/-- The orientation table of the active quadrants, and the values for the inactive ones: LEFT, but RIGHT for quadrant 3
of three players (R151). -/
def Obligations.OrientationTable : Prop :=
  [orient 0 1, orient 0 2, orient 1 2, orient 0 3, orient 1 3, orient 2 3, orient 0 4, orient 1 4, orient 2 4,
    orient 3 4] =
    [Orient.left, .left, .right, .left, .left, .right, .left, .left, .right, .right] ∧
  [orient 1 1, orient 2 1, orient 3 1, orient 2 2, orient 3 2, orient 3 3] =
    [Orient.left, .left, .left, .left, .left, .right]

/-- Placement (R146), each side by itself: a tile's column is `c0 + dx` LEFT and `c0 + 9 - dx` RIGHT, its index that
side's plus the delta, and it is INVALID exactly outside columns 0..39, rows 0..192, indices 0..255; a rectangle starts
at `8*c0 + dx` LEFT and `8*c0 + 80 - dx - w` RIGHT, and is INVALID exactly if it leaves the Surface. So the two sides
mirror each other about the playfield's centre line, rows stay, and the delta reaches tiles only. -/
def Obligations.PlacementMirrorsAboutThePlayfield : Prop :=
  (∀ (tileL tileR : Byte) (dx dy : Int) (color : Color) (mode : MaskMode) (c0 p0 : Int) (delta : Nat) (p : Prim),
    (place (.tile tileL tileR dx dy color mode) c0 p0 .left delta = some p ↔
      0 ≤ c0 + dx ∧ c0 + dx ≤ 39 ∧ 0 ≤ p0 + dy ∧ p0 + dy ≤ 192 ∧ tileL.toNat + delta ≤ 255 ∧
        p = .blit (tileL.toNat + delta) (c0 + dx).toNat (p0 + dy).toNat color mode false) ∧
    (place (.tile tileL tileR dx dy color mode) c0 p0 .right delta = some p ↔
      0 ≤ c0 + 9 - dx ∧ c0 + 9 - dx ≤ 39 ∧ 0 ≤ p0 + dy ∧ p0 + dy ≤ 192 ∧ tileR.toNat + delta ≤ 255 ∧
        p = .blit (tileR.toNat + delta) (c0 + 9 - dx).toNat (p0 + dy).toNat color mode false)) ∧
  (∀ (dx dy : Int) (w h : Nat) (color : Color) (c0 p0 : Int) (delta : Nat) (p : Prim),
    (place (.rect dx dy w h color) c0 p0 .left delta = some p ↔
      0 ≤ 8 * c0 + dx ∧ 8 * c0 + dx + w ≤ 320 ∧ 0 ≤ p0 + dy ∧ p0 + dy + h ≤ 200 ∧
        p = .fill (8 * c0 + dx).toNat (p0 + dy).toNat w h color) ∧
    (place (.rect dx dy w h color) c0 p0 .right delta = some p ↔
      0 ≤ 8 * c0 + 80 - dx - w ∧ 8 * c0 + 80 - dx ≤ 320 ∧ 0 ≤ p0 + dy ∧ p0 + dy + h ≤ 200 ∧
        p = .fill (8 * c0 + 80 - dx - w).toNat (p0 + dy).toNat w h color)) ∧
  (∀ (tileL tileR : Byte) (dx dy : Int) (color : Color) (mode : MaskMode) (c0 p0 : Int) (delta : Nat)
      (tl cl rl tr cr rr : Nat) (col col' : Color) (m m' : MaskMode) (i i' : Bool),
    place (.tile tileL tileR dx dy color mode) c0 p0 .left delta = some (.blit tl cl rl col m i) →
    place (.tile tileL tileR dx dy color mode) c0 p0 .right delta = some (.blit tr cr rr col' m' i') →
      (cl : Int) + cr = 2 * c0 + 9 ∧ rl = rr ∧ (rl : Int) = p0 + dy ∧ tl = tileL.toNat + delta ∧
      tr = tileR.toNat + delta ∧ col = color ∧ col' = color ∧ m = mode ∧ m' = mode ∧ i = false ∧ i' = false) ∧
  (∀ (dx dy : Int) (w h : Nat) (color : Color) (c0 p0 : Int) (delta delta' : Nat) (xl yl wl hl xr yr wr hr : Nat)
      (col col' : Color),
    place (.rect dx dy w h color) c0 p0 .left delta = some (.fill xl yl wl hl col) →
    place (.rect dx dy w h color) c0 p0 .right delta' = some (.fill xr yr wr hr col') →
      (xl : Int) + xr + w = 16 * c0 + 80 ∧ yl = yr ∧ (yl : Int) = p0 + dy ∧ wl = w ∧ wr = w ∧ hl = h ∧ hr = h ∧
      col = color ∧ col' = color)

/-- Whatever the store holds, a placed entry's accesses stay on the Surface and its tile is in the atlas (R146,
R148). -/
def Obligations.PlacedEntriesStayOnTheSurface : Prop :=
  ∀ (e : Entry) (c0 p0 : Int) (o : Orient) (delta : Nat) (p : Prim), place e c0 p0 o delta = some p →
    (∀ atlas, ∀ acc ∈ p.accesses atlas, ∃ a, a < 16000 ∧ surfAddr acc.row acc.bcol = some a) ∧
    ∀ tile col prow color mode inv, p = .blit tile col prow color mode inv → tile ≤ 255

/-- The primitives of DRAWBOARD: for each active quadrant from 0 up the flank, badge, drawer, playfield and edge entries,
placed in the quadrant's frame with its orientation and no delta (R143, R150, R152). -/
def Obligations.BoardPrimitivesAreTheFiveLists : Prop :=
  ∀ (lay : Layout) (n : Nat) (org : Nat → Origin) (flankOf : Nat → List Entry),
    (∀ i, i < n → originOf lay i = some (org i)) →
    (∀ i, i < n → ((cornerStyleOf lay i n).bind fun style => lay.flank[style]?) = some (flankOf i)) →
    boardPrims lay n = (List.range n).flatMap fun i =>
      (flankOf i ++ lay.badge ++ lay.drawer ++ [Entry.rect 0 0 80 80 0] ++
          (if n = 1 then lay.edgeShort else lay.edgeFull)).map fun e =>
        place e ((org i).col + (fofsOf lay n).toNat) (org i).prow (orient i n) 0

/-- DRAWBOARD (R150): its faults in order, with CTX unchanged; otherwise CTX, CTXVALID, SURF and RESULT change, SURF by
the board's primitives in order and nowhere else. -/
def Obligations.DrawboardFollowsItsRule : Prop :=
  ∀ (n : Nat) (s : State),
    (s.status.inited = false → exec (.drawboard n) s = .next (raise .notReady (encode (.drawboard n)) s)) ∧
    (s.status.inited = true → n < 1 ∨ 4 < n ∨ none ∈ boardPrims s.lrom n →
      exec (.drawboard n) s = .next (raise .outOfBounds (encode (.drawboard n)) s)) ∧
    (∀ ps : List Prim, s.status.inited = true → 1 ≤ n → n ≤ 4 → boardPrims s.lrom n = ps.map some →
      ∃ m, applyAccesses (primAccesses s.atlas ps) s.surf = some m ∧
        exec (.drawboard n) s = .next
          { s with
            surf := m
            result := .ok
            ctx := ⟨if 3 ≤ n then 0 else if n = 1 then s.lrom.fofsWide1 else s.lrom.fofsWide2, BitVec.ofNat 3 n⟩
            status := { s.status with ctxValid := true } } ∧
        ∀ a, Untouched (primAccesses s.atlas ps) a → m.read .surf a = s.surf.read .surf a)

/-- With a well-formed store DRAWBOARD of 1 to 4 players ends OK, and the field offset is 0 for more than two players
and 6 or 7 otherwise (R147, R150). -/
def Obligations.WellFormedStoreDrawsEveryBoard : Prop :=
  ∀ (n : Nat) (s : State), layoutWF s.lrom = true → s.status.inited = true → 1 ≤ n → n ≤ 4 →
    ∃ t, exec (.drawboard n) s = .next t ∧ t.result = .ok ∧ t.status.ctxValid = true ∧ t.ctx.pcnt.toNat = n ∧
      (2 < n → t.ctx.fofs = 0) ∧ (n ≤ 2 → t.ctx.fofs = 6 ∨ t.ctx.fofs = 7)

/-- Repeating a DRAWBOARD that ended OK changes nothing more (R153 (f)). -/
def Obligations.DrawboardIsIdempotent : Prop :=
  ∀ (n : Nat) (s t : State), s.surf.wf .surf = true →
    exec (.drawboard n) s = .next t → t.result = .ok → exec (.drawboard n) t = .next t

/-- The primitives of DRAWNAME: the L_NAME entries with the highlight delta, then the name's characters left to right,
then the marker if active (R155, R158, R159, R160). -/
def Obligations.DrawnamePrimitivesAreBorderTextMarker : Prop :=
  ∀ (q len : Nat) (active : Bool) (s : State) (org : Origin), originOf s.lrom q = some org →
    drawnamePrims q len active s =
      (let c0 : Int := org.col + s.ctx.fofs.toNat
       let o := orient q s.ctx.pcnt.toNat
       s.lrom.name.map (fun e => place e c0 org.prow o (if active then 0x80 else 0)) ++
       (List.range len).map (fun k =>
         tileAt (glyphOf s.lrom (s.namebuf.read .namebuf k)).toNat (c0 + nameDx s.lrom o + k)
           (org.prow + s.lrom.nameDy) (if active then s.lrom.nameColorAct else s.lrom.nameColorInact) .mask active) ++
       (if active then
         [tileAt s.lrom.markerTile.toNat (c0 + markerDx s.lrom o) (org.prow + s.lrom.markerDy)
           s.lrom.markerColor s.lrom.markerMode false]
        else []))

/-- DRAWNAME (R155): its faults in order; otherwise SURF and RESULT change, SURF by its primitives in order and nowhere
else. -/
def Obligations.DrawnameFollowsItsRule : Prop :=
  ∀ (q len : Nat) (active : Bool) (s : State), s.lrom.nameMax ≤ 16 →
    (s.status.inited = false ∨ s.status.ctxValid = false →
      exec (.drawname q len active) s = .next (raise .notReady (encode (.drawname q len active)) s)) ∧
    (s.status.inited = true → s.status.ctxValid = true →
      (s.ctx.pcnt.toNat ≤ q ∨ s.lrom.nameMax < len ∨
        (∃ k, k < len ∧ 0x80 ≤ (s.namebuf.read .namebuf k).toNat) ∨ none ∈ drawnamePrims q len active s) →
      exec (.drawname q len active) s = .next (raise .outOfBounds (encode (.drawname q len active)) s)) ∧
    (∀ ps : List Prim, s.status.inited = true → s.status.ctxValid = true → q < s.ctx.pcnt.toNat →
      len ≤ s.lrom.nameMax → (∀ k, k < len → (s.namebuf.read .namebuf k).toNat < 0x80) →
      drawnamePrims q len active s = ps.map some →
      ∃ m, applyAccesses (primAccesses s.atlas ps) s.surf = some m ∧
        exec (.drawname q len active) s = .next { s with surf := m, result := .ok } ∧
        ∀ a, Untouched (primAccesses s.atlas ps) a → m.read .surf a = s.surf.read .surf a)

/-- With a well-formed store DRAWNAME of an active quadrant and an ASCII name of allowed length ends OK (R147, R155). -/
def Obligations.WellFormedStoreDrawsEveryName : Prop :=
  ∀ (q len : Nat) (active : Bool) (s : State), s.Inv → layoutWF s.lrom = true → s.status.ctxValid = true →
    q < s.ctx.pcnt.toNat → len ≤ s.lrom.nameMax →
    (∀ k, k < len → (s.namebuf.read .namebuf k).toNat < 0x80) →
      ∃ m, exec (.drawname q len active) s = .next { s with surf := m, result := .ok }

/-- The glyph lookup folds a to z to A to Z and nothing else (R156; the letters' codes are the spec's general knowledge,
log entry 20). -/
def Obligations.GlyphLookupFoldsCase : Prop :=
  ∀ (lay : Layout) (ch : Byte), ch.toNat < 0x80 →
    lay.glyph[if 0x61 ≤ ch.toNat ∧ ch.toNat ≤ 0x7A then ch.toNat - 0x20 else ch.toNat]? = some (glyphOf lay ch)

/-! ### Game field (44_game_field.md) -/

/-- RENDERFIELD (R174): its faults in order; in a reachable state with a well-formed store each Hit cell gets the hit
glyph, each Miss cell the miss glyph, Empty cells and all other bytes stay, and only SURF and RESULT change. -/
def Obligations.RenderfieldPaintsEveryMarkedCell : Prop :=
  ∀ (q : Nat) (s : State),
    (s.status.inited = false ∨ s.status.ctxValid = false →
      exec (.renderfield q) s = .next (raise .notReady (encode (.renderfield q)) s)) ∧
    (s.status.inited = true → s.status.ctxValid = true →
      (s.ctx.pcnt.toNat ≤ q ∨ (∃ p, p < 100 ∧ 2 < (s.cellbuf.read .cellbuf p).toNat) ∨
        none ∈ (List.range 100).flatMap (cellPrims q false s)) →
      exec (.renderfield q) s = .next (raise .outOfBounds (encode (.renderfield q)) s)) ∧
    (∀ org, s.Inv → layoutWF s.lrom = true → s.status.ctxValid = true → q < s.ctx.pcnt.toNat →
      originOf s.lrom q = some org → (∀ p, p < 100 → (s.cellbuf.read .cellbuf p).toNat ≤ 2) →
      ∃ m, exec (.renderfield q) s = .next { s with surf := m, result := .ok } ∧
        (∀ p r b, p < 100 → r < 8 → b < 2 → ∃ a,
          surfAddr (org.prow + 8 * (p / 10) + r) (2 * (org.col + s.ctx.fofs.toNat + p % 10) + b) = some a ∧
          m.read .surf a =
            if s.cellbuf.read .cellbuf p = 1 then
              outByte (tileByte s.atlas s.lrom.hitTile.toNat r b) s.lrom.hitColor s.lrom.markMode false
            else if s.cellbuf.read .cellbuf p = 2 then
              outByte (tileByte s.atlas s.lrom.missTile.toNat r b) s.lrom.missColor s.lrom.markMode false
            else s.surf.read .surf a) ∧
        ∀ a, (∀ p r b, p < 100 → r < 8 → b < 2 → s.cellbuf.read .cellbuf p ≠ 0 →
            surfAddr (org.prow + 8 * (p / 10) + r) (2 * (org.col + s.ctx.fofs.toNat + p % 10) + b) ≠ some a) →
          m.read .surf a = s.surf.read .surf a)

/-- UPDATECELL (R176, R177): its faults in order; in a reachable state with a well-formed store a Hit cell gets the hit
glyph, or the alternate one with blink, a Miss cell the miss glyph whatever blink is, an Empty cell changes nothing; no
byte outside the cell changes, and only SURF and RESULT do. -/
def Obligations.UpdatecellPaintsOneCell : Prop :=
  ∀ (q pos : Nat) (blink : Bool) (s : State),
    (s.status.inited = false ∨ s.status.ctxValid = false →
      exec (.updatecell q pos blink) s = .next (raise .notReady (encode (.updatecell q pos blink)) s)) ∧
    (s.status.inited = true → s.status.ctxValid = true →
      (s.ctx.pcnt.toNat ≤ q ∨ 99 < pos ∨ 2 < (s.cellbuf.read .cellbuf pos).toNat ∨
        none ∈ cellPrims q blink s pos) →
      exec (.updatecell q pos blink) s = .next (raise .outOfBounds (encode (.updatecell q pos blink)) s)) ∧
    (∀ org, s.Inv → layoutWF s.lrom = true → s.status.ctxValid = true → q < s.ctx.pcnt.toNat → pos ≤ 99 →
      originOf s.lrom q = some org → (s.cellbuf.read .cellbuf pos).toNat ≤ 2 →
      ∃ m, exec (.updatecell q pos blink) s = .next { s with surf := m, result := .ok } ∧
        (s.cellbuf.read .cellbuf pos = 0 → m = s.surf) ∧
        (∀ r b, r < 8 → b < 2 → ∃ a,
          surfAddr (org.prow + 8 * (pos / 10) + r) (2 * (org.col + s.ctx.fofs.toNat + pos % 10) + b) = some a ∧
          m.read .surf a =
            if s.cellbuf.read .cellbuf pos = 1 then
              outByte (tileByte s.atlas (if blink then s.lrom.hitAltTile else s.lrom.hitTile).toNat r b)
                s.lrom.hitColor s.lrom.markMode false
            else if s.cellbuf.read .cellbuf pos = 2 then
              outByte (tileByte s.atlas s.lrom.missTile.toNat r b) s.lrom.missColor s.lrom.markMode false
            else s.surf.read .surf a) ∧
        ∀ a, (∀ r b, r < 8 → b < 2 →
            surfAddr (org.prow + 8 * (pos / 10) + r) (2 * (org.col + s.ctx.fofs.toNat + pos % 10) + b) ≠ some a) →
          m.read .surf a = s.surf.read .surf a)

/-! ### Surface control (45_surface_control.md) -/

/-- INIT (R186): MODE_REQ is pulsed (the model counts the pulses, log entry 11), INITED set, every SURF byte becomes a
fresh free value, RESULT is OK; nothing else changes but the model's counter of free draws (log entry 18). -/
def Obligations.InitMakesTheSurfaceUnspecified : Prop :=
  ∀ s : State, ∃ m, exec .init s = .next
      { s with
        status := { s.status with inited := true }
        modeReqPulses := s.modeReqPulses + 1
        surf := m
        result := .ok
        fresh := s.fresh + 1 } ∧
    ∀ a, m.read .surf a = Config.freeByte .surf s.fresh a

/-- RSTSURF (R188): NOT_READY before INIT; otherwise every SURF byte becomes 0x00, so every pixel is 0, and only SURF
and RESULT change. -/
def Obligations.RstsurfClearsEveryByte : Prop :=
  ∀ s : State,
    (s.status.inited = false → exec .rstsurf s = .next (raise .notReady (encode .rstsurf) s)) ∧
    (s.status.inited = true → ∃ m, exec .rstsurf s = .next { s with surf := m, result := .ok } ∧
      (∀ a, a < 16000 → m.read .surf a = 0x00#8) ∧
      ∀ row px, row < 200 → px < 320 → pixel m row px = some 0)

/-- A full-Surface FILL makes every SURF byte `rep(c)`, and in the background colour it leaves the same state as RSTSURF
(R126 (g), R189 (d)). -/
def Obligations.RstsurfEqualsFullBackgroundFill : Prop :=
  ∀ s : State, s.status.inited = true →
    (∀ c : Color, ∃ m, exec (.fill 0 0 320 200 c) s = .next { s with surf := m, result := .ok } ∧
      ∀ a, a < 16000 → m.read .surf a = rep c) ∧
    (s.surf.wf .surf = true → exec .rstsurf s = exec (.fill 0 0 320 200 0) s)

/-- RSTSURF's one-step result is its 16000 byte writes in ascending order (R188, R189 (a)). -/
def Obligations.RstsurfIsItsAscendingWrites : Prop :=
  ∀ s t : State, s.status.inited = true → s.surf.wf .surf = true → exec .rstsurf s = .next t →
    applyAccesses clearAccesses s.surf = some t.surf ∧
    clearAccesses.map (fun acc => surfAddr acc.row acc.bcol) = (List.range 16000).map some

/-- WAITVSYNC starts by entering phase 1 with no sample taken; the engine is then busy and nothing else has changed
(R190). -/
def Obligations.WaitvsyncStartsTheWait : Prop :=
  ∀ s : State, exec .waitvsync s = .next { s with wait := some ⟨.assertion, 0⟩ }

/-- WAITVSYNC ends OK after `b + 1` samples, where `a` is the least index of a 1 and `b` the least later index of a 0,
if VSTO is 0 or at least `b + 1`; only RESULT and the inputs taken change (R191). That a sample is one step, so that the
wait takes `b + 1` of them, is the model's choice (log entry 5), and so is where the samples come from (log entry 4). -/
def Obligations.WaitvsyncEndsAfterAssertionAndDeassertion : Prop :=
  ∀ (s : State) (a b : Nat), s.resetIn = [] → s.wait = none →
    (∀ k, k < a → vsyncAhead s k = false) → vsyncAhead s a = true → a < b →
    (∀ k, a < k → k < b → vsyncAhead s k = true) → vsyncAhead s b = false →
    (s.vsto = 0 ∨ b + 1 ≤ s.vsto.toNat) →
      ∃ t, exec .waitvsync s = .next t ∧
        Sys2Proof.core.run (b + 1) t = .next (finishOk (afterSamples (b + 1) s))

/-- A WAITVSYNC with VSTO = N > 0 that sees no 1 followed by a 0 within N samples ends with SYNC_TIMEOUT after them,
and changes nothing but the fault registers and the inputs taken (R192, R204; one sample a step, and one step for the
timeout, log entries 4 and 5). -/
def Obligations.WaitvsyncTimesOut : Prop :=
  ∀ s : State, s.resetIn = [] → s.wait = none → s.vsto ≠ 0 →
    (∀ a b, a < b → b < s.vsto.toNat → vsyncAhead s a = true → vsyncAhead s b = true) →
      ∃ t, exec .waitvsync s = .next t ∧
        Sys2Proof.core.run (s.vsto.toNat + 1) t =
          .next (raise .syncTimeout (encode .waitvsync) (afterSamples s.vsto.toNat s))

/-- A WAITVSYNC with VSTO = 0 goes on waiting for as long as no 1 followed by a 0 has come, however many samples it
takes, and holds the host all the while (R192, 70_reset_and_hazards.md R243; one sample a step, log entries 4 and 5). -/
def Obligations.UnboundedWaitvsyncMayHang : Prop :=
  ∀ (s : State) (k : Nat), s.resetIn = [] → s.wait = none → s.vsto = 0 →
    (∀ a b, a < b → b < k → vsyncAhead s a = true → vsyncAhead s b = true) →
      ∃ t wt, exec .waitvsync s = .next t ∧
        Sys2Proof.core.run k t = .next { afterSamples k s with wait := some wt }

/-- VSYNC is sampled only during a WAITVSYNC (10_state.md R36). -/
def Obligations.VsyncIsSampledOnlyByWaitvsync : Prop :=
  ∀ s t : State, s.wait = none → step s = .next t → t.vsyncIn = s.vsyncIn

/-! ### The host window (10_state.md R22, R28, R40) -/

/-- A running WAITVSYNC holds the host: it makes no access, and no memory, CTX or VSTO changes (R40). -/
def Obligations.WaitHoldsTheHost : Prop :=
  ∀ (s t : State) (wt : Wait), s.wait = some wt → s.resetIn.head? ≠ some true → step s = .next t →
    t.hostActs = s.hostActs ∧ t.surf = s.surf ∧ t.atlas = s.atlas ∧ t.cellbuf = s.cellbuf ∧
    t.namebuf = s.namebuf ∧ t.ctx = s.ctx ∧ t.vsto = s.vsto ∧ t.modeReqPulses = s.modeReqPulses

/-- The memories are plain storage through the window: a byte read after a byte write gives the value written, if it is
the same byte, and what stood there before otherwise; the write changes that one byte and no other, no register and not
the store (20_memory.md R62). The read's data stands in `hostData` (log entry 7). -/
def Obligations.HostBytesReadBack : Prop :=
  ∀ (s : State) (off off' : Nat) (v : Byte) (rest : List HostAction) (sp sp' : Space) (a a' : Nat),
    s.resetIn = [] → s.wait = none → s.hostActs = .write8 off v :: .read8 off' :: rest →
    windowByte off = .mem sp a → windowByte off' = .mem sp' a' →
      ∃ t₁ t, step s = .next t₁ ∧ step t₁ = .next t ∧ t.hostActs = rest ∧
        t.hostData = (if sp = sp' ∧ a = a' then v.setWidth 64 else ((memOf sp' s).read sp' a').setWidth 64) ∧
        t₁.hostData = s.hostData ∧
        ∀ u, u = t₁ ∨ u = t →
          (∀ sp'' a'', (memOf sp'' u).read sp'' a'' =
            if sp'' = sp ∧ a'' = a then v else (memOf sp'' s).read sp'' a'') ∧
          u.status = s.status ∧ u.result = s.result ∧ u.fcode = s.fcode ∧ u.fcmd = s.fcmd ∧ u.ctx = s.ctx ∧
          u.vsto = s.vsto ∧ u.lrom = s.lrom ∧ u.wait = none ∧ u.modeReqPulses = s.modeReqPulses ∧
          u.vsyncIn = s.vsyncIn ∧ u.fresh = s.fresh

/-- The window's map: which offsets are which space, and that the rest is unassigned, where a read is unspecified and a
write ignored (R22). -/
def Obligations.WindowMap : Prop :=
  (∀ a, a < 16000 → windowByte a = .mem .surf a) ∧
  (∀ a, a < 4096 → windowByte (0x4000 + a) = .mem .atlas a) ∧
  (∀ a, a < 100 → windowByte (0x5000 + a) = .mem .cellbuf a) ∧
  (∀ a, a < 16 → windowByte (0x5080 + a) = .mem .namebuf a) ∧
  (∀ a, a < 40 → windowByte (0x5100 + a) = .reg) ∧
  (∀ off, (0x3E80 ≤ off ∧ off < 0x4000) ∨ (0x5064 ≤ off ∧ off < 0x5080) ∨ (0x5090 ≤ off ∧ off < 0x5100) ∨
      0x5128 ≤ off →
    (∀ s, ∃ d, hostAccess (.read8 off) s = .next { s with hostData := d, fresh := s.fresh + 1 }) ∧
    ∀ s v, hostAccess (.write8 off v) s = .next s)

/-- The registers at full width: what each read returns, which writes are ignored, and that VSTO stores (R28, R30 to
R35). A read of CMD, or of CTX while CTXVALID is 0, returns a free value. -/
def Obligations.RegisterAccesses : Prop :=
  ∀ s : State,
    (hostAccess (.read32 0x5108) s = .next (returnToHost
      (BitVec.ofNat 64 (s.status.inited.toNat + 2 * s.status.ctxValid.toNat + 4 * s.status.fault.toNat)) s)) ∧
    (hostAccess (.read32 0x510C) s = .next { s with hostData := BitVec.ofNat 64 s.result.code }) ∧
    (hostAccess (.read32 0x5110) s = .next { s with hostData := BitVec.ofNat 64 s.fcode.code }) ∧
    (s.status.ctxValid = true → hostAccess (.read32 0x5114) s =
      .next { s with hostData := BitVec.ofNat 64 (s.ctx.fofs.toNat + 16 * s.ctx.pcnt.toNat) }) ∧
    (s.status.ctxValid = false → ∃ d : Word32, hostAccess (.read32 0x5114) s =
      .next { s with hostData := d.setWidth 64, fresh := s.fresh + 1 }) ∧
    (hostAccess (.read64 0x5118) s = .next { s with hostData := s.fcmd }) ∧
    (∃ d, hostAccess (.read64 0x5100) s = .next { s with hostData := d, fresh := s.fresh + 1 }) ∧
    (hostAccess (.read32 0x5120) s = .next { s with hostData := s.vsto.setWidth 64 }) ∧
    (∀ v, hostAccess (.write32 0x5120 v) s = .next { s with vsto := v }) ∧
    (∀ off ∈ [0x5108, 0x510C, 0x5110, 0x5114], ∀ v, hostAccess (.write32 off v) s = .next s) ∧
    ∀ w, hostAccess (.write64 0x5118 w) s = .next s

/-- Every host read, of a memory byte or a register, changes nothing but the data it returns and the counter of free
draws (20_memory.md R62). -/
def Obligations.HostReadsHaveNoSideEffect : Prop :=
  ∀ (s t : State) (off : Nat),
    (hostAccess (.read8 off) s = .next t ∨ hostAccess (.read32 off) s = .next t ∨
      hostAccess (.read64 off) s = .next t) →
    t = { s with hostData := t.hostData, fresh := t.fresh }

/-- Whatever the form of the host access: one that covers a byte of REG and is no aligned full-width access to one
register is refused, and so is a 32-bit or 64-bit one that covers a byte of SURF, ATLAS, CELLBUF or NAMEBUF and none of
REG (93_implementation_defined.md U8; log entry 9). -/
def Obligations.UndefinedRegisterAccessIsRefused : Prop :=
  ∀ (s : State) (act : HostAction),
    (act.meetsReg → ¬ act.isRegisterAccess →
      hostAccess act s = .refused (.registerAccessNotDefined act.offset)) ∧
    (1 < act.width → act.meetsMemory → ¬ act.meetsReg →
      hostAccess act s = .refused (.wideMemoryAccess act.offset))

/-! ### The whole machine -/

/-- Confinement: a command always answers a next state, never a stop; it and each turn of a running WAITVSYNC write SURF
and the PPRE's own registers and nothing else, and no byte outside SURF's 16000 (20_memory.md R68). That every command
answers is the model's inference (log entry 14), for WAITVSYNC by starting its wait (log entry 5); the fields of the
coming inputs and of the host's data are the model's own (log entries 1, 4, 7, 10). -/
def Obligations.EngineWritesOnlyTheSurface : Prop :=
  (∀ (i : Instr) (s : State), ∃ t, exec i s = .next t ∧
    t.atlas = s.atlas ∧ t.cellbuf = s.cellbuf ∧ t.namebuf = s.namebuf ∧ t.lrom = s.lrom ∧ t.vsto = s.vsto ∧
    t.hostActs = s.hostActs ∧ t.hostData = s.hostData ∧ t.vsyncIn = s.vsyncIn ∧ t.resetIn = s.resetIn ∧
    (i ≠ .init → t.modeReqPulses = s.modeReqPulses) ∧
    (s.surf.wf .surf = true → t.surf.wf .surf = true)) ∧
  ∀ (wt : Wait) (s : State), (waitStep wt s).surf = s.surf ∧ (waitStep wt s).atlas = s.atlas ∧
    (waitStep wt s).cellbuf = s.cellbuf ∧ (waitStep wt s).namebuf = s.namebuf ∧ (waitStep wt s).lrom = s.lrom

/-- No step faults, and a refused step is the host's next access, one without a definition: for
`registerAccessNotDefined` it covers a byte of REG and is no full-width access to one register, for `wideMemoryAccess` it
is 32 or 64 bits wide and covers a byte of a memory and none of REG (20_memory.md R68, 93_implementation_defined.md U8;
log entries 9 and 14). -/
def Obligations.StepStopsOnlyAtUndefinedHostAccess : Prop :=
  (∀ (s : State) (f : Fault), step s ≠ .fault f) ∧
  (∀ (s : State) (r : Refusal), step s = .refused r →
    s.resetIn.head? ≠ some true ∧ s.wait = none ∧ ∃ act rest, s.hostActs = act :: rest ∧ act.refusedAs r)

/-- The layout store never changes, at reset neither (10_state.md R27). -/
def Obligations.LayoutStoreNeverChanges : Prop :=
  ∀ s t : State, step s = .next t → t.lrom = s.lrom

/-- CTX is written only by DRAWBOARD: if a step without reset changes it, that step executed a DRAWBOARD of 1 to 4
players (10_state.md R31). -/
def Obligations.CtxIsWrittenOnlyByDrawboard : Prop :=
  ∀ s t : State, s.resetIn.head? ≠ some true → step s = .next t → t.ctx ≠ s.ctx →
    ∃ n rest, 1 ≤ n ∧ n ≤ 4 ∧ CommandIssued s (encode (.drawboard n)) rest ∧ t.result = .ok

/-- The invariant holds right after reset. -/
def Obligations.InvHoldsAtReset : Prop := State.reset.Inv

/-- Every step keeps the invariant, from every state that has it: memories in canonical form and inside their spaces, a
legal context, a consistent fault record, a bounded wait (10_state.md R22 to R38, 60_exceptions.md R206). -/
def Obligations.EveryStepKeepsInv : Prop :=
  ∀ s t : State, s.Inv → step s = .next t → t.Inv

/-- The order of R66 and what it leads to. In order, BLIT and BLITC write the tile's rows 0 to 7, in each the left byte,
then the right; FILL the rows downward, in each the start byte, the middle bytes ascending, then the end byte; the other
drawing commands do that for each of their primitives in list order (RSTSURF: RstsurfIsItsAscendingWrites). A command's
accesses, performed one by one, lead to its final Surface, each prefix of them can be performed and is what the scan-out
may see (the scan-out is stated beside the step, log entry 12), and a command that faults has none (20_memory.md R66,
R70, 60_exceptions.md R205). INIT's Surface change is not the engine's (45_surface_control.md R187 (b)). -/
def Obligations.AccessSequenceEndsInTheFinalSurface : Prop :=
  (∀ (i : Instr) (s t : State), i ≠ .init → s.surf.wf .surf = true → exec i s = .next t →
    applyAccesses (accessesOf i s) s.surf = some t.surf ∧ ScanOutMaySee i s t.surf ∧ ScanOutMaySee i s s.surf ∧
    (∀ k, ∃ m, applyAccesses ((accessesOf i s).take k) s.surf = some m ∧ ScanOutMaySee i s m) ∧
    (t.result ≠ .ok → i ≠ .waitvsync → accessesOf i s = [])) ∧
  (∀ (tile x y : Nat) (color : Color) (mode : MaskMode) (inverse : Bool) (s : State),
    s.status.inited = true → tile ≤ 255 → x ≤ 39 → y ≤ 24 →
      places (accessesOf (.blit tile x y color mode) s) = tilePlaces x (8 * y) ∧
      places (accessesOf (.blitc tile x y color mode inverse) s) = tilePlaces x (8 * y)) ∧
  (∀ (x y w h : Nat) (color : Color) (s : State),
    s.status.inited = true → x ≤ 319 → y ≤ 199 → x + w ≤ 320 → y + h ≤ 200 →
      places (accessesOf (.fill x y w h color) s) = rectPlaces x y w h) ∧
  (∀ (s : State) (ps : List Prim), s.status.inited = true →
    (∀ n, 1 ≤ n → n ≤ 4 → boardPrims s.lrom n = ps.map some →
      places (accessesOf (.drawboard n) s) = ps.flatMap Prim.places) ∧
    (s.status.ctxValid = true → ∀ q, q < s.ctx.pcnt.toNat →
      (∀ len active, len ≤ s.lrom.nameMax → s.lrom.nameMax ≤ 16 →
        (∀ k, k < len → (s.namebuf.read .namebuf k).toNat < 0x80) →
        drawnamePrims q len active s = ps.map some →
        places (accessesOf (.drawname q len active) s) = ps.flatMap Prim.places) ∧
      ((∀ p, p < 100 → (s.cellbuf.read .cellbuf p).toNat ≤ 2) →
        (List.range 100).flatMap (cellPrims q false s) = ps.map some →
        places (accessesOf (.renderfield q) s) = ps.flatMap Prim.places) ∧
      (∀ pos blink, pos ≤ 99 → (s.cellbuf.read .cellbuf pos).toNat ≤ 2 →
        cellPrims q blink s pos = ps.map some →
        places (accessesOf (.updatecell q pos blink) s) = ps.flatMap Prim.places)))
end

