-- ==== Sys2Proof/Laws/Memory.lean ====
section
/-! SUPPORT. The laws of the byte memories: a read after a write, the canonical form, and equality of equal memories. -/

namespace Sys2Proof.Machine

open Sys2Proof

/-! ### Cells -/

theorem lookup_write_same (l : List Host.Cell) (a : Nat) (v : Byte) :
    lookupCells (writeCells l a v) a = some v := by
  induction l with
  | nil => simp [writeCells, lookupCells]
  | cons c rest ih =>
    obtain ⟨b, u⟩ := c
    simp only [writeCells]
    split_ifs with h₁ h₂
    · simp [lookupCells]
    · simp [lookupCells]
    · simp [lookupCells, h₂, ih]

theorem lookup_write_other (l : List Host.Cell) {a c : Nat} (v : Byte) (h : c ≠ a) :
    lookupCells (writeCells l a v) c = lookupCells l c := by
  induction l with
  | nil => simp [writeCells, lookupCells, h]
  | cons d rest ih =>
    obtain ⟨b, u⟩ := d
    simp only [writeCells]
    split_ifs with h₁ h₂
    · simp [lookupCells, h]
    · subst h₂; simp [lookupCells, h]
    · simp [lookupCells, ih]

/-- Below the first address nothing is listed. -/
theorem lookup_below {bound : Nat} {l : List Host.Cell} (hl : cellsRise bound l = true) {a : Nat}
    (h : ∀ c ∈ l.head?, a < c.1) : lookupCells l a = none := by
  induction l with
  | nil => rfl
  | cons c rest ih =>
    obtain ⟨b, u⟩ := c
    have hb : a < b := h _ rfl
    have ne : a ≠ b := by omega
    simp only [lookupCells, ne, if_false]
    cases rest with
    | nil => rfl
    | cons d rest' =>
      simp only [cellsRise, Bool.and_eq_true, decide_eq_true_eq] at hl
      exact ih hl.2 (by rintro _ ⟨⟩; omega)

theorem cellsRise_tail {bound : Nat} {c : Host.Cell} {l : List Host.Cell}
    (h : cellsRise bound (c :: l) = true) : cellsRise bound l = true := by
  cases l with
  | nil => rfl
  | cons d rest => simp only [cellsRise, Bool.and_eq_true] at h; exact h.2

theorem cellsRise_head_lt {bound : Nat} {c : Host.Cell} {l : List Host.Cell}
    (h : cellsRise bound (c :: l) = true) : c.1 < bound := by
  induction l generalizing c with
  | nil => simpa [cellsRise] using h
  | cons d rest ih =>
    simp only [cellsRise, Bool.and_eq_true, decide_eq_true_eq] at h
    exact lt_trans h.1 (ih h.2)

/-- A cell may stand before a rising list whose first address is above its own. -/
theorem cellsRise_cons {bound : Nat} {c : Host.Cell} {l : List Host.Cell} (hl : cellsRise bound l = true)
    (hc : c.1 < bound) (h : ∀ d ∈ l.head?, c.1 < d.1) : cellsRise bound (c :: l) = true := by
  cases l with
  | nil => simpa [cellsRise] using hc
  | cons d rest => simpa [cellsRise, hl] using h d rfl

theorem writeCells_head {l : List Host.Cell} {a : Nat} {v : Byte} {n : Nat} (ha : n < a)
    (h : ∀ d ∈ l.head?, n < d.1) : ∀ d ∈ (writeCells l a v).head?, n < d.1 := by
  cases l with
  | nil => rintro _ ⟨⟩; exact ha
  | cons c rest =>
    obtain ⟨b, u⟩ := c
    have hb : n < b := h _ rfl
    intro d hd
    simp only [writeCells] at hd
    split_ifs at hd <;> (obtain rfl : _ = d := by simpa using hd) <;> assumption

/-- A write inside the space keeps the canonical form. -/
theorem cellsRise_write {bound : Nat} {l : List Host.Cell} (hl : cellsRise bound l = true) {a : Nat} (v : Byte)
    (ha : a < bound) : cellsRise bound (writeCells l a v) = true := by
  induction l with
  | nil => simpa [writeCells, cellsRise] using ha
  | cons c rest ih =>
    obtain ⟨b, u⟩ := c
    have hrest := cellsRise_tail hl
    have hhead : ∀ d ∈ rest.head?, b < d.1 := by
      cases rest with
      | nil => simp
      | cons d rest' =>
        simp only [cellsRise, Bool.and_eq_true, decide_eq_true_eq] at hl
        rintro _ ⟨⟩; exact hl.1
    simp only [writeCells]
    split_ifs with h₁ h₂
    · exact cellsRise_cons hl ha (by rintro _ ⟨⟩; exact h₁)
    · subst h₂; exact cellsRise_cons hrest ha hhead
    · exact cellsRise_cons (ih hrest) (cellsRise_head_lt hl) (writeCells_head (by omega) hhead)

/-- Rising lists that list the same bytes are the same list. -/
theorem cells_ext {bound : Nat} {l l' : List Host.Cell} (hl : cellsRise bound l = true)
    (hl' : cellsRise bound l' = true) (h : ∀ a, lookupCells l a = lookupCells l' a) : l = l' := by
  induction l generalizing l' with
  | nil =>
    cases l' with
    | nil => rfl
    | cons c rest => simpa [lookupCells] using h c.1
  | cons c rest ih =>
    obtain ⟨b, u⟩ := c
    cases l' with
    | nil => simpa [lookupCells] using h b
    | cons d rest' =>
      obtain ⟨e, w⟩ := d
      have below : ∀ {r : List Host.Cell} {x : Nat} {y : Byte}, cellsRise bound ((x, y) :: r) = true →
          ∀ z ∈ r.head?, x < z.1 := by
        intro r x y hr
        cases r with
        | nil => simp
        | cons z r' =>
          simp only [cellsRise, Bool.and_eq_true, decide_eq_true_eq] at hr
          rintro _ ⟨⟩; exact hr.1
      have hbe : b = e := by
        by_contra ne
        rcases Nat.lt_or_gt_of_ne ne with lt | gt
        · have h₁ := h b
          rw [lookup_below hl' (by rintro _ ⟨⟩; exact lt)] at h₁
          simp [lookupCells] at h₁
        · have h₁ := h e
          rw [lookup_below hl (by rintro _ ⟨⟩; exact gt)] at h₁
          simp [lookupCells] at h₁
      subst hbe
      have huw : u = w := by simpa [lookupCells] using h b
      subst huw
      have hrest : rest = rest' := by
        refine ih (cellsRise_tail hl) (cellsRise_tail hl') fun a => ?_
        by_cases hab : a = b
        · subst hab
          rw [lookup_below (cellsRise_tail hl) (below hl), lookup_below (cellsRise_tail hl') (below hl')]
        · simpa [lookupCells, hab] using h a
      rw [hrest]

theorem lookup_zeroCells (a n c : Nat) :
    lookupCells (zeroCells a n) c = if a ≤ c ∧ c < a + n then some 0x00#8 else none := by
  induction n generalizing a with
  | zero => simp [zeroCells, lookupCells]
  | succ n ih =>
    simp only [zeroCells, lookupCells, ih]
    split_ifs <;> first | rfl | omega

theorem cellsRise_zeroCells {bound a n : Nat} (h : a + n ≤ bound) : cellsRise bound (zeroCells a n) = true := by
  induction n generalizing a with
  | zero => rfl
  | succ n ih =>
    refine cellsRise_cons (ih (by omega)) (by simp; omega) ?_
    cases n with
    | zero => simp [zeroCells]
    | succ n => rintro _ ⟨⟩; simp

/-! ### Memories -/

@[simp] theorem Mem.write_stamp (m : Mem) (a : Nat) (v : Byte) : (m.write a v).stamp = m.stamp := rfl

/-- A byte reads back the last value written to it (20_memory.md R62). -/
@[simp] theorem Mem.read_write_same (sp : Space) (m : Mem) (a : Nat) (v : Byte) :
    (m.write a v).read sp a = v := by
  simp [Mem.read, Mem.write, lookup_write_same]

/-- A write leaves every other byte alone. -/
theorem Mem.read_write_other (sp : Space) (m : Mem) {a c : Nat} (v : Byte) (h : c ≠ a) :
    (m.write a v).read sp c = m.read sp c := by
  simp [Mem.read, Mem.write, lookup_write_other _ v h]

/-- Every byte after a write, in one equation. -/
theorem Mem.read_write (sp : Space) (m : Mem) (a c : Nat) (v : Byte) :
    (m.write a v).read sp c = if c = a then v else m.read sp c := by
  split_ifs with h
  · subst h; simp
  · exact Mem.read_write_other sp m v h

/-- A write inside the space keeps the canonical form. -/
theorem Mem.wf_write {sp : Space} {m : Mem} (h : m.wf sp = true) {a : Nat} (v : Byte) (ha : a < sp.size) :
    (m.write a v).wf sp = true :=
  cellsRise_write h v ha

/-- An unspecified memory is in canonical form. -/
theorem Mem.wf_unspecified (sp : Space) (k : Nat) : (Mem.unspecified k).wf sp = true := rfl

/-- Every byte of an unspecified memory is a free value. -/
theorem Mem.read_unspecified (sp : Space) (k a : Nat) :
    (Mem.unspecified k).read sp a = Config.freeByte sp k a := rfl

/-- A cleared Surface is in canonical form. -/
theorem Mem.wf_cleared (m : Mem) : m.cleared.wf .surf = true :=
  cellsRise_zeroCells (by simp [Space.size])

/-- Two memories in canonical form with the same stamp and the same listed bytes are equal data. -/
theorem Mem.ext_of_lookup {sp : Space} {m m' : Mem} (h : m.wf sp = true) (h' : m'.wf sp = true)
    (hs : m.stamp = m'.stamp) (hl : ∀ a, lookupCells m.cells a = lookupCells m'.cells a) : m = m' := by
  cases m; cases m'
  simp_all only [Mem.mk.injEq, true_and]
  exact cells_ext h h' hl

/-- The memories right after reset are in canonical form. -/
theorem reset_memories_wf (sp : Space) : (memOf sp State.reset).wf sp = true := by cases sp <;> rfl

end Sys2Proof.Machine
end

