-- ==== Sys2Proof/Laws/State.lean ====
section
/-! SUPPORT. One lemma per field for each update of the state, so that no later proof unfolds a record update. -/

namespace Sys2Proof.Machine

open Sys2Proof

/-! ### The command ends OK -/

@[simp] theorem finishOk_status (s : State) : (finishOk s).status = s.status := rfl
@[simp] theorem finishOk_result (s : State) : (finishOk s).result = .ok := rfl
@[simp] theorem finishOk_fcode (s : State) : (finishOk s).fcode = s.fcode := rfl
@[simp] theorem finishOk_fcmd (s : State) : (finishOk s).fcmd = s.fcmd := rfl
@[simp] theorem finishOk_ctx (s : State) : (finishOk s).ctx = s.ctx := rfl
@[simp] theorem finishOk_vsto (s : State) : (finishOk s).vsto = s.vsto := rfl
@[simp] theorem finishOk_surf (s : State) : (finishOk s).surf = s.surf := rfl
@[simp] theorem finishOk_atlas (s : State) : (finishOk s).atlas = s.atlas := rfl
@[simp] theorem finishOk_cellbuf (s : State) : (finishOk s).cellbuf = s.cellbuf := rfl
@[simp] theorem finishOk_namebuf (s : State) : (finishOk s).namebuf = s.namebuf := rfl
@[simp] theorem finishOk_lrom (s : State) : (finishOk s).lrom = s.lrom := rfl
@[simp] theorem finishOk_wait (s : State) : (finishOk s).wait = s.wait := rfl
@[simp] theorem finishOk_modeReqPulses (s : State) : (finishOk s).modeReqPulses = s.modeReqPulses := rfl
@[simp] theorem finishOk_vsyncIn (s : State) : (finishOk s).vsyncIn = s.vsyncIn := rfl
@[simp] theorem finishOk_resetIn (s : State) : (finishOk s).resetIn = s.resetIn := rfl
@[simp] theorem finishOk_hostActs (s : State) : (finishOk s).hostActs = s.hostActs := rfl
@[simp] theorem finishOk_hostData (s : State) : (finishOk s).hostData = s.hostData := rfl
@[simp] theorem finishOk_fresh (s : State) : (finishOk s).fresh = s.fresh := rfl

/-! ### The fault sequence: RESULT always, the fault record for the first fault only -/

@[simp] theorem raise_status (c : ResultCode) (w : CmdWord) (s : State) :
    (raise c w s).status = { s.status with fault := true } := by
  unfold raise
  split
  · next h => rcases hs : s.status with ⟨a, b, d⟩; simp_all
  · rfl
@[simp] theorem raise_result (c : ResultCode) (w : CmdWord) (s : State) :
    (raise c w s).result = c := by
  unfold raise; split <;> rfl
@[simp] theorem raise_fcode (c : ResultCode) (w : CmdWord) (s : State) :
    (raise c w s).fcode = if s.status.fault then s.fcode else c := by
  unfold raise; split <;> rfl
@[simp] theorem raise_fcmd (c : ResultCode) (w : CmdWord) (s : State) :
    (raise c w s).fcmd = if s.status.fault then s.fcmd else w := by
  unfold raise; split <;> rfl
@[simp] theorem raise_ctx (c : ResultCode) (w : CmdWord) (s : State) :
    (raise c w s).ctx = s.ctx := by
  unfold raise; split <;> rfl
@[simp] theorem raise_vsto (c : ResultCode) (w : CmdWord) (s : State) :
    (raise c w s).vsto = s.vsto := by
  unfold raise; split <;> rfl
@[simp] theorem raise_surf (c : ResultCode) (w : CmdWord) (s : State) :
    (raise c w s).surf = s.surf := by
  unfold raise; split <;> rfl
@[simp] theorem raise_atlas (c : ResultCode) (w : CmdWord) (s : State) :
    (raise c w s).atlas = s.atlas := by
  unfold raise; split <;> rfl
@[simp] theorem raise_cellbuf (c : ResultCode) (w : CmdWord) (s : State) :
    (raise c w s).cellbuf = s.cellbuf := by
  unfold raise; split <;> rfl
@[simp] theorem raise_namebuf (c : ResultCode) (w : CmdWord) (s : State) :
    (raise c w s).namebuf = s.namebuf := by
  unfold raise; split <;> rfl
@[simp] theorem raise_lrom (c : ResultCode) (w : CmdWord) (s : State) :
    (raise c w s).lrom = s.lrom := by
  unfold raise; split <;> rfl
@[simp] theorem raise_wait (c : ResultCode) (w : CmdWord) (s : State) :
    (raise c w s).wait = s.wait := by
  unfold raise; split <;> rfl
@[simp] theorem raise_modeReqPulses (c : ResultCode) (w : CmdWord) (s : State) :
    (raise c w s).modeReqPulses = s.modeReqPulses := by
  unfold raise; split <;> rfl
@[simp] theorem raise_vsyncIn (c : ResultCode) (w : CmdWord) (s : State) :
    (raise c w s).vsyncIn = s.vsyncIn := by
  unfold raise; split <;> rfl
@[simp] theorem raise_resetIn (c : ResultCode) (w : CmdWord) (s : State) :
    (raise c w s).resetIn = s.resetIn := by
  unfold raise; split <;> rfl
@[simp] theorem raise_hostActs (c : ResultCode) (w : CmdWord) (s : State) :
    (raise c w s).hostActs = s.hostActs := by
  unfold raise; split <;> rfl
@[simp] theorem raise_hostData (c : ResultCode) (w : CmdWord) (s : State) :
    (raise c w s).hostData = s.hostData := by
  unfold raise; split <;> rfl
@[simp] theorem raise_fresh (c : ResultCode) (w : CmdWord) (s : State) :
    (raise c w s).fresh = s.fresh := by
  unfold raise; split <;> rfl

/-! ### INITED is set -/

@[simp] theorem setInited_status (s : State) : (setInited s).status = { s.status with inited := true } := rfl
@[simp] theorem setInited_result (s : State) : (setInited s).result = s.result := rfl
@[simp] theorem setInited_fcode (s : State) : (setInited s).fcode = s.fcode := rfl
@[simp] theorem setInited_fcmd (s : State) : (setInited s).fcmd = s.fcmd := rfl
@[simp] theorem setInited_ctx (s : State) : (setInited s).ctx = s.ctx := rfl
@[simp] theorem setInited_vsto (s : State) : (setInited s).vsto = s.vsto := rfl
@[simp] theorem setInited_surf (s : State) : (setInited s).surf = s.surf := rfl
@[simp] theorem setInited_atlas (s : State) : (setInited s).atlas = s.atlas := rfl
@[simp] theorem setInited_cellbuf (s : State) : (setInited s).cellbuf = s.cellbuf := rfl
@[simp] theorem setInited_namebuf (s : State) : (setInited s).namebuf = s.namebuf := rfl
@[simp] theorem setInited_lrom (s : State) : (setInited s).lrom = s.lrom := rfl
@[simp] theorem setInited_wait (s : State) : (setInited s).wait = s.wait := rfl
@[simp] theorem setInited_modeReqPulses (s : State) : (setInited s).modeReqPulses = s.modeReqPulses := rfl
@[simp] theorem setInited_vsyncIn (s : State) : (setInited s).vsyncIn = s.vsyncIn := rfl
@[simp] theorem setInited_resetIn (s : State) : (setInited s).resetIn = s.resetIn := rfl
@[simp] theorem setInited_hostActs (s : State) : (setInited s).hostActs = s.hostActs := rfl
@[simp] theorem setInited_hostData (s : State) : (setInited s).hostData = s.hostData := rfl
@[simp] theorem setInited_fresh (s : State) : (setInited s).fresh = s.fresh := rfl

/-! ### CTX is written -/

@[simp] theorem setContext_status (f : BitVec 4) (n : Nat) (s : State) : (setContext f n s).status = { s.status with ctxValid := true } := rfl
@[simp] theorem setContext_result (f : BitVec 4) (n : Nat) (s : State) : (setContext f n s).result = s.result := rfl
@[simp] theorem setContext_fcode (f : BitVec 4) (n : Nat) (s : State) : (setContext f n s).fcode = s.fcode := rfl
@[simp] theorem setContext_fcmd (f : BitVec 4) (n : Nat) (s : State) : (setContext f n s).fcmd = s.fcmd := rfl
@[simp] theorem setContext_ctx (f : BitVec 4) (n : Nat) (s : State) : (setContext f n s).ctx = ⟨f, BitVec.ofNat 3 n⟩ := rfl
@[simp] theorem setContext_vsto (f : BitVec 4) (n : Nat) (s : State) : (setContext f n s).vsto = s.vsto := rfl
@[simp] theorem setContext_surf (f : BitVec 4) (n : Nat) (s : State) : (setContext f n s).surf = s.surf := rfl
@[simp] theorem setContext_atlas (f : BitVec 4) (n : Nat) (s : State) : (setContext f n s).atlas = s.atlas := rfl
@[simp] theorem setContext_cellbuf (f : BitVec 4) (n : Nat) (s : State) : (setContext f n s).cellbuf = s.cellbuf := rfl
@[simp] theorem setContext_namebuf (f : BitVec 4) (n : Nat) (s : State) : (setContext f n s).namebuf = s.namebuf := rfl
@[simp] theorem setContext_lrom (f : BitVec 4) (n : Nat) (s : State) : (setContext f n s).lrom = s.lrom := rfl
@[simp] theorem setContext_wait (f : BitVec 4) (n : Nat) (s : State) : (setContext f n s).wait = s.wait := rfl
@[simp] theorem setContext_modeReqPulses (f : BitVec 4) (n : Nat) (s : State) : (setContext f n s).modeReqPulses = s.modeReqPulses := rfl
@[simp] theorem setContext_vsyncIn (f : BitVec 4) (n : Nat) (s : State) : (setContext f n s).vsyncIn = s.vsyncIn := rfl
@[simp] theorem setContext_resetIn (f : BitVec 4) (n : Nat) (s : State) : (setContext f n s).resetIn = s.resetIn := rfl
@[simp] theorem setContext_hostActs (f : BitVec 4) (n : Nat) (s : State) : (setContext f n s).hostActs = s.hostActs := rfl
@[simp] theorem setContext_hostData (f : BitVec 4) (n : Nat) (s : State) : (setContext f n s).hostData = s.hostData := rfl
@[simp] theorem setContext_fresh (f : BitVec 4) (n : Nat) (s : State) : (setContext f n s).fresh = s.fresh := rfl

/-! ### A host read -/

@[simp] theorem returnToHost_status (v : BitVec 64) (s : State) : (returnToHost v s).status = s.status := rfl
@[simp] theorem returnToHost_result (v : BitVec 64) (s : State) : (returnToHost v s).result = s.result := rfl
@[simp] theorem returnToHost_fcode (v : BitVec 64) (s : State) : (returnToHost v s).fcode = s.fcode := rfl
@[simp] theorem returnToHost_fcmd (v : BitVec 64) (s : State) : (returnToHost v s).fcmd = s.fcmd := rfl
@[simp] theorem returnToHost_ctx (v : BitVec 64) (s : State) : (returnToHost v s).ctx = s.ctx := rfl
@[simp] theorem returnToHost_vsto (v : BitVec 64) (s : State) : (returnToHost v s).vsto = s.vsto := rfl
@[simp] theorem returnToHost_surf (v : BitVec 64) (s : State) : (returnToHost v s).surf = s.surf := rfl
@[simp] theorem returnToHost_atlas (v : BitVec 64) (s : State) : (returnToHost v s).atlas = s.atlas := rfl
@[simp] theorem returnToHost_cellbuf (v : BitVec 64) (s : State) : (returnToHost v s).cellbuf = s.cellbuf := rfl
@[simp] theorem returnToHost_namebuf (v : BitVec 64) (s : State) : (returnToHost v s).namebuf = s.namebuf := rfl
@[simp] theorem returnToHost_lrom (v : BitVec 64) (s : State) : (returnToHost v s).lrom = s.lrom := rfl
@[simp] theorem returnToHost_wait (v : BitVec 64) (s : State) : (returnToHost v s).wait = s.wait := rfl
@[simp] theorem returnToHost_modeReqPulses (v : BitVec 64) (s : State) : (returnToHost v s).modeReqPulses = s.modeReqPulses := rfl
@[simp] theorem returnToHost_vsyncIn (v : BitVec 64) (s : State) : (returnToHost v s).vsyncIn = s.vsyncIn := rfl
@[simp] theorem returnToHost_resetIn (v : BitVec 64) (s : State) : (returnToHost v s).resetIn = s.resetIn := rfl
@[simp] theorem returnToHost_hostActs (v : BitVec 64) (s : State) : (returnToHost v s).hostActs = s.hostActs := rfl
@[simp] theorem returnToHost_hostData (v : BitVec 64) (s : State) : (returnToHost v s).hostData = v := rfl
@[simp] theorem returnToHost_fresh (v : BitVec 64) (s : State) : (returnToHost v s).fresh = s.fresh := rfl

/-! ### A host read of no defined value -/

@[simp] theorem returnUnspecified_status (k : Nat) (s : State) : (returnUnspecified k s).status = s.status := rfl
@[simp] theorem returnUnspecified_result (k : Nat) (s : State) : (returnUnspecified k s).result = s.result := rfl
@[simp] theorem returnUnspecified_fcode (k : Nat) (s : State) : (returnUnspecified k s).fcode = s.fcode := rfl
@[simp] theorem returnUnspecified_fcmd (k : Nat) (s : State) : (returnUnspecified k s).fcmd = s.fcmd := rfl
@[simp] theorem returnUnspecified_ctx (k : Nat) (s : State) : (returnUnspecified k s).ctx = s.ctx := rfl
@[simp] theorem returnUnspecified_vsto (k : Nat) (s : State) : (returnUnspecified k s).vsto = s.vsto := rfl
@[simp] theorem returnUnspecified_surf (k : Nat) (s : State) : (returnUnspecified k s).surf = s.surf := rfl
@[simp] theorem returnUnspecified_atlas (k : Nat) (s : State) : (returnUnspecified k s).atlas = s.atlas := rfl
@[simp] theorem returnUnspecified_cellbuf (k : Nat) (s : State) : (returnUnspecified k s).cellbuf = s.cellbuf := rfl
@[simp] theorem returnUnspecified_namebuf (k : Nat) (s : State) : (returnUnspecified k s).namebuf = s.namebuf := rfl
@[simp] theorem returnUnspecified_lrom (k : Nat) (s : State) : (returnUnspecified k s).lrom = s.lrom := rfl
@[simp] theorem returnUnspecified_wait (k : Nat) (s : State) : (returnUnspecified k s).wait = s.wait := rfl
@[simp] theorem returnUnspecified_modeReqPulses (k : Nat) (s : State) : (returnUnspecified k s).modeReqPulses = s.modeReqPulses := rfl
@[simp] theorem returnUnspecified_vsyncIn (k : Nat) (s : State) : (returnUnspecified k s).vsyncIn = s.vsyncIn := rfl
@[simp] theorem returnUnspecified_resetIn (k : Nat) (s : State) : (returnUnspecified k s).resetIn = s.resetIn := rfl
@[simp] theorem returnUnspecified_hostActs (k : Nat) (s : State) : (returnUnspecified k s).hostActs = s.hostActs := rfl
@[simp] theorem returnUnspecified_hostData (k : Nat) (s : State) : (returnUnspecified k s).hostData = ((Config.freeRead s.fresh).setWidth k).setWidth 64 := rfl
@[simp] theorem returnUnspecified_fresh (k : Nat) (s : State) : (returnUnspecified k s).fresh = s.fresh + 1 := rfl

/-! ### Reset -/

@[simp] theorem applyReset_status (s : State) : (applyReset s).status = State.reset.status := rfl
@[simp] theorem applyReset_result (s : State) : (applyReset s).result = State.reset.result := rfl
@[simp] theorem applyReset_fcode (s : State) : (applyReset s).fcode = State.reset.fcode := rfl
@[simp] theorem applyReset_fcmd (s : State) : (applyReset s).fcmd = State.reset.fcmd := rfl
@[simp] theorem applyReset_ctx (s : State) : (applyReset s).ctx = State.reset.ctx := rfl
@[simp] theorem applyReset_vsto (s : State) : (applyReset s).vsto = State.reset.vsto := rfl
@[simp] theorem applyReset_surf (s : State) : (applyReset s).surf = Mem.unspecified s.fresh := rfl
@[simp] theorem applyReset_atlas (s : State) : (applyReset s).atlas = Mem.unspecified s.fresh := rfl
@[simp] theorem applyReset_cellbuf (s : State) : (applyReset s).cellbuf = Mem.unspecified s.fresh := rfl
@[simp] theorem applyReset_namebuf (s : State) : (applyReset s).namebuf = Mem.unspecified s.fresh := rfl
@[simp] theorem applyReset_lrom (s : State) : (applyReset s).lrom = s.lrom := rfl
@[simp] theorem applyReset_wait (s : State) : (applyReset s).wait = State.reset.wait := rfl
@[simp] theorem applyReset_modeReqPulses (s : State) : (applyReset s).modeReqPulses = State.reset.modeReqPulses := rfl
@[simp] theorem applyReset_vsyncIn (s : State) : (applyReset s).vsyncIn = s.vsyncIn := rfl
@[simp] theorem applyReset_resetIn (s : State) : (applyReset s).resetIn = s.resetIn := rfl
@[simp] theorem applyReset_hostActs (s : State) : (applyReset s).hostActs = s.hostActs := rfl
@[simp] theorem applyReset_hostData (s : State) : (applyReset s).hostData = s.hostData := rfl
@[simp] theorem applyReset_fresh (s : State) : (applyReset s).fresh = s.fresh + 1 := rfl

/-! ### The issue of a command -/

@[simp] theorem afterIssue_status (s : State) (rest : List HostAction) : (afterIssue s rest).status = s.status := rfl
@[simp] theorem afterIssue_result (s : State) (rest : List HostAction) : (afterIssue s rest).result = s.result := rfl
@[simp] theorem afterIssue_fcode (s : State) (rest : List HostAction) : (afterIssue s rest).fcode = s.fcode := rfl
@[simp] theorem afterIssue_fcmd (s : State) (rest : List HostAction) : (afterIssue s rest).fcmd = s.fcmd := rfl
@[simp] theorem afterIssue_ctx (s : State) (rest : List HostAction) : (afterIssue s rest).ctx = s.ctx := rfl
@[simp] theorem afterIssue_vsto (s : State) (rest : List HostAction) : (afterIssue s rest).vsto = s.vsto := rfl
@[simp] theorem afterIssue_surf (s : State) (rest : List HostAction) : (afterIssue s rest).surf = s.surf := rfl
@[simp] theorem afterIssue_atlas (s : State) (rest : List HostAction) : (afterIssue s rest).atlas = s.atlas := rfl
@[simp] theorem afterIssue_cellbuf (s : State) (rest : List HostAction) : (afterIssue s rest).cellbuf = s.cellbuf := rfl
@[simp] theorem afterIssue_namebuf (s : State) (rest : List HostAction) : (afterIssue s rest).namebuf = s.namebuf := rfl
@[simp] theorem afterIssue_lrom (s : State) (rest : List HostAction) : (afterIssue s rest).lrom = s.lrom := rfl
@[simp] theorem afterIssue_wait (s : State) (rest : List HostAction) : (afterIssue s rest).wait = s.wait := rfl
@[simp] theorem afterIssue_modeReqPulses (s : State) (rest : List HostAction) : (afterIssue s rest).modeReqPulses = s.modeReqPulses := rfl
@[simp] theorem afterIssue_vsyncIn (s : State) (rest : List HostAction) : (afterIssue s rest).vsyncIn = s.vsyncIn := rfl
@[simp] theorem afterIssue_resetIn (s : State) (rest : List HostAction) : (afterIssue s rest).resetIn = s.resetIn.tail := rfl
@[simp] theorem afterIssue_hostActs (s : State) (rest : List HostAction) : (afterIssue s rest).hostActs = rest := rfl
@[simp] theorem afterIssue_hostData (s : State) (rest : List HostAction) : (afterIssue s rest).hostData = s.hostData := rfl
@[simp] theorem afterIssue_fresh (s : State) (rest : List HostAction) : (afterIssue s rest).fresh = s.fresh := rfl

/-! ### The placing of a command -/

@[simp] theorem placeCommand_status (w : CmdWord) (s : State) : (placeCommand w s).status = s.status := rfl
@[simp] theorem placeCommand_result (w : CmdWord) (s : State) : (placeCommand w s).result = s.result := rfl
@[simp] theorem placeCommand_fcode (w : CmdWord) (s : State) : (placeCommand w s).fcode = s.fcode := rfl
@[simp] theorem placeCommand_fcmd (w : CmdWord) (s : State) : (placeCommand w s).fcmd = s.fcmd := rfl
@[simp] theorem placeCommand_ctx (w : CmdWord) (s : State) : (placeCommand w s).ctx = s.ctx := rfl
@[simp] theorem placeCommand_vsto (w : CmdWord) (s : State) : (placeCommand w s).vsto = s.vsto := rfl
@[simp] theorem placeCommand_surf (w : CmdWord) (s : State) : (placeCommand w s).surf = s.surf := rfl
@[simp] theorem placeCommand_atlas (w : CmdWord) (s : State) : (placeCommand w s).atlas = s.atlas := rfl
@[simp] theorem placeCommand_cellbuf (w : CmdWord) (s : State) : (placeCommand w s).cellbuf = s.cellbuf := rfl
@[simp] theorem placeCommand_namebuf (w : CmdWord) (s : State) : (placeCommand w s).namebuf = s.namebuf := rfl
@[simp] theorem placeCommand_lrom (w : CmdWord) (s : State) : (placeCommand w s).lrom = s.lrom := rfl
@[simp] theorem placeCommand_wait (w : CmdWord) (s : State) : (placeCommand w s).wait = none := rfl
@[simp] theorem placeCommand_modeReqPulses (w : CmdWord) (s : State) : (placeCommand w s).modeReqPulses = s.modeReqPulses := rfl
@[simp] theorem placeCommand_vsyncIn (w : CmdWord) (s : State) : (placeCommand w s).vsyncIn = s.vsyncIn := rfl
@[simp] theorem placeCommand_resetIn (w : CmdWord) (s : State) : (placeCommand w s).resetIn = [] := rfl
@[simp] theorem placeCommand_hostActs (w : CmdWord) (s : State) : (placeCommand w s).hostActs = .write64 0x5100 w :: s.hostActs := rfl
@[simp] theorem placeCommand_hostData (w : CmdWord) (s : State) : (placeCommand w s).hostData = s.hostData := rfl
@[simp] theorem placeCommand_fresh (w : CmdWord) (s : State) : (placeCommand w s).fresh = s.fresh := rfl

/-! ### The memory of a space -/

theorem memOf_setMem (sp sp' : Space) (m : Mem) (s : State) :
    memOf sp' (setMem sp m s) = if sp' = sp then m else memOf sp' s := by
  cases sp <;> cases sp' <;> rfl

/-- A sample changes only the VSYNC input and the free counter. -/
theorem sampleVsync_eq (s : State) :
    (sampleVsync s).2 = { s with
      vsyncIn := (sampleVsync s).2.vsyncIn
      fresh := (sampleVsync s).2.fresh } := by
  unfold sampleVsync; split <;> rfl

/-- A sample the input gives is its next level. -/
theorem sampleVsync_cons {s : State} {v : Bool} {rest : List Bool} (h : s.vsyncIn = v :: rest) :
    sampleVsync s = (v, { s with vsyncIn := rest }) := by
  simp [sampleVsync, h]

/-- A sample the input does not give is a free value. -/
theorem sampleVsync_nil {s : State} (h : s.vsyncIn = []) :
    sampleVsync s = (Config.freeSample s.fresh, { s with fresh := s.fresh + 1 }) := by
  simp [sampleVsync, h]

/-- The free counter never falls at a sample. -/
theorem sampleVsync_fresh_le (s : State) : s.fresh ≤ (sampleVsync s).2.fresh := by
  unfold sampleVsync; split <;> simp

end Sys2Proof.Machine
end

