-- ==== Sys2Proof/Laws/Ops.lean ====
section
/-! SUPPORT. What the shared operations can do, said once: the AddressMapper, Surface accesses, and how a planned
command ends. -/

namespace Sys2Proof.Machine

open Sys2Proof

/-! ### The AddressMapper -/

theorem surfAddr_eq_some {row bcol a : Nat} :
    surfAddr row bcol = some a ↔ row < 200 ∧ bcol < 80 ∧ row / 2 * 80 + row % 2 * 8000 + bcol = a := by
  unfold surfAddr rowOffset
  split_ifs with hb hr <;> simp_all

theorem surfAddr_of_inRange {row bcol : Nat} (hr : row < 200) (hb : bcol < 80) :
    surfAddr row bcol = some (row / 2 * 80 + row % 2 * 8000 + bcol) :=
  surfAddr_eq_some.2 ⟨hr, hb, rfl⟩

theorem surfAddr_lt {row bcol a : Nat} (h : surfAddr row bcol = some a) : a < 16000 := by
  obtain ⟨hr, hb, rfl⟩ := surfAddr_eq_some.1 h
  omega

theorem surfAddr_injective {row bcol row' bcol' a : Nat} (h : surfAddr row bcol = some a)
    (h' : surfAddr row' bcol' = some a) : row = row' ∧ bcol = bcol' := by
  obtain ⟨hr, hb, e⟩ := surfAddr_eq_some.1 h
  obtain ⟨hr', hb', e'⟩ := surfAddr_eq_some.1 h'
  omega

/-! ### Surface accesses -/

/-- The access names a row and a byte column of the Surface. -/
abbrev Access.InRange (acc : Access) : Prop := acc.row < 200 ∧ acc.bcol < 80

theorem applyAccess_eq_some {acc : Access} {m m' : Mem} :
    applyAccess acc m = some m' ↔
      ∃ a, surfAddr acc.row acc.bcol = some a ∧ m.write a (acc.kind.result (m.read .surf a)) = m' := by
  simp [applyAccess, Option.map_eq_some_iff]

theorem applyAccesses_cons_eq_some {acc : Access} {rest : List Access} {m m' : Mem} :
    applyAccesses (acc :: rest) m = some m' ↔
      ∃ m₁, applyAccess acc m = some m₁ ∧ applyAccesses rest m₁ = some m' := by
  simp [applyAccesses, Option.bind_eq_some_iff]

theorem applyAccesses_append (xs ys : List Access) (m : Mem) :
    applyAccesses (xs ++ ys) m = (applyAccesses xs m).bind (applyAccesses ys) := by
  induction xs generalizing m with
  | nil => rfl
  | cons acc rest ih =>
    simp only [List.cons_append, applyAccesses]
    cases applyAccess acc m with
    | none => rfl
    | some m₁ => simpa using ih m₁

/-- Accesses in range can always be performed. -/
theorem applyAccesses_of_inRange {accs : List Access} (h : ∀ acc ∈ accs, acc.InRange) (m : Mem) :
    ∃ m', applyAccesses accs m = some m' := by
  induction accs generalizing m with
  | nil => exact ⟨m, rfl⟩
  | cons acc rest ih =>
    obtain ⟨hr, hb⟩ := h acc (by simp)
    obtain ⟨m', hm'⟩ := ih (fun x hx => h x (by simp [hx]))
      (m.write _ (acc.kind.result (m.read .surf _)))
    exact ⟨m', applyAccesses_cons_eq_some.2
      ⟨_, applyAccess_eq_some.2 ⟨_, surfAddr_of_inRange hr hb, rfl⟩, hm'⟩⟩

theorem applyAccesses_stamp {accs : List Access} {m m' : Mem} (h : applyAccesses accs m = some m') :
    m'.stamp = m.stamp := by
  induction accs generalizing m with
  | nil => cases h; rfl
  | cons acc rest ih =>
    obtain ⟨m₁, h₁, h₂⟩ := applyAccesses_cons_eq_some.1 h
    obtain ⟨a, -, rfl⟩ := applyAccess_eq_some.1 h₁
    simpa using ih h₂

/-- The engine's accesses keep the Surface in canonical form. -/
theorem applyAccesses_wf {accs : List Access} {m m' : Mem} (hm : m.wf .surf = true)
    (h : applyAccesses accs m = some m') : m'.wf .surf = true := by
  induction accs generalizing m with
  | nil => cases h; exact hm
  | cons acc rest ih =>
    obtain ⟨m₁, h₁, h₂⟩ := applyAccesses_cons_eq_some.1 h
    obtain ⟨a, ha, rfl⟩ := applyAccess_eq_some.1 h₁
    exact ih (Mem.wf_write hm _ (surfAddr_lt ha)) h₂

theorem Untouched.tail {acc : Access} {rest : List Access} {a : Nat} (h : Untouched (acc :: rest) a) :
    Untouched rest a := fun x hx => h x (by simp [hx])

/-- Accesses leave the listed bytes they do not touch as they were. -/
theorem applyAccesses_lookup_untouched {accs : List Access} {m m' : Mem} (h : applyAccesses accs m = some m')
    {a : Nat} (ha : Untouched accs a) : lookupCells m'.cells a = lookupCells m.cells a := by
  induction accs generalizing m with
  | nil => cases h; rfl
  | cons acc rest ih =>
    obtain ⟨m₁, h₁, h₂⟩ := applyAccesses_cons_eq_some.1 h
    obtain ⟨b, hb, rfl⟩ := applyAccess_eq_some.1 h₁
    rw [ih h₂ ha.tail]
    refine lookup_write_other _ _ ?_
    rintro rfl
    exact ha acc (by simp) hb

/-- Accesses leave the bytes they do not touch alone. -/
theorem applyAccesses_read_untouched {accs : List Access} {m m' : Mem} (h : applyAccesses accs m = some m')
    {a : Nat} (ha : Untouched accs a) : m'.read .surf a = m.read .surf a := by
  simp [Mem.read, applyAccesses_lookup_untouched h ha, applyAccesses_stamp h]

/-- A byte that exactly one of the accesses touches holds what that access makes of the byte before. -/
theorem applyAccesses_read_of_split {pre post : List Access} {acc : Access} {m m' : Mem} {a : Nat}
    (h : applyAccesses (pre ++ acc :: post) m = some m') (ha : surfAddr acc.row acc.bcol = some a)
    (hpre : Untouched pre a) (hpost : Untouched post a) :
    m'.read .surf a = acc.kind.result (m.read .surf a) := by
  rw [applyAccesses_append] at h
  obtain ⟨m₁, h₁, h₂⟩ := Option.bind_eq_some_iff.1 h
  obtain ⟨m₂, h₃, h₄⟩ := applyAccesses_cons_eq_some.1 h₂
  obtain ⟨b, hb, rfl⟩ := applyAccess_eq_some.1 h₃
  obtain rfl : a = b := by rw [ha] at hb; exact Option.some.inj hb
  rw [applyAccesses_read_untouched h₄ hpost, Mem.read_write_same, applyAccesses_read_untouched h₁ hpre]

/-! ### How a planned command ends -/

/-- A command that performs accesses in range ends OK and changes SURF and RESULT only. -/
theorem performAndFinish_of_inRange {accs : List Access} (h : ∀ acc ∈ accs, acc.InRange) (s : State) :
    ∃ m, applyAccesses accs s.surf = some m ∧
      performAndFinish accs s = .next { s with surf := m, result := .ok } := by
  obtain ⟨m, hm⟩ := applyAccesses_of_inRange h s.surf
  exact ⟨m, hm, by simp [performAndFinish, hm, finishOk]⟩

theorem performAndFinish_next {accs : List Access} {s t : State} (h : performAndFinish accs s = .next t) :
    ∃ m, applyAccesses accs s.surf = some m ∧ t = { s with surf := m, result := .ok } := by
  unfold performAndFinish at h
  split at h
  · next m hm => cases h; exact ⟨m, hm, rfl⟩
  · cases h

/-- Everything a planned command can answer, if it answers a next state: a fault that changes the fault registers only,
or all accesses performed and result OK. -/
theorem runPlan_next {w : CmdWord} {plan : Except ResultCode (List Access)} {s t : State}
    (h : runPlan w plan s = .next t) :
    (∃ c, plan = .error c ∧ t = raise c w s) ∨
    (∃ accs m, plan = .ok accs ∧ applyAccesses accs s.surf = some m ∧ t = { s with surf := m, result := .ok }) := by
  cases plan with
  | error c => cases h; exact .inl ⟨c, rfl, rfl⟩
  | ok accs =>
    obtain ⟨m, hm, ht⟩ := performAndFinish_next (by simpa [runPlan] using h)
    exact .inr ⟨accs, m, rfl, hm, ht⟩

/-- A planned command never stops the machine, if its plan's accesses are in range. -/
theorem runPlan_answers {w : CmdWord} {plan : Except ResultCode (List Access)} {s : State}
    (h : ∀ accs, plan = .ok accs → ∀ acc ∈ accs, acc.InRange) : ∃ t, runPlan w plan s = .next t := by
  cases plan with
  | error c => exact ⟨_, rfl⟩
  | ok accs =>
    obtain ⟨m, -, hm⟩ := performAndFinish_of_inRange (h accs rfl) s
    exact ⟨_, by simpa [runPlan] using hm⟩

end Sys2Proof.Machine
end

