-- ==== Sys2Proof/Laws/PerInstr.lean ====
section
/-! SUPPORT. Per-command facts about the encoding: the OP field of a command's word is the command's opcode. -/

namespace Sys2Proof.Laws

open Sys2Proof

/-- The OP field of a packed word. -/
theorem opField_packWord (op attr a b c d : Nat) (h : op < 256) : opField (packWord op attr a b c d) = op := by
  simp only [opField, CmdWord.bits, packWord, BitVec.toNat_ofNat]
  norm_num
  omega

/-- The encoding of a command carries its opcode, so no two commands share a word (30_encoding.md R84, R88). -/
def EncodedOpcode.Statement (i : Instr) : Prop := opField (encode i) = i.opcode

theorem EncodedOpcode.init : EncodedOpcode.Statement .init := opField_packWord _ _ _ _ _ _ (by decide)

theorem EncodedOpcode.rstsurf : EncodedOpcode.Statement .rstsurf := opField_packWord _ _ _ _ _ _ (by decide)

theorem EncodedOpcode.blit (tile x y : Nat) (color : Color) (mode : MaskMode) :
    EncodedOpcode.Statement (.blit tile x y color mode) := opField_packWord _ _ _ _ _ _ (by decide)

theorem EncodedOpcode.blitc (tile x y : Nat) (color : Color) (mode : MaskMode) (inverse : Bool) :
    EncodedOpcode.Statement (.blitc tile x y color mode inverse) := opField_packWord _ _ _ _ _ _ (by decide)

theorem EncodedOpcode.fill (x y w h : Nat) (color : Color) :
    EncodedOpcode.Statement (.fill x y w h color) := opField_packWord _ _ _ _ _ _ (by decide)

theorem EncodedOpcode.drawboard (n : Nat) :
    EncodedOpcode.Statement (.drawboard n) := opField_packWord _ _ _ _ _ _ (by decide)

theorem EncodedOpcode.drawname (q len : Nat) (active : Bool) :
    EncodedOpcode.Statement (.drawname q len active) := opField_packWord _ _ _ _ _ _ (by decide)

theorem EncodedOpcode.renderfield (q : Nat) :
    EncodedOpcode.Statement (.renderfield q) := opField_packWord _ _ _ _ _ _ (by decide)

theorem EncodedOpcode.updatecell (q pos : Nat) (blink : Bool) :
    EncodedOpcode.Statement (.updatecell q pos blink) := opField_packWord _ _ _ _ _ _ (by decide)

theorem EncodedOpcode.waitvsync : EncodedOpcode.Statement .waitvsync := opField_packWord _ _ _ _ _ _ (by decide)

end Sys2Proof.Laws
end

