-- ==== Sys2Proof/Laws/Plans.lean ====
section
/-! SUPPORT. What the primitives and the layout engine can do: their accesses lie on the Surface, and when a composite
command's plan is a fault. -/

namespace Sys2Proof.Machine

open Sys2Proof

/-! ### Primitives -/

theorem mem_blitAccesses {atlas : Mem} {tile col prow : Nat} {color : Color} {mode : MaskMode} {inv : Bool}
    {acc : Access} :
    acc ∈ blitAccesses atlas tile col prow color mode inv ↔
      ∃ r b, r < 8 ∧ b < 2 ∧
        acc = ⟨prow + r, 2 * col + b, .put (outByte (tileByte atlas tile r b) color mode inv)⟩ := by
  simp only [blitAccesses, List.mem_flatMap, List.mem_range, List.mem_cons, List.not_mem_nil, or_false]
  constructor
  · rintro ⟨r, hr, rfl | rfl⟩
    · exact ⟨r, 0, hr, by omega, rfl⟩
    · exact ⟨r, 1, hr, by omega, rfl⟩
  · rintro ⟨r, b, hr, hb, rfl⟩
    interval_cases b
    · exact ⟨r, hr, .inl rfl⟩
    · exact ⟨r, hr, .inr rfl⟩

theorem blitAccesses_inRange {atlas : Mem} {tile col prow : Nat} {color : Color} {mode : MaskMode} {inv : Bool}
    (hc : col < 40) (hp : prow ≤ 192) :
    ∀ acc ∈ blitAccesses atlas tile col prow color mode inv, acc.InRange := by
  intro acc h
  obtain ⟨r, b, hr, hb, rfl⟩ := mem_blitAccesses.1 h
  exact ⟨by simp only; omega, by simp only; omega⟩

/-- The accesses of one row of a fill go to the byte columns `startByte..endByte` of that row. -/
theorem fillRowAccesses_place {x w row : Nat} {color : Color} {acc : Access}
    (hw : w ≠ 0) (h : acc ∈ fillRowAccesses x w color row) :
    acc.row = row ∧ startByte x ≤ acc.bcol ∧ acc.bcol ≤ endByte x w := by
  unfold fillRowAccesses at h
  split_ifs at h with he
  · obtain rfl := List.mem_singleton.1 h
    simp [he]
  · simp only [List.cons_append, List.mem_cons, List.mem_append, List.mem_map, List.mem_range, List.not_mem_nil, or_false] at h
    rcases h with rfl | ⟨k, hk, rfl⟩ | rfl <;> simp [startByte, endByte] at * <;> omega

theorem mem_fillAccesses {x y w h : Nat} {color : Color} {acc : Access}
    (hm : acc ∈ fillAccesses x y w h color) :
    w ≠ 0 ∧ y ≤ acc.row ∧ acc.row < y + h ∧ startByte x ≤ acc.bcol ∧ acc.bcol ≤ endByte x w := by
  unfold fillAccesses at hm
  split_ifs at hm with hw
  · simp at hm
  · obtain ⟨j, hj, ha⟩ := List.mem_flatMap.1 hm
    rw [List.mem_range] at hj
    obtain ⟨h₁, h₂, h₃⟩ := fillRowAccesses_place hw ha
    exact ⟨hw, by omega, by omega, h₂, h₃⟩

theorem fillAccesses_inRange {x y w h : Nat} {color : Color} (hx : x + w ≤ 320) (hy : y + h ≤ 200) :
    ∀ acc ∈ fillAccesses x y w h color, acc.InRange := by
  intro acc hm
  obtain ⟨h₁, h₂, h₃, h₄, h₅⟩ := mem_fillAccesses hm
  simp only [endByte] at h₅
  exact ⟨by omega, by omega⟩

/-- The operands of a primitive are in range (41_tile_blitter.md R102, 42_rect_filler.md R122). -/
def Prim.InRange : Prim → Prop
  | .blit tile col prow _ _ _ => tile ≤ 255 ∧ col ≤ 39 ∧ prow ≤ 192
  | .fill x y w h _ => x + w ≤ 320 ∧ y + h ≤ 200

theorem Prim.accesses_inRange {p : Prim} (h : p.InRange) (atlas : Mem) :
    ∀ acc ∈ p.accesses atlas, acc.InRange := by
  cases p with
  | blit tile col prow color mode inv => exact blitAccesses_inRange (by have := h.2.1; omega) h.2.2
  | fill x y w h' color => exact fillAccesses_inRange h.1 h.2

theorem tileAt_eq_some {tile : Nat} {col prow : Int} {color : Color} {mode : MaskMode} {inv : Bool} {p : Prim} :
    tileAt tile col prow color mode inv = some p ↔
      0 ≤ col ∧ col ≤ 39 ∧ 0 ≤ prow ∧ prow ≤ 192 ∧ tile ≤ 255 ∧
        p = .blit tile col.toNat prow.toNat color mode inv := by
  unfold tileAt
  split_ifs with h
  · simp only [false_iff]; omega
  · simp only [Option.some.injEq]
    constructor
    · rintro rfl; exact ⟨by omega, by omega, by omega, by omega, by omega, rfl⟩
    · rintro ⟨-, -, -, -, -, rfl⟩; rfl

theorem tileAt_inRange {tile : Nat} {col prow : Int} {color : Color} {mode : MaskMode} {inv : Bool} {p : Prim}
    (h : tileAt tile col prow color mode inv = some p) : p.InRange := by
  obtain ⟨h₁, h₂, h₃, h₄, h₅, rfl⟩ := tileAt_eq_some.1 h
  exact ⟨h₅, by omega, by omega⟩

/-- A placed entry is in range: whatever the store holds, no write leaves the Surface (R148). -/
theorem place_inRange {e : Entry} {c0 p0 : Int} {o : Orient} {delta : Nat} {p : Prim}
    (h : place e c0 p0 o delta = some p) : p.InRange := by
  cases e with
  | tile tileL tileR dx dy color mode => exact tileAt_inRange h
  | rect dx dy w h' color =>
    simp only [place] at h
    split_ifs at h with hv
    obtain rfl := Option.some.inj h
    simp only [Prim.InRange]
    omega

/-! ### All or nothing (R148) -/

theorem allValid_eq_some {l : List (Option Prim)} {ps : List Prim} : allValid l = some ps ↔ l = ps.map some := by
  induction l generalizing ps with
  | nil => cases ps <;> simp [allValid]
  | cons x rest ih =>
    cases x with
    | none => cases ps <;> simp [allValid]
    | some p =>
      simp only [allValid, Option.map_eq_some_iff, ih]
      cases ps with
      | nil => simp
      | cons q qs => simp [and_comm]

theorem allValid_eq_none {l : List (Option Prim)} : allValid l = none ↔ none ∈ l := by
  induction l with
  | nil => simp [allValid]
  | cons x rest ih => cases x <;> simp [allValid, ih]

/-- A composite plan is a fault exactly when a primitive is INVALID, and the fault is OUT_OF_BOUNDS. -/
theorem composePlan_error {atlas : Mem} {prims : List (Option Prim)} {c : ResultCode} :
    composePlan atlas prims = .error c ↔ c = .outOfBounds ∧ none ∈ prims := by
  unfold composePlan
  cases h : allValid prims with
  | none => simp [allValid_eq_none.1 h, eq_comm]
  | some ps =>
    have : none ∉ prims := fun hn => by simp [allValid_eq_none.2 hn] at h
    simp [this]

theorem composePlan_ok {atlas : Mem} {prims : List (Option Prim)} {accs : List Access} :
    composePlan atlas prims = .ok accs ↔ ∃ ps, prims = ps.map some ∧ accs = primAccesses atlas ps := by
  unfold composePlan
  cases h : allValid prims with
  | none =>
    have hn := allValid_eq_none.1 h
    simp only [reduceCtorEq, false_iff, not_exists, not_and]
    rintro ps rfl
    simp at hn
  | some ps =>
    obtain rfl := allValid_eq_some.1 h
    simp only [Except.ok.injEq]
    constructor
    · rintro rfl; exact ⟨ps, rfl, rfl⟩
    · rintro ⟨qs, hq, rfl⟩
      have : ps = qs := (List.map_injective_iff.2 (Option.some_injective _)) hq
      rw [this]

/-- The accesses of a composite plan lie on the Surface, if its valid primitives are in range. -/
theorem composePlan_inRange {atlas : Mem} {prims : List (Option Prim)} (hp : ∀ p, some p ∈ prims → p.InRange)
    {accs : List Access} (h : composePlan atlas prims = .ok accs) : ∀ acc ∈ accs, acc.InRange := by
  obtain ⟨ps, rfl, rfl⟩ := composePlan_ok.1 h
  intro acc ha
  obtain ⟨p, hps, hacc⟩ := List.mem_flatMap.1 ha
  exact Prim.accesses_inRange (hp p (by simpa using hps)) atlas acc hacc

/-! ### The primitives of the composite commands are in range -/

theorem quadrantPrims_inRange {lay : Layout} {n i : Nat} {p : Prim} (h : some p ∈ quadrantPrims lay n i) :
    p.InRange := by
  unfold quadrantPrims at h
  split at h
  · obtain ⟨e, -, he⟩ := List.mem_map.1 h
    exact place_inRange he
  · simp at h

theorem boardPrims_inRange {lay : Layout} {n : Nat} {p : Prim} (h : some p ∈ boardPrims lay n) : p.InRange := by
  obtain ⟨i, -, hi⟩ := List.mem_flatMap.1 h
  exact quadrantPrims_inRange hi

theorem namePrims_inRange {lay : Layout} {o : Orient} {c0 p0 : Int} {text : List Byte} {active : Bool} {p : Prim}
    (h : some p ∈ namePrims lay o c0 p0 text active) : p.InRange := by
  simp only [namePrims, List.mem_append] at h
  rcases h with (h | h) | h
  · obtain ⟨e, -, he⟩ := List.mem_map.1 h
    exact place_inRange he
  · obtain ⟨k, hk, he⟩ := List.mem_mapIdx.1 h
    exact tileAt_inRange he
  · split_ifs at h
    · exact tileAt_inRange (List.mem_singleton.1 h).symm
    · simp at h

theorem drawnamePrims_inRange {q len : Nat} {active : Bool} {s : State} {p : Prim}
    (h : some p ∈ drawnamePrims q len active s) : p.InRange := by
  unfold drawnamePrims at h
  split at h
  · simp at h
  · exact namePrims_inRange h

theorem cellPrims_inRange {q : Nat} {blink : Bool} {s : State} {pos : Nat} {p : Prim}
    (h : some p ∈ cellPrims q blink s pos) : p.InRange := by
  unfold cellPrims at h
  split at h
  · simp at h
  · split at h
    · simp at h
    · exact tileAt_inRange (List.mem_singleton.1 h).symm

/-! ### The plans' accesses are in range -/

theorem blitPlan_inRange {tile x y : Nat} {color : Color} {mode : MaskMode} {inv : Bool} {s : State}
    {accs : List Access} (h : blitPlan tile x y color mode inv s = .ok accs) : ∀ acc ∈ accs, acc.InRange := by
  unfold blitPlan at h
  split_ifs at h with h₁ h₂
  cases h
  simp only [blitInRange, Bool.not_eq_true', Bool.not_eq_false, Bool.and_eq_true, decide_eq_true_eq] at h₂
  exact blitAccesses_inRange (by omega) (by omega)

theorem fillPlan_inRange {x y w h : Nat} {color : Color} {s : State} {accs : List Access}
    (hp : fillPlan x y w h color s = .ok accs) : ∀ acc ∈ accs, acc.InRange := by
  unfold fillPlan at hp
  split_ifs at hp with h₁ h₂
  cases hp
  simp only [fillInRange, Bool.not_eq_true', Bool.not_eq_false, Bool.and_eq_true, decide_eq_true_eq] at h₂
  exact fillAccesses_inRange h₂.1.2 h₂.2

theorem boardPlan_inRange {n : Nat} {s : State} {accs : List Access} (h : boardPlan n s = .ok accs) :
    ∀ acc ∈ accs, acc.InRange := by
  unfold boardPlan at h
  split_ifs at h
  exact composePlan_inRange (fun p hp => boardPrims_inRange hp) h

theorem namePlan_inRange {q len : Nat} {active : Bool} {s : State} {accs : List Access}
    (h : namePlan q len active s = .ok accs) : ∀ acc ∈ accs, acc.InRange := by
  unfold namePlan at h
  split_ifs at h
  exact composePlan_inRange (fun p hp => drawnamePrims_inRange hp) h

theorem fieldPlan_inRange {q : Nat} {s : State} {accs : List Access} (h : fieldPlan q s = .ok accs) :
    ∀ acc ∈ accs, acc.InRange := by
  unfold fieldPlan at h
  split_ifs at h
  refine composePlan_inRange (fun p hp => ?_) h
  obtain ⟨i, -, hi⟩ := List.mem_flatMap.1 hp
  exact cellPrims_inRange hi

theorem cellPlan_inRange {q pos : Nat} {blink : Bool} {s : State} {accs : List Access}
    (h : cellPlan q pos blink s = .ok accs) : ∀ acc ∈ accs, acc.InRange := by
  unfold cellPlan at h
  split_ifs at h
  exact composePlan_inRange (fun p hp => cellPrims_inRange hp) h

end Sys2Proof.Machine
end

