-- ==== Sys2Proof/Laws/Step.lean ====
section
/-! SUPPORT. What a step can do, said once: the wait, a host access, and the step itself. -/

namespace Sys2Proof.Machine

open Sys2Proof

/-- One turn of a wait: the timeout fault, the end with OK, or one more sample counted. -/
theorem waitStep_cases (wt : Wait) (s : State) :
    (s.vsto ≠ 0 ∧ wt.count = s.vsto ∧
      waitStep wt s = raise .syncTimeout (encode .waitvsync) { s with wait := none }) ∨
    ((s.vsto = 0 ∨ wt.count ≠ s.vsto) ∧ ∃ vs k, s.fresh ≤ k ∧
      (waitStep wt s = { s with vsyncIn := vs, fresh := k, wait := none, result := .ok } ∨
        ∃ ph, waitStep wt s = { s with vsyncIn := vs, fresh := k, wait := some ⟨ph, wt.count + 1⟩ })) := by
  unfold waitStep
  split_ifs with h
  · exact .inl ⟨h.1, h.2, rfl⟩
  · refine .inr ⟨by tauto, ?_⟩
    have hs := sampleVsync_eq s
    have hf := sampleVsync_fresh_le s
    rcases hv : sampleVsync s with ⟨v, s'⟩
    rw [hv] at hs hf
    simp only at hs hf
    refine ⟨s'.vsyncIn, s'.fresh, hf, ?_⟩
    rcases wt with ⟨ph, k⟩
    cases ph <;> cases v <;> simp only
    · exact .inr ⟨.assertion, by rw [hs]⟩
    · exact .inr ⟨.deassertion, by rw [hs]⟩
    · exact .inl (by rw [hs]; rfl)
    · exact .inr ⟨.deassertion, by rw [hs]⟩

theorem windowByte_mem_lt {offset a : Nat} {sp : Space} (h : windowByte offset = .mem sp a) : a < sp.size := by
  unfold windowByte at h
  split_ifs at h <;>
    · injection h with h₁ h₂
      subst h₁ h₂
      simp only [Space.size, Config.surfBytes, Config.atlasBytes, Config.cells, Config.nameBytes]
      omega

theorem otherAccess_next {offset n : Nat} {s t : State} (h : otherAccess offset n s = .next t) : t = s := by
  unfold otherAccess at h
  split_ifs at h
  cases h; rfl

theorem windowByte_eq_reg {offset : Nat} : windowByte offset = .reg ↔ 0x5100 ≤ offset ∧ offset < 0x5128 := by
  unfold windowByte
  split_ifs <;> simp <;> omega

theorem windowByte_eq_unassigned {offset : Nat} :
    windowByte offset = .unassigned ↔
      0x3E80 ≤ offset ∧ offset < 0x4000 ∨ 0x5064 ≤ offset ∧ offset < 0x5080 ∨ 0x5090 ≤ offset ∧ offset < 0x5100 ∨
        0x5128 ≤ offset := by
  unfold windowByte
  split_ifs <;> simp <;> omega

/-- Everything an access that is no defined register access can do: it is refused if it covers a byte of REG, or one of
a memory, and otherwise it lies in unassigned offsets and is ignored. -/
theorem otherAccess_cases (offset n : Nat) (s : State) (hn : 0 < n) (hn8 : n ≤ 8) :
    (0x5100 < offset + n ∧ offset < 0x5128 ∧
      otherAccess offset n s = .refused (.registerAccessNotDefined offset)) ∨
    (¬ (0x5100 < offset + n ∧ offset < 0x5128) ∧
      (offset < 0x3E80 ∨ 0x4000 < offset + n ∧ offset < 0x5064 ∨ 0x5080 < offset + n ∧ offset < 0x5090) ∧
      otherAccess offset n s = .refused (.wideMemoryAccess offset)) ∨
    (¬ (0x5100 < offset + n ∧ offset < 0x5128) ∧
      ¬ (offset < 0x3E80 ∨ 0x4000 < offset + n ∧ offset < 0x5064 ∨ 0x5080 < offset + n ∧ offset < 0x5090) ∧
      otherAccess offset n s = .next s) := by
  have hall : (windowBytes offset n).all (· == .unassigned) = true ↔
      ∀ k, k < n → windowByte (offset + k) = .unassigned := by simp [windowBytes]
  have hany : (windowBytes offset n).any (· == .reg) = true ↔ ∃ k, k < n ∧ windowByte (offset + k) = .reg := by
    simp [windowBytes]
  simp only [otherAccess, hall, hany, windowByte_eq_reg, windowByte_eq_unassigned]
  have first : ∀ lo hi, lo < offset + n → offset < hi → lo < hi → ∃ k, k < n ∧ lo ≤ offset + k ∧ offset + k < hi :=
    fun lo hi _ _ _ => ⟨max lo offset - offset, by omega, by omega, by omega⟩
  by_cases hr : 0x5100 < offset + n ∧ offset < 0x5128
  · obtain ⟨k, hk, h₁, h₂⟩ := first _ _ hr.1 hr.2 (by decide)
    exact .inl ⟨hr.1, hr.2, by rw [if_neg fun h => by have := h k hk; omega, if_pos ⟨k, hk, h₁, h₂⟩]⟩
  · right
    by_cases hm : offset < 0x3E80 ∨ 0x4000 < offset + n ∧ offset < 0x5064 ∨ 0x5080 < offset + n ∧ offset < 0x5090
    · refine .inl ⟨hr, hm, ?_⟩
      have : ∃ k, k < n ∧ (offset + k < 0x3E80 ∨ 0x4000 ≤ offset + k ∧ offset + k < 0x5064 ∨
          0x5080 ≤ offset + k ∧ offset + k < 0x5090) := by
        rcases hm with h | h | h
        · exact ⟨0, hn, by omega⟩
        · obtain ⟨k, hk, _, _⟩ := first _ _ h.1 h.2 (by decide); exact ⟨k, hk, by omega⟩
        · obtain ⟨k, hk, _, _⟩ := first _ _ h.1 h.2 (by decide); exact ⟨k, hk, by omega⟩
      obtain ⟨k, hk, hk'⟩ := this
      rw [if_neg fun h => by have := h k hk; omega, if_neg]
      rintro ⟨j, hj, h₁, h₂⟩
      omega
    · refine .inr ⟨hr, hm, ?_⟩
      rw [if_pos]
      intro k hk
      omega

/-- Everything a host access can do, if it answers a next state: execute a command, write one byte of a memory, write
VSTO, or return data to the host. -/
theorem hostAccess_next {act : HostAction} {s t : State} (h : hostAccess act s = .next t) :
    (∃ w, act = .write64 0x5100 w ∧ runWord w s = .next t) ∨
    (∃ sp a v, a < sp.size ∧ t = setMem sp ((memOf sp s).write a v) s) ∨
    (∃ v, act = .write32 0x5120 v ∧ t = { s with vsto := v }) ∨
    (∃ d k, s.fresh ≤ k ∧ t = { s with hostData := d, fresh := k }) := by
  have data : ∀ {v : BitVec 64}, t = returnToHost v s →
      ∃ d k, s.fresh ≤ k ∧ t = { s with hostData := d, fresh := k } :=
    fun {v} e => ⟨v, s.fresh, le_refl _, e⟩
  have unspec : ∀ {n : Nat}, t = returnUnspecified n s →
      ∃ d k, s.fresh ≤ k ∧ t = { s with hostData := d, fresh := k } :=
    fun {n} e => ⟨_, s.fresh + 1, by omega, e⟩
  have same : t = s → ∃ d k, s.fresh ≤ k ∧ t = { s with hostData := d, fresh := k } :=
    fun e => ⟨s.hostData, s.fresh, le_refl _, e⟩
  cases act with
  | read8 offset =>
    simp only [hostAccess, hostRead8] at h
    split at h
    · exact .inr (.inr (.inr (data (by cases h; rfl))))
    · exact .inr (.inr (.inr (same (otherAccess_next h))))
    · exact .inr (.inr (.inr (unspec (by cases h; rfl))))
  | write8 offset v =>
    simp only [hostAccess, hostWrite8] at h
    split at h
    · next sp a hw => exact .inr (.inl ⟨sp, a, v, windowByte_mem_lt hw, by cases h; rfl⟩)
    · exact .inr (.inr (.inr (same (otherAccess_next h))))
    · exact .inr (.inr (.inr (same (by cases h; rfl))))
  | read32 offset =>
    simp only [hostAccess, hostRead32] at h
    refine .inr (.inr (.inr ?_))
    split at h
    · exact data (by cases h; rfl)
    · exact data (by cases h; rfl)
    · exact data (by cases h; rfl)
    · split_ifs at h
      · exact data (by cases h; rfl)
      · exact unspec (by cases h; rfl)
    · exact data (by cases h; rfl)
    · exact unspec (otherAccess_next h)
  | write32 offset v =>
    simp only [hostAccess, hostWrite32] at h
    split at h
    · exact .inr (.inr (.inl ⟨v, rfl, by cases h; rfl⟩))
    · exact .inr (.inr (.inr (same (by cases h; rfl))))
    · exact .inr (.inr (.inr (same (by cases h; rfl))))
    · exact .inr (.inr (.inr (same (by cases h; rfl))))
    · exact .inr (.inr (.inr (same (by cases h; rfl))))
    · exact .inr (.inr (.inr (same (otherAccess_next h))))
  | read64 offset =>
    simp only [hostAccess, hostRead64] at h
    refine .inr (.inr (.inr ?_))
    split at h
    · exact unspec (by cases h; rfl)
    · exact data (by cases h; rfl)
    · exact unspec (otherAccess_next h)
  | write64 offset w =>
    simp only [hostAccess, hostWrite64] at h
    split at h
    · exact .inl ⟨w, rfl, h⟩
    · exact .inr (.inr (.inr (same (by cases h; rfl))))
    · exact .inr (.inr (.inr (same (otherAccess_next h))))

/-- Everything a step can do, if it answers a next state. -/
theorem step_next {s t : State} (h : step s = .next t) :
    (s.resetIn.head? = some true ∧ t = applyReset { s with resetIn := s.resetIn.tail }) ∨
    (s.resetIn.head? ≠ some true ∧
      ((∃ wt, s.wait = some wt ∧ t = waitStep wt { s with resetIn := s.resetIn.tail }) ∨
        (s.wait = none ∧ s.hostActs = [] ∧ t = { s with resetIn := s.resetIn.tail }) ∨
        (s.wait = none ∧ ∃ act rest, s.hostActs = act :: rest ∧
          hostAccess act (afterIssue s rest) = .next t))) := by
  have run : ∀ {s₁ : State}, runStep s₁ = .next t →
      (∃ wt, s₁.wait = some wt ∧ t = waitStep wt s₁) ∨ (s₁.wait = none ∧ s₁.hostActs = [] ∧ t = s₁) ∨
        (s₁.wait = none ∧ ∃ act rest, s₁.hostActs = act :: rest ∧
          hostAccess act { s₁ with hostActs := rest } = .next t) := by
    intro s₁ h₁
    unfold runStep at h₁
    split at h₁
    · next wt hw => exact .inl ⟨wt, hw, by cases h₁; rfl⟩
    · next hw =>
      split at h₁
      · next ha => exact .inr (.inl ⟨hw, ha, by cases h₁; rfl⟩)
      · next act rest ha => exact .inr (.inr ⟨hw, act, rest, ha, h₁⟩)
  unfold step stepOnce at h
  split at h
  · next hr =>
    refine .inr ⟨by simp [hr], ?_⟩
    have e : s = { s with resetIn := s.resetIn.tail } := by cases s; simp_all
    rw [e] at h
    simpa [afterIssue] using run h
  · next rest hr =>
    refine .inr ⟨by simp [hr], ?_⟩
    have e : ({ s with resetIn := rest } : State) = { s with resetIn := s.resetIn.tail } := by simp [hr]
    rw [e] at h
    simpa [afterIssue] using run h
  · next rest hr =>
    refine .inl ⟨by simp [hr], ?_⟩
    cases h
    simp [hr]

/-- A step without reset, while a WAITVSYNC runs, is one turn of it. -/
theorem step_waiting {s : State} {wt : Wait} (hr : s.resetIn.head? ≠ some true) (hw : s.wait = some wt) :
    step s = .next (waitStep wt { s with resetIn := s.resetIn.tail }) := by
  unfold step stepOnce
  split
  · next h =>
    have e : s = { s with resetIn := s.resetIn.tail } := by cases s; simp_all
    rw [← e]; simp [runStep, hw]
  · next rest h => simp [runStep, hw, h]
  · next rest h => simp [h] at hr

end Sys2Proof.Machine
end

