-- ==== Sys2Proof/Tests/Slice0.lean ====
section
/-! SUPPORT. Small tests against the spec's own words, examples and vectors (95_test_vectors.md), and for every
statement with hypotheses a state and operands that meet them. -/

namespace Sys2Proof.Tests

open Sys2Proof Sys2Proof.Machine

/-! ### Fixtures: TESTLAYOUT of 95_test_vectors.md section 2.1, and small states -/

/-- TESTLAYOUT (95 section 2.1): illustrative values, not the hardware's. -/
def testLayout : Layout where
  fofsWide1 := 7
  fofsWide2 := 6
  qorigin := #v[⟨4, 12⟩, ⟨4, 108⟩, ⟨24, 12⟩, ⟨24, 108⟩]
  cornerStyle := #v[0, 0, 0, 0, 0, 0, 0, 0, 0, 0, 0, 0, 0, 0, 0, 0]
  flank := [[.tile 0x20 0x21 (-1) 0 3 .mask, .tile 0x21 0x20 10 0 3 .mask]]
  badge := [.rect 0 (-10) 80 8 2, .tile 0x22 0x23 (-1) (-10) 3 .mask]
  drawer := [.rect (-32) 0 24 40 1]
  drawerHeight := 40
  edgeShort := []
  edgeFull := [.tile 0x24 0x25 10 72 3 .direct]
  name := [.tile 0x22 0x23 (-1) (-10) 3 .mask, .rect 0 (-10) 80 8 2]
  nameMax := 8
  nameDxLeft := 0
  nameDxRight := 2
  nameDy := -10
  nameColorAct := 3
  nameColorInact := 1
  markerTile := 0x2A
  markerDxLeft := 9
  markerDxRight := 0
  markerDy := -10
  markerColor := 3
  markerMode := .mask
  glyph := Vector.mk ((List.range 128).map fun c => BitVec.ofNat 8 c).toArray (by simp)
  hitTile := 0x10
  hitAltTile := 0x11
  missTile := 0x12
  markMode := .direct
  hitColor := 3
  missColor := 3

/-- The same store with a flank tile moved off the Surface: every DRAWBOARD finds an INVALID placement. -/
def offLayout : Layout := { testLayout with flank := [[.tile 0x20 0x21 (-40) 0 3 .mask]] }

/-- `n` cells from 0 on, each holding `v`. -/
def cellsOf (n : Nat) (v : Byte) : List Host.Cell := (List.range n).map fun a => (a, v)

/-- TESTATLAS's bytes of tile `t` (95 section 2.1). -/
def atlasTile (t : Nat) : List Host.Cell :=
  (List.range 16).map fun k => (16 * t + k, BitVec.ofNat 8 (37 * (16 * t + k) + 101 * ((16 * t + k) / 256) + 11))

/-- After INIT, with tiles 0x10, 0x11, 0x12 and 0x41 loaded, every SURF byte of rows 0 and 2 being 0x1B. -/
def inited : State :=
  { State.reset with
    status := ⟨true, false, false⟩
    lrom := testLayout
    atlas := ⟨0, atlasTile 0x10 ++ atlasTile 0x11 ++ atlasTile 0x12 ++ atlasTile 0x41⟩
    surf := ⟨0, cellsOf 160 0x1B⟩
    namebuf := ⟨0, [(0, 0x62), (1, 0x4F)]⟩ }

/-- After DRAWBOARD 2, a Hit at position 37 and a Miss at 99, all other cells Empty (95 section 2.8). -/
def playing : State :=
  { inited with
    status := ⟨true, true, false⟩
    ctx := ⟨6, 2⟩
    cellbuf := ⟨0, (List.range 100).map fun p => (p, if p = 37 then 1 else if p = 99 then 2 else 0)⟩ }

/-- The state a command leaves; tests only read it where the command answers one. -/
def after (i : Instr) (s : State) : State :=
  match exec i s with
  | .next t => t
  | _ => s

/-! ### Well-formedness: an ill-formed term for each check -/

theorem test_wf_blit : Instr.wellFormed (.blit 4095 4095 4095 3 .mask) = true ∧
    Instr.wellFormed (.blit 4096 0 0 0 .direct) = false ∧ Instr.wellFormed (.blit 0 4096 0 0 .direct) = false ∧
    Instr.wellFormed (.blit 0 0 4096 0 .direct) = false := by decide

theorem test_wf_blitc : Instr.wellFormed (.blitc 4096 0 0 0 .direct true) = false ∧
    Instr.wellFormed (.blitc 0 4096 0 0 .direct true) = false ∧
    Instr.wellFormed (.blitc 0 0 4096 0 .direct true) = false := by decide

theorem test_wf_fill : Instr.wellFormed (.fill 4096 0 0 0 0) = false ∧ Instr.wellFormed (.fill 0 4096 0 0 0) = false ∧
    Instr.wellFormed (.fill 0 0 4096 0 0) = false ∧ Instr.wellFormed (.fill 0 0 0 4096 0) = false := by decide

theorem test_wf_board : Instr.wellFormed (.drawboard 4096) = false ∧ Instr.wellFormed (.drawname 4096 0 true) = false ∧
    Instr.wellFormed (.drawname 0 4096 true) = false ∧ Instr.wellFormed (.renderfield 4096) = false ∧
    Instr.wellFormed (.updatecell 4096 0 true) = false ∧ Instr.wellFormed (.updatecell 0 4096 true) = false := by
  decide

/-! ### Decoding: a word of every command, written out bit by bit from the patterns of 30_encoding.md R84 -/

theorem test_decode_init :
    decode 0b0000000100000000000000000000000000000000000000000000000000000000#64 = .ok .init := by rfl
theorem test_decode_rstsurf :
    decode 0b0000001000000000000000000000000000000000000000000000000000000000#64 = .ok .rstsurf := by rfl
theorem test_decode_blit : -- tile 0x41, x 5, y 3, color 2, MASK
    decode 0b0000001100000110000001000001000000000101000000000011000000000000#64 =
      .ok (.blit 0x41 5 3 2 .mask) := by rfl
theorem test_decode_blitc : -- tile 0x21, x 0, y 0, color 1, MASK, INV
    decode 0b0000010000001101000000100001000000000000000000000000000000000000#64 =
      .ok (.blitc 0x21 0 0 1 .mask true) := by rfl
theorem test_decode_fill : -- x 3, y 0, w 5, h 1, color 3
    decode 0b0000010100000011000000000011000000000000000000000101000000000001#64 =
      .ok (.fill 3 0 5 1 3) := by rfl
theorem test_decode_drawboard : -- n 2
    decode 0b0000011000000000000000000010000000000000000000000000000000000000#64 = .ok (.drawboard 2) := by rfl
theorem test_decode_drawname : -- q 1, len 2, ACTIVE
    decode 0b0000011100010000000000000001000000000010000000000000000000000000#64 =
      .ok (.drawname 1 2 true) := by rfl
theorem test_decode_renderfield : -- q 1
    decode 0b0000100000000000000000000001000000000000000000000000000000000000#64 = .ok (.renderfield 1) := by rfl
theorem test_decode_updatecell : -- q 0, pos 37, BLINK
    decode 0b0000100100100000000000000000000000100101000000000000000000000000#64 =
      .ok (.updatecell 0 37 true) := by rfl
theorem test_decode_waitvsync :
    decode 0b0000101000000000000000000000000000000000000000000000000000000000#64 = .ok .waitvsync := by rfl

/-- 95 section 2.3: E3, E4, E6, E10, E12, E14, E16, E17 are illegal; E19 decodes. -/
theorem test_decode_vectors :
    ([0x0100000000000001#64, 0x0B00000000000000#64, 0x0340000000000000#64, 0x0504000000000000#64,
      0x0600001001000000#64, 0x0720001002000000#64, 0x0910000025000000#64, 0x0A00000000000001#64].all
      fun w => !(decode w).isOk) = true ∧
    decode 0x0503FFFFFFFFFFFF#64 = .ok (.fill 4095 4095 4095 4095 3) := by decide

/-- The encoder gives the words of 95 (B1, F4, G3). -/
theorem test_encode_words :
    encode (.blit 0x41 5 3 2 .mask) = 0x0306041005003000#64 ∧
    encode (.fill 319 199 1 1 0) = 0x050013F0C7001001#64 ∧
    encode (.updatecell 1 37 true) = 0x0920001025000000#64 := by decide

theorem test_decodeTableWord :
    decodeTableWord 64 0x0502000000140001 = some (.fill 0 0 320 1 2) ∧ decodeTableWord 64 0 = none := by decide

/-! ### The AddressMapper and the lanes (95 M1 to M5) -/

theorem test_rowOffset_vectors :
    [0, 1, 2, 3, 7, 8, 99, 100, 101, 192, 198, 199, 200].map rowOffset =
      [some 0, some 8000, some 80, some 8080, some 8240, some 320, some 11920, some 4000, some 12000, some 7680,
        some 7920, some 15920, none] := by decide

theorem test_surfAddr_vectors :
    [surfAddr 0 79, surfAddr 1 79, surfAddr 24 10, surfAddr 25 10, surfAddr 100 40, surfAddr 198 79, surfAddr 199 79,
      surfAddr 0 80] =
      [some 79, some 8079, some 970, some 8970, some 4040, some 7999, some 15999, none] := by decide

theorem test_lanes : (List.range 4).map (lane 0x1B#8) = [0, 1, 2, 3] ∧ (List.range 4).map (lane 0xE4#8) = [3, 2, 1, 0] := by
  decide

/-! ### Steps: at most two small theorems a command -/

/-- 95 C1: INIT sets INITED, pulses MODE_REQ and ends OK; an earlier SURF byte is no longer known. -/
theorem test_init : (after .init State.reset).status = ⟨true, false, false⟩ ∧
    (after .init State.reset).modeReqPulses = 1 ∧ (after .init inited).surf.cells = [] := by decide

/-- 95 C2: RSTSURF writes 0x00; before INIT it is NOT_READY and records its word. -/
theorem test_rstsurf : (after .rstsurf inited).surf.read .surf 100 = 0x00#8 ∧
    (after .rstsurf State.reset).result = .notReady ∧
    (after .rstsurf State.reset).fcmd = 0x0200000000000000#64 := by decide +kernel

/-- 95 B1: `0xEF & 0xAA` at 970, `0x39 & 0xAA` at 8970. -/
theorem test_blit_b1 : (after (.blit 0x41 5 3 2 .mask) inited).surf.read .surf 970 = 0xAA#8 ∧
    (after (.blit 0x41 5 3 2 .mask) inited).surf.read .surf 8970 = 0x28#8 ∧
    (after (.blit 0x41 5 3 2 .mask) inited).surf.read .surf 9211 = 0x0A#8 := by decide +kernel

/-- 95 B7 to B9: each operand one above its range. -/
theorem test_blit_bounds : (after (.blit 256 0 0 3 .mask) inited).result = .outOfBounds ∧
    (after (.blit 0 40 0 3 .mask) inited).result = .outOfBounds ∧
    (after (.blit 0 0 25 3 .mask) inited).result = .outOfBounds := by decide

/-- 95 B3, B4: inverse before the mask, and in direct mode. -/
theorem test_blitc : (after (.blitc 0x41 6 3 1 .mask true) inited).surf.read .surf 972 = 0x10#8 ∧
    (after (.blitc 0x41 6 3 1 .mask true) inited).surf.read .surf 973 = 0x41#8 ∧
    (after (.blitc 0x41 0 0 0 .direct true) inited).surf.read .surf 1 = 0xEB#8 := by decide +kernel

/-- 95 F1, F3's byte and F6: partial bytes keep the other lanes. -/
theorem test_fill : (after (.fill 3 0 5 1 2) inited).surf.read .surf 0 = 0x1A#8 ∧
    (after (.fill 3 0 5 1 2) inited).surf.read .surf 1 = 0xAA#8 ∧
    (after (.fill 5 2 2 1 1) inited).surf.read .surf 81 = 0x17#8 := by decide +kernel

/-- 95 F9, F10, F16: empty is OK, bounds come first, sums do not wrap. -/
theorem test_fill_bounds : (after (.fill 0 0 0 0 3) inited).result = .ok ∧
    (after (.fill 319 199 0 5 3) inited).result = .outOfBounds ∧
    (after (.fill 319 0 4095 1 0) inited).result = .outOfBounds := by decide

/-- 95 D2: CTX after DRAWBOARD 2; the sixth primitive of quadrant 1 is the mirrored playfield. -/
theorem test_drawboard : (boardPrims testLayout 2).length = 14 ∧
    (boardPrims testLayout 2)[11]? = some (some (.fill 168 108 24 40 1)) ∧
    (boardPrims testLayout 2)[13]? = some (some (.blit 0x25 9 180 3 .direct false)) := by decide +kernel

/-- 95 D5: 0 and 5 players. -/
theorem test_drawboard_bounds : (after (.drawboard 0) playing).result = .outOfBounds ∧
    (after (.drawboard 5) playing).result = .outOfBounds ∧ (after (.drawboard 5) playing).ctx = ⟨6, 2⟩ := by decide

/-- 95 N1: the primitives of DRAWNAME 0, 2, ACTIVE with the name "bO". -/
theorem test_drawname : drawnamePrims 0 2 true playing =
    [some (.blit 0xA2 9 2 3 .mask false), some (.fill 80 2 80 8 2), some (.blit 0x42 10 2 3 .mask true),
      some (.blit 0x4F 11 2 3 .mask true), some (.blit 0x2A 19 2 3 .mask false)] := by decide +kernel

/-- 95 N3, N4: the quadrant and the length out of range. -/
theorem test_drawname_bounds : (after (.drawname 2 0 false) playing).result = .outOfBounds ∧
    (after (.drawname 0 9 false) playing).result = .outOfBounds := by decide

/-- 95 G1: the hit glyph at position 37, the miss glyph at 99. -/
theorem test_renderfield : (after (.renderfield 1) playing).surf.read .surf 5314 = 0x70#8 ∧
    (after (.renderfield 1) playing).surf.read .surf 15479 = 0x3B#8 := by decide +kernel

/-- 95 G8, G11: an inactive quadrant; one bad code rejects the whole command. -/
theorem test_renderfield_bounds : (after (.renderfield 2) playing).result = .outOfBounds ∧
    (after (.renderfield 1) { playing with cellbuf := playing.cellbuf.write 5 3 }).result = .outOfBounds := by
  decide +kernel

/-- 95 G2, G3, G5: blink changes a Hit and not a Miss. -/
theorem test_updatecell : (after (.updatecell 1 37 false) playing).surf.read .surf 5314 = 0x70#8 ∧
    (after (.updatecell 1 37 true) playing).surf.read .surf 5314 = 0xC0#8 ∧
    (after (.updatecell 1 99 true) playing).surf.read .surf 7238 = 0x10#8 := by decide +kernel

/-- 95 G6, G10: an Empty cell changes nothing; position 100 is out of range. -/
theorem test_updatecell_empty : (after (.updatecell 1 0 true) playing).surf = playing.surf ∧
    (after (.updatecell 1 100 false) playing).result = .outOfBounds := by decide +kernel

/-- WAITVSYNC takes one sample a step (R190): a 0 in phase 1 keeps waiting, a 0 in phase 2 ends OK. -/
theorem test_waitvsync :
    (waitStep ⟨.assertion, 0⟩ { State.reset with vsyncIn := [false] }).wait = some ⟨.assertion, 1⟩ ∧
    (waitStep ⟨.deassertion, 4⟩ { State.reset with vsyncIn := [false], result := .notReady }).result = .ok := by
  decide

/-- 95 W7: with VSTO = 4 the fifth turn is the timeout, recorded with the command's word. -/
theorem test_waitvsync_timeout :
    (waitStep ⟨.deassertion, 4⟩ { State.reset with vsto := 4 }).fcode = .syncTimeout ∧
    (waitStep ⟨.deassertion, 4⟩ { State.reset with vsto := 4 }).fcmd = 0x0A00000000000000#64 := by decide

/-- Every command's word, placed after reset, is executed by the next step (95 P5, steps 1 to 4). -/
theorem test_first_step :
    (match step (State.reset.withFetchWord 64 0x0500190000001001) with
      | .next t => decide (t.result = .notReady ∧ t.fcmd = 0x0500190000001001#64 ∧ t.hostActs = [])
      | _ => false) = true ∧
    (match step (State.reset.withFetchWord 64 0x030F000032000000) with
      | .next t => decide (t.result = .illegalCommand)
      | _ => false) = true := by decide

/-! ### The hypotheses of the statements can be met -/

theorem test_layoutWF : layoutWF testLayout = true ∧ layoutConstraints testLayout = true := by decide +kernel

/-- The playing state has the invariant. -/
theorem test_playing_inv : playing.Inv where
  surfWf := by decide +kernel
  atlasWf := by decide +kernel
  cellbufWf := by decide +kernel
  namebufWf := by decide
  ctxAfterInit := by decide
  ctxPlayers := by decide
  ctxOffset := by decide
  fcodeFault := by decide
  fcmdFault := by decide
  resultFault := by decide
  waitBounded := by rintro wt ⟨⟩
  stampsUsed := by decide

/-- A DRAWBOARD is issued: the premises of StepRunsTheDecodedCommand. -/
theorem test_issued : CommandIssued { inited with hostActs := [.write64 0x5100 0x0600002000000000#64] }
    0x0600002000000000#64 [] ∧ decode 0x0600002000000000#64 = .ok (.drawboard 2) := by
  exact ⟨⟨by decide, rfl, rfl⟩, rfl⟩

/-- An illegal word is issued, with a reserved opcode, at both ends of the range, and with a reserved bit: the premises
of IllegalWordOnlyRaisesIllegalCommand. -/
theorem test_issued_illegal :
    CommandIssued { inited with hostActs := [.write64 0x5100 0#64] } 0#64 [] ∧ opField 0#64 = 0 ∧
    CommandIssued { inited with hostActs := [.write64 0x5100 0x0B00000000000000#64] } 0x0B00000000000000#64 [] ∧
    opField 0x0B00000000000000#64 = 0x0B ∧
    CommandIssued { inited with hostActs := [.write64 0x5100 0x0308000000000000#64] } 0x0308000000000000#64 [] ∧
    ∀ r ∈ opcodeTable, 0x0308000000000000#64 &&& r.mask ≠ r.pattern := by
  refine ⟨⟨by decide, rfl, rfl⟩, by decide, ⟨by decide, rfl, rfl⟩, by decide, ⟨by decide, rfl, rfl⟩, by decide⟩

/-- DecodeOfEncodeIsTheCommand, DecodeFollowsTheOpcodeTable. -/
theorem test_encoding_premises : Instr.wellFormed (.fill 4095 0 4095 1 3) = true ∧
    (∃ r ∈ opcodeTable, 0x0A00000000000000#64 &&& r.mask = r.pattern) := by decide

/-- OnlyResetClearsTheFlags: RESET asserted; a step without RESET, flags set, that answers a next state. -/
theorem test_reset_premises : ({ playing with resetIn := [true] } : State).resetIn.head? = some true ∧
    playing.resetIn.head? ≠ some true ∧ (∃ t, step { playing with status := ⟨true, true, true⟩ } = .next t) := by
  exact ⟨rfl, by decide, ⟨_, rfl⟩⟩

/-- RaiseIsTheFaultSequence: a first and a later fault. -/
theorem test_raise_premises : ResultCode.notReady ≠ .ok ∧ inited.status.fault = false ∧
    ({ inited with status := ⟨true, true, true⟩ } : State).status.fault = true := by decide

/-- FaultingCommandChangesOnlyTheFaultRegisters, CommandsSetFlagsAsTheStatusTableSays: a command that faults and one
that does not; NotReadyExactlyBeforeInitOrDrawboard: both clauses, and a NOT_READY result. -/
theorem test_fault_premises :
    (∃ t, exec (.drawboard 0) inited = .next t ∧ t.result = .outOfBounds) ∧
    (∃ t, exec .init State.reset = .next t ∧ t.result = .ok) ∧
    NotReadyCause .rstsurf State.reset ∧ NotReadyCause (.renderfield 0) inited ∧
    (∃ t, exec (.renderfield 0) inited = .next t ∧ t.result = .notReady) := by
  refine ⟨⟨_, rfl, by decide⟩, ⟨_, rfl, rfl⟩, .inl ⟨rfl, rfl⟩, .inr ⟨rfl, rfl⟩, ⟨_, rfl, by decide⟩⟩

/-- OutOfBoundsCausesAreTheTable: a ready command with a cause, one without, and a wait step whose result is
OUT_OF_BOUNDS. -/
theorem test_oob_premises : playing.lrom.nameMax ≤ 16 ∧ ¬ NotReadyCause (.updatecell 1 100 false) playing ∧
    OutOfBoundsCause (.updatecell 1 100 false) playing ∧ ¬ OutOfBoundsCause (.blit 255 39 24 0 .mask) playing ∧
    (waitStep ⟨.assertion, 0⟩ { playing with vsyncIn := [false], result := .outOfBounds }).result = .outOfBounds := by
  refine ⟨by decide, ?_, .inr (.inl (by decide)), ?_, by decide⟩
  · simp [NotReadyCause, playing]
  · simp [OutOfBoundsCause]

/-- RowOffsetFormula, SurfAddrIsABijection, OutByteActsLaneByLane, RepFillsEveryLane: rows, byte columns, offsets and
lanes at both ends of their ranges. -/
theorem test_mapper_premises : (199 : Nat) < 200 ∧ (79 : Nat) < 80 ∧ rowOffset 200 = none ∧ (15999 : Nat) < 16000 ∧
    surfAddr 199 79 = some 15999 ∧ (3 : Nat) < 4 := by decide

/-- BlitWritesTheTile, BlitcWritesTheTile, BlitBytesKeepToTheMask: the three clauses at
their borders; an untouched byte. -/
theorem test_blit_premises : State.reset.status.inited = false ∧ inited.status.inited = true ∧
    ((255 : Nat) ≤ 255 ∧ (39 : Nat) ≤ 39 ∧ (24 : Nat) ≤ 24) ∧ ((255 : Nat) < 256 ∧ (39 : Nat) < 40 ∧ (24 : Nat) < 25) ∧
    (∀ r, r < 8 → ∀ b, b < 2 → surfAddr (8 * 24 + r) (2 * 39 + b) ≠ some 0) := by decide

/-- BlitsAreIdempotent: a canonical Surface and a blit of either kind that ends OK. -/
theorem test_blit_idempotent_premises : inited.surf.wf .surf = true ∧
    (∃ t, exec (.blit 0x41 5 3 2 .mask) inited = .next t ∧ t.result = .ok) ∧
    (∃ t, exec (.blitc 0x41 5 3 2 .mask true) inited = .next t ∧ t.result = .ok) := by
  refine ⟨by decide +kernel, ?_, ?_⟩
  · obtain ⟨m, -, h⟩ := performAndFinish_of_inRange (accs := blitAccesses inited.atlas 0x41 5 24 2 .mask false)
      (blitAccesses_inRange (by decide) (by decide)) inited
    exact ⟨_, h, rfl⟩
  · obtain ⟨m, -, h⟩ := performAndFinish_of_inRange (accs := blitAccesses inited.atlas 0x41 5 24 2 .mask true)
      (blitAccesses_inRange (by decide) (by decide)) inited
    exact ⟨_, h, rfl⟩

/-- FillFollowsItsRule, FillPaintsExactlyTheRectangle: the valid and the invalid clause at their borders, an empty
rectangle, an untouched byte. -/
theorem test_fill_premises : inited.status.inited = true ∧
    ((319 : Nat) ≤ 319 ∧ (199 : Nat) ≤ 199 ∧ 319 + 1 ≤ 320 ∧ 199 + 1 ≤ 200) ∧
    (320 < 319 + 2 ∧ 200 < 199 + 2 ∧ (319 : Nat) < 320 ∧ (199 : Nat) < 200) ∧ ((0 : Nat) = 0 ∨ (5 : Nat) = 0) ∧
    (∀ row, row < 200 → ∀ bcol, bcol < 80 → 199 ≤ row → 79 ≤ bcol → surfAddr row bcol ≠ some 0) := by
  refine ⟨rfl, by decide, by decide, .inl rfl, ?_⟩
  intro row h₁ bcol h₂ h₃ h₄ h
  obtain ⟨-, -, e⟩ := surfAddr_eq_some.1 h
  omega

/-- FillIsIdempotent. -/
theorem test_fill_idempotent_premises : inited.surf.wf .surf = true ∧
    ∃ t, exec (.fill 3 0 5 1 2) inited = .next t ∧ t.result = .ok := by
  refine ⟨by decide +kernel, ?_⟩
  obtain ⟨m, -, h⟩ := performAndFinish_of_inRange (accs := fillAccesses 3 0 5 1 2)
    (fillAccesses_inRange (by decide) (by decide)) inited
  exact ⟨_, h, rfl⟩

/-- PlacementMirrorsAboutThePlayfield, PlacedEntriesStayOnTheSurface: a tile and a rectangle placed either way
(95 section 2.6). -/
theorem test_placement_premises :
    place (.tile 0x20 0x21 (-1) 0 3 .mask) 10 108 .left 0 = some (.blit 0x20 9 108 3 .mask false) ∧
    place (.tile 0x20 0x21 (-1) 0 3 .mask) 10 108 .right 0 = some (.blit 0x21 20 108 3 .mask false) ∧
    place (.rect (-32) 0 24 40 1) 10 108 .left 0 = some (.fill 48 108 24 40 1) ∧
    place (.rect (-32) 0 24 40 1) 10 108 .right 0 = some (.fill 168 108 24 40 1) := by decide

/-- The borders of a valid placement (R146): the last column, row and index, each one more, and a side that is valid
where the other is not. -/
theorem test_placement_borders :
    place (.tile 0x7F 0 39 192 0 .direct) 0 0 .left 0x80 = some (.blit 255 39 192 0 .direct false) ∧
    place (.tile 0x80 0 39 192 0 .direct) 0 0 .left 0x80 = none ∧
    place (.tile 0 0 40 0 0 .direct) 0 0 .left 0 = none ∧ place (.tile 0 0 0 193 0 .direct) 0 0 .left 0 = none ∧
    place (.tile 0 7 10 0 0 .direct) 0 0 .left 0 = some (.blit 0 10 0 0 .direct false) ∧
    place (.tile 0 7 10 0 0 .direct) 0 0 .right 0 = none ∧
    place (.rect 240 120 80 80 0) 0 0 .left 0 = some (.fill 240 120 80 80 0) ∧
    place (.rect 241 120 80 80 0) 0 0 .left 0 = none ∧ place (.rect 0 0 80 80 0) 31 0 .right 0 = none := by decide

/-- DrawboardFollowsItsRule, WellFormedStoreDrawsEveryBoard: an INVALID placement, and a valid board. -/
theorem test_drawboard_premises : none ∈ boardPrims offLayout 1 ∧
    (∃ ps : List Prim, boardPrims inited.lrom 4 = ps.map some) ∧ layoutWF inited.lrom = true ∧
    inited.status.inited = true := by
  refine ⟨by decide +kernel, ?_, test_layoutWF.1, rfl⟩
  cases h : allValid (boardPrims inited.lrom 4) with
  | none =>
    have : (allValid (boardPrims inited.lrom 4)).isSome = true := by decide +kernel
    simp [h] at this
  | some ps => exact ⟨ps, allValid_eq_some.1 h⟩

/-- BoardPrimitivesAreTheFiveLists: every active quadrant of four has an origin and a flank list. -/
theorem test_board_prims_premises : ∀ i, i < 4 → (originOf testLayout i).isSome = true ∧
    ((cornerStyleOf testLayout i 4).bind fun style => testLayout.flank[style]?) =
      some [.tile 0x20 0x21 (-1) 0 3 .mask, .tile 0x21 0x20 10 0 3 .mask] := by decide

/-- DrawboardIsIdempotent. -/
theorem test_drawboard_idempotent_premises : inited.surf.wf .surf = true ∧
    ∃ t, exec (.drawboard 2) inited = .next t ∧ t.result = .ok := by
  refine ⟨by decide +kernel, ?_⟩
  have h : (boardPlan 2 inited).isOk = true := by decide +kernel
  cases hp : boardPlan 2 inited with
  | error c => simp [hp, Except.isOk, Except.toBool] at h
  | ok accs =>
    obtain ⟨m, -, hm⟩ := performAndFinish_of_inRange (boardPlan_inRange hp) (setContext (fofsOf inited.lrom 2) 2 inited)
    exact ⟨_, by simpa [exec, execDrawboard, hp] using hm, rfl⟩

/-- DrawnamePrimitivesAreBorderTextMarker, DrawnameFollowsItsRule, WellFormedStoreDrawsEveryName: an origin, an ASCII
name of the longest and shortest tested length, a name byte of 0x80, valid primitives. -/
theorem test_drawname_premises : originOf playing.lrom 1 = some ⟨4, 108⟩ ∧ playing.status.ctxValid = true ∧
    1 < playing.ctx.pcnt.toNat ∧ 2 ≤ playing.lrom.nameMax ∧
    (∀ k, k < 2 → (playing.namebuf.read .namebuf k).toNat < 0x80) ∧
    0x80 ≤ (({ playing with namebuf := playing.namebuf.write 1 0x80 } : State).namebuf.read .namebuf 1).toNat ∧
    drawnamePrims 1 0 false playing =
      [Prim.blit 0x23 20 98 3 .mask false, Prim.fill 80 98 80 8 2].map some ∧
    none ∈ drawnamePrims 0 0 true { playing with lrom := { testLayout with markerDxLeft := 40 } } := by
  decide +kernel

/-- GlyphLookupFoldsCase: a lower-case letter at each end, and the codes beside them. -/
theorem test_glyph_premises : (0x7F#8).toNat < 0x80 ∧ glyphOf testLayout 0x61 = 0x41 ∧ glyphOf testLayout 0x7A = 0x5A ∧
    glyphOf testLayout 0x60 = 0x60 ∧ glyphOf testLayout 0x7B = 0x7B := by decide +kernel

/-- RenderfieldPaintsEveryMarkedCell, UpdatecellPaintsOneCell: all premises of the drawing clauses together, with
`test_playing_inv`; a bad code, and an INVALID mark. -/
theorem test_field_premises : layoutWF playing.lrom = true ∧ playing.status.ctxValid = true ∧
    1 < playing.ctx.pcnt.toNat ∧ originOf playing.lrom 1 = some ⟨4, 108⟩ ∧
    (∀ p, p < 100 → (playing.cellbuf.read .cellbuf p).toNat ≤ 2) ∧
    2 < (({ playing with cellbuf := playing.cellbuf.write 5 3 } : State).cellbuf.read .cellbuf 5).toNat ∧
    none ∈ cellPrims 1 false { playing with ctx := ⟨15, 2⟩, lrom := { testLayout with qorigin := #v[⟨39, 0⟩, ⟨39, 0⟩, ⟨0, 0⟩, ⟨0, 0⟩] } } 37 := by
  refine ⟨test_layoutWF.1, by decide, by decide, by decide, by decide +kernel, by decide +kernel, by decide +kernel⟩

/-- RstsurfEqualsFullBackgroundFill, RstsurfIsItsAscendingWrites. -/
theorem test_rstsurf_premises : inited.status.inited = true ∧ inited.surf.wf .surf = true ∧
    ∃ t, exec .rstsurf inited = .next t := ⟨rfl, by decide +kernel, ⟨_, rfl⟩⟩

/-- WaitvsyncEndsAfterAssertionAndDeassertion: 95 W1 (VSTO 0) and W6 (VSTO 5) with `a` = 2, `b` = 4. -/
theorem test_wait_ok_premises :
    let s : State := { State.reset with vsto := 5, vsyncIn := [false, false, true, true, false] }
    s.resetIn = [] ∧ s.wait = none ∧ (∀ k, k < 2 → vsyncAhead s k = false) ∧ vsyncAhead s 2 = true ∧
    vsyncAhead s 3 = true ∧ vsyncAhead s 4 = false ∧ 4 + 1 ≤ s.vsto.toNat ∧ State.reset.vsto = 0 := by decide

/-- WaitvsyncTimesOut: 95 W7 (VSTO 4), and W9 (VSTO 1, the shortest). -/
theorem test_wait_timeout_premises :
    let s : State := { State.reset with vsto := 4, vsyncIn := [false, false, true, true, false] }
    s.resetIn = [] ∧ s.wait = none ∧ s.vsto ≠ 0 ∧
    (∀ b, b < s.vsto.toNat → ∀ a, a < b → vsyncAhead s a = true → vsyncAhead s b = true) := by decide

/-- UnboundedWaitvsyncMayHang: 95 W14, W15, as far as the input reaches. -/
theorem test_wait_hang_premises :
    let s : State := { State.reset with vsyncIn := [false, false, true, true] }
    s.resetIn = [] ∧ s.wait = none ∧ s.vsto = 0 ∧
    (∀ b, b < 4 → ∀ a, a < b → vsyncAhead s a = true → vsyncAhead s b = true) := by decide

/-- VsyncIsSampledOnlyByWaitvsync, LayoutStoreNeverChanges, EveryStepKeepsInv (with `test_playing_inv`): a step of an
idle engine. -/
theorem test_idle_step_premises : playing.wait = none ∧ ∃ t, step playing = .next t := ⟨rfl, ⟨_, rfl⟩⟩

/-- WaitHoldsTheHost: a wait with an access held back. -/
theorem test_wait_holds_premises :
    let s : State := { playing with wait := some ⟨.assertion, 0⟩, hostActs := [.write8 0 1] }
    s.wait = some ⟨.assertion, 0⟩ ∧ s.resetIn.head? ≠ some true ∧ ∃ t, step s = .next t :=
  ⟨rfl, by decide, ⟨_, rfl⟩⟩

/-- HostBytesReadBack: the same byte, and bytes of different memories. -/
theorem test_host_bytes_premises :
    ({ inited with hostActs := [.write8 0x3E7F 5, .read8 0x3E7F] } : State).hostActs =
      [.write8 0x3E7F 5, .read8 0x3E7F] ∧ windowByte 0x3E7F = .mem .surf 15999 ∧
    windowByte 0x4FFF = .mem .atlas 4095 ∧ windowByte 0x5063 = .mem .cellbuf 99 ∧
    windowByte 0x508F = .mem .namebuf 15 ∧ inited.wait = none ∧ inited.resetIn = [] := by decide

/-- WindowMap: the borders of the unassigned ranges and of REG. -/
theorem test_window_borders :
    ([0x3E80, 0x3FFF, 0x5064, 0x507F, 0x5090, 0x50FF, 0x5128, 0x100000].all
      fun off => windowByte off == .unassigned) = true ∧
    ([0x5100, 0x5124, 0x5127].all fun off => windowByte off == .reg) = true := by decide

/-- UndefinedRegisterAccessIsRefused, clause REG, in every form: a byte, a narrow read of FCMD, a wide access of STATUS
and VSTO, one that begins below REG, and REG's last byte. -/
theorem test_reg_refused_premises :
    ∀ act ∈ [HostAction.read8 0x5108, .write8 0x5127 0, .read32 0x5118, .write32 0x50FD 0, .read64 0x5108,
      .write64 0x5120 0, .read64 0x50F9, .write32 0x5127 0], act.meetsReg ∧ ¬ act.isRegisterAccess := by
  simp [HostAction.meetsReg, HostAction.meets, HostAction.offset, HostAction.width, HostAction.isRegisterAccess]

/-- UndefinedRegisterAccessIsRefused, clause memories: each memory at its first or last byte, from outside too. -/
theorem test_wide_refused_premises :
    ∀ act ∈ [HostAction.read32 0, .write64 0x3E7F 0, .read64 0x3FF9, .write32 0x4FFF 0, .read32 0x5063,
      .write32 0x507D 0, .read64 0x508F], 1 < act.width ∧ act.meetsMemory ∧ ¬ act.meetsReg := by
  simp [HostAction.meetsReg, HostAction.meetsMemory, HostAction.meets, HostAction.offset, HostAction.width]

/-- RegisterAccesses, HostReadsHaveNoSideEffect: CTX valid and not; a read that answers. -/
theorem test_register_premises : playing.status.ctxValid = true ∧ inited.status.ctxValid = false ∧
    ∃ t, hostAccess (.read32 0x5108) playing = .next t := ⟨rfl, rfl, ⟨_, rfl⟩⟩

/-- StepStopsOnlyAtUndefinedHostAccess: a byte access to a register, and a wide access to a memory. -/
theorem test_refused_premises :
    step { inited with hostActs := [.read8 0x5109] } = .refused (.registerAccessNotDefined 0x5109) ∧
    step { inited with hostActs := [.write64 0x4000 0] } = .refused (.wideMemoryAccess 0x4000) := ⟨rfl, rfl⟩

/-- CtxIsWrittenOnlyByDrawboard: the step that executes DRAWBOARD 2 changes CTX. -/
theorem test_ctx_written_premises :
    ∃ t, step { inited with hostActs := [.write64 0x5100 0x0600002000000000#64] } = .next t ∧ t.ctx ≠ inited.ctx := by
  have h : (boardPlan 2 (afterIssue inited [])).isOk = true := by decide +kernel
  cases hp : boardPlan 2 (afterIssue inited []) with
  | error c => simp [hp, Except.isOk, Except.toBool] at h
  | ok accs =>
    obtain ⟨m, -, hm⟩ := performAndFinish_of_inRange (boardPlan_inRange hp)
      (setContext (fofsOf inited.lrom 2) 2 (afterIssue inited []))
    have h' : execDrawboard 2 (afterIssue inited []) = .next
        { setContext (fofsOf inited.lrom 2) 2 (afterIssue inited []) with surf := m, result := .ok } := by
      simp only [execDrawboard, hp]
      exact hm
    exact ⟨_, h', (by decide : (setContext (fofsOf inited.lrom 2) 2 (afterIssue inited [])).ctx ≠ inited.ctx)⟩

/-- AccessSequenceEndsInTheFinalSurface: a command that draws and one that faults. -/
theorem test_access_premises : playing.surf.wf .surf = true ∧ (accessesOf (.updatecell 1 37 false) playing).length = 16 ∧
    (∃ t, exec (.drawboard 0) playing = .next t ∧ t.result ≠ .ok) := by
  refine ⟨by decide +kernel, by decide +kernel, ⟨_, rfl, by decide⟩⟩

/-- The order of R66: a tile left byte first and rows downward, a rectangle of two rows with start, middle and end
byte, and a composite command's primitives (95 N1: five of them, the second a rectangle of 8 rows of 20 bytes). The
premises of the order clauses of AccessSequenceEndsInTheFinalSurface hold of these states and operands. -/
theorem test_access_order :
    (places (accessesOf (.blit 0x41 5 3 2 .mask) inited)).take 3 = [(24, 10), (24, 11), (25, 10)] ∧
    places (accessesOf (.fill 3 198 10 2 1) inited) =
      [(198, 0), (198, 1), (198, 2), (198, 3), (199, 0), (199, 1), (199, 2), (199, 3)] ∧
    (places (accessesOf (.drawname 0 2 true) playing)).length = 16 + 160 + 16 + 16 + 16 ∧
    (places (accessesOf (.renderfield 1) playing)).length = 16 + 16 ∧
    (∀ k, k < 2 → (playing.namebuf.read .namebuf k).toNat < 0x80) ∧
    (∀ p, p < 100 → (playing.cellbuf.read .cellbuf p).toNat ≤ 2) := by decide +kernel

end Sys2Proof.Tests
end

/-! What a command can do, said once: the decoder's DRAWBOARD, the plans' fault codes, and the ways a command ends. -/

namespace Sys2Proof.Machine

open Sys2Proof

/-! ### What a command can do, said once -/

theorem acceptIf_eq_ok {b : Bool} {op : Nat} {i j : Instr} : acceptIf b op i = .ok j ↔ b = true ∧ i = j := by
  cases b <;> simp [acceptIf]

theorem zeroBits_eq_true {v : CmdWord} {hi lo : Nat} : zeroBits v hi lo = true ↔ CmdWord.bits v hi lo = 0 :=
  decide_eq_true_iff

/-- A word is the packing of its six fields (30_encoding.md R81). -/
theorem packWord_fields (v : CmdWord) :
    packWord (opField v) (attrField v) (slotA v) (slotB v) (slotC v) (slotD v) = v := by
  have hv := v.isLt
  apply BitVec.eq_of_toNat_eq
  simp only [packWord, opField, attrField, slotA, slotB, slotC, slotD, CmdWord.bits, BitVec.toNat_ofNat]
  omega

/-- Only DRAWBOARD's own word decodes to it: FCMD of a DRAWBOARD is the word the host wrote (30_encoding.md R89). -/
theorem encode_of_decode_drawboard {v : CmdWord} {n : Nat} (h : decode v = .ok (.drawboard n)) :
    encode (.drawboard n) = v := by
  have key : opField v = 0x06 ∧ (zeroBits v 55 48 && zeroBits v 35 0) = true ∧ slotA v = n := by
    unfold decode at h
    split at h <;> simp only [acceptIf_eq_ok, reduceCtorEq, and_false, Instr.drawboard.injEq] at h
    next hop => exact ⟨hop, h⟩
  obtain ⟨hop, hzero, rfl⟩ := key
  simp only [Bool.and_eq_true, zeroBits_eq_true, CmdWord.bits] at hzero
  obtain ⟨hattr, hlow⟩ := hzero
  have hB : slotB v = 0 := by simp only [slotB, CmdWord.bits]; omega
  have hC : slotC v = 0 := by simp only [slotC, CmdWord.bits]; omega
  have hD : slotD v = 0 := by simp only [slotD, CmdWord.bits]; omega
  have hA : attrField v = 0 := hattr
  calc encode (.drawboard (slotA v))
      = packWord (opField v) (attrField v) (slotA v) (slotB v) (slotC v) (slotD v) := by
        rw [hop, hA, hB, hC, hD]; rfl
    _ = v := packWord_fields v

/-! No plan's fault code is OK. -/

theorem composePlan_ne_errorOk {atlas : Mem} {prims : List (Option Prim)} : composePlan atlas prims ≠ .error .ok :=
  fun h => by simpa using composePlan_error.1 h

theorem blitPlan_ne_errorOk {tile x y : Nat} {color : Color} {mode : MaskMode} {inv : Bool} {s : State} :
    blitPlan tile x y color mode inv s ≠ .error .ok := by
  unfold blitPlan; split_ifs <;> simp

theorem fillPlan_ne_errorOk {x y w h : Nat} {color : Color} {s : State} : fillPlan x y w h color s ≠ .error .ok := by
  unfold fillPlan; split_ifs <;> simp

theorem boardPlan_ne_errorOk {n : Nat} {s : State} : boardPlan n s ≠ .error .ok := by
  unfold boardPlan; split_ifs <;> simp [composePlan_ne_errorOk]

theorem namePlan_ne_errorOk {q len : Nat} {active : Bool} {s : State} : namePlan q len active s ≠ .error .ok := by
  unfold namePlan; split_ifs <;> simp [composePlan_ne_errorOk]

theorem fieldPlan_ne_errorOk {q : Nat} {s : State} : fieldPlan q s ≠ .error .ok := by
  unfold fieldPlan; split_ifs <;> simp [composePlan_ne_errorOk]

theorem cellPlan_ne_errorOk {q pos : Nat} {blink : Bool} {s : State} : cellPlan q pos blink s ≠ .error .ok := by
  unfold cellPlan; split_ifs <;> simp [composePlan_ne_errorOk]

/-- A DRAWBOARD that passes its checks comes after INIT and has 1 to 4 players (43_board_composer.md R150). -/
theorem boardPlan_ok {n : Nat} {s : State} {accs : List Access} (h : boardPlan n s = .ok accs) :
    s.status.inited = true ∧ 1 ≤ n ∧ n ≤ 4 := by
  unfold boardPlan at h
  split_ifs at h with hinit hn
  simp only [initedReady, playersInRange, Bool.not_eq_true', Bool.not_eq_false, Bool.and_eq_true,
    decide_eq_true_eq] at hinit hn
  exact ⟨hinit, hn⟩

/-- `m'` is a later content of the Surface `m`: no new free draw, and canonical if `m` was. -/
structure SurfaceKept (m m' : Mem) : Prop where
  stamp : m'.stamp = m.stamp
  wf : m.wf .surf = true → m'.wf .surf = true

theorem SurfaceKept.of_accesses {accs : List Access} {m m' : Mem} (h : applyAccesses accs m = some m') :
    SurfaceKept m m' :=
  ⟨applyAccesses_stamp h, fun hm => applyAccesses_wf hm h⟩

/-- The states in which the step that executes command `i` in state `s` can end; `exec_next` ties it to `exec`. -/
inductive CommandEnd (i : Instr) (s : State) : State → Prop
  /-- The fault sequence, and nothing else (60_exceptions.md R205, R206). -/
  | fault (c : ResultCode) (hc : c ≠ .ok) (hinit : i ≠ .init) (hwait : i ≠ .waitvsync) :
      CommandEnd i s (raise c (encode i) s)
  /-- INIT (45_surface_control.md R186). -/
  | init (hi : i = .init) :
      CommandEnd i s (finishOk (setInited
        { s with
          modeReqPulses := s.modeReqPulses + 1
          surf := Mem.unspecified s.fresh
          fresh := s.fresh + 1 }))
  /-- WAITVSYNC has started (45_surface_control.md R190). -/
  | waits (hi : i = .waitvsync) : CommandEnd i s { s with wait := some ⟨.assertion, 0⟩ }
  /-- A DRAWBOARD that ended OK (43_board_composer.md R150). -/
  | board (n : Nat) (m : Mem) (hi : i = .drawboard n) (hinited : s.status.inited = true) (h1 : 1 ≤ n) (h4 : n ≤ 4)
      (hm : SurfaceKept s.surf m) :
      CommandEnd i s { setContext (fofsOf s.lrom n) n s with surf := m, result := .ok }
  /-- Any other drawing command that ended OK: only SURF and RESULT change. -/
  | drew (m : Mem) (hinit : i ≠ .init) (hwait : i ≠ .waitvsync) (hboard : ∀ n, i ≠ .drawboard n)
      (hm : SurfaceKept s.surf m) : CommandEnd i s { s with surf := m, result := .ok }

/-- A planned command ends in the fault sequence, or draws. -/
theorem CommandEnd.of_runPlan {i : Instr} {plan : Except ResultCode (List Access)} {s t : State}
    (h : runPlan (encode i) plan s = .next t) (hplan : plan ≠ .error .ok)
    (hinit : i ≠ .init) (hwait : i ≠ .waitvsync) (hboard : ∀ n, i ≠ .drawboard n) : CommandEnd i s t := by
  obtain ⟨c, rfl, rfl⟩ | ⟨accs, m, -, hm, rfl⟩ := runPlan_next h
  · exact .fault c (by rintro rfl; exact hplan rfl) hinit hwait
  · exact .drew m hinit hwait hboard (.of_accesses hm)

theorem CommandEnd.of_drawboard {n : Nat} {s t : State} (h : execDrawboard n s = .next t) :
    CommandEnd (.drawboard n) s t := by
  unfold execDrawboard at h
  split at h
  · next c hp =>
    cases h
    exact .fault c (by rintro rfl; exact boardPlan_ne_errorOk hp) (by simp) (by simp)
  · next accs hp =>
    obtain ⟨hinited, h1, h4⟩ := boardPlan_ok hp
    obtain ⟨m, hm, rfl⟩ := performAndFinish_next h
    exact .board n m rfl hinited h1 h4 (.of_accesses hm)

theorem CommandEnd.of_rstsurf {s t : State} (h : execRstsurf s = .next t) : CommandEnd .rstsurf s t := by
  unfold execRstsurf at h
  split_ifs at h
  · cases h; exact .fault .notReady (by simp) (by simp) (by simp)
  · cases h; exact .drew s.surf.cleared (by simp) (by simp) (by simp) ⟨rfl, fun _ => Mem.wf_cleared _⟩

/-- Everything a command can do, if it answers a next state. -/
theorem exec_next {i : Instr} {s t : State} (h : exec i s = .next t) : CommandEnd i s t := by
  cases i with
  | init => cases h; exact .init rfl
  | rstsurf => exact .of_rstsurf h
  | blit => exact .of_runPlan h (blitPlan_ne_errorOk) (by simp) (by simp) (by simp)
  | blitc => exact .of_runPlan h (blitPlan_ne_errorOk) (by simp) (by simp) (by simp)
  | fill => exact .of_runPlan h (fillPlan_ne_errorOk) (by simp) (by simp) (by simp)
  | drawboard n => exact .of_drawboard h
  | drawname => exact .of_runPlan h (namePlan_ne_errorOk) (by simp) (by simp) (by simp)
  | renderfield => exact .of_runPlan h (fieldPlan_ne_errorOk) (by simp) (by simp) (by simp)
  | updatecell => exact .of_runPlan h (cellPlan_ne_errorOk) (by simp) (by simp) (by simp)
  | waitvsync => cases h; exact .waits rfl

/-- Every command answers a next state: none stops the machine. -/
theorem exec_answers (i : Instr) (s : State) : ∃ t, exec i s = .next t := by
  cases i with
  | init => exact ⟨_, rfl⟩
  | rstsurf =>
    simp only [exec, execRstsurf]
    split_ifs
    · exact ⟨_, rfl⟩
    · exact ⟨_, rfl⟩
  | blit => exact runPlan_answers fun _ => blitPlan_inRange
  | blitc => exact runPlan_answers fun _ => blitPlan_inRange
  | fill => exact runPlan_answers fun _ => fillPlan_inRange
  | drawboard n =>
    simp only [exec, execDrawboard]
    split
    · exact ⟨_, rfl⟩
    · next hp =>
      obtain ⟨m, -, hm⟩ := performAndFinish_of_inRange (boardPlan_inRange hp) (setContext (fofsOf s.lrom n) n s)
      exact ⟨_, hm⟩
  | drawname => exact runPlan_answers fun _ => namePlan_inRange
  | renderfield => exact runPlan_answers fun _ => fieldPlan_inRange
  | updatecell => exact runPlan_answers fun _ => cellPlan_inRange
  | waitvsync => exact ⟨_, rfl⟩

/-- A word at the command port is executed, or ends with ILLEGAL_COMMAND (10_state.md R29). -/
theorem runWord_next {w : CmdWord} {s t : State} (h : runWord w s = .next t) :
    (∃ i, decode w = .ok i ∧ CommandEnd i s t) ∨ t = raise .illegalCommand w s := by
  unfold runWord at h
  split at h
  · next i hi => exact .inl ⟨i, hi, exec_next h⟩
  · cases h; exact .inr rfl

theorem runWord_answers (w : CmdWord) (s : State) : ∃ t, runWord w s = .next t := by
  unfold runWord
  split
  · exact exec_answers _ s
  · exact ⟨_, rfl⟩

end Sys2Proof.Machine

/-! What an access of the host and a step can do: the fields a byte write keeps, the step by the situation of the engine,
what nothing but reset changes, and which accesses answer. -/

namespace Sys2Proof.Machine

open Sys2Proof

/-! ### What stands after a byte is written to a memory -/

section SetMem

variable (sp : Space) (m : Mem) (s : State)

@[simp] theorem setMem_status : (setMem sp m s).status = s.status := by cases sp <;> rfl
@[simp] theorem setMem_result : (setMem sp m s).result = s.result := by cases sp <;> rfl
@[simp] theorem setMem_fcode : (setMem sp m s).fcode = s.fcode := by cases sp <;> rfl
@[simp] theorem setMem_fcmd : (setMem sp m s).fcmd = s.fcmd := by cases sp <;> rfl
@[simp] theorem setMem_ctx : (setMem sp m s).ctx = s.ctx := by cases sp <;> rfl
@[simp] theorem setMem_vsto : (setMem sp m s).vsto = s.vsto := by cases sp <;> rfl
@[simp] theorem setMem_lrom : (setMem sp m s).lrom = s.lrom := by cases sp <;> rfl
@[simp] theorem setMem_wait : (setMem sp m s).wait = s.wait := by cases sp <;> rfl
@[simp] theorem setMem_modeReqPulses : (setMem sp m s).modeReqPulses = s.modeReqPulses := by cases sp <;> rfl
@[simp] theorem setMem_vsyncIn : (setMem sp m s).vsyncIn = s.vsyncIn := by cases sp <;> rfl
@[simp] theorem setMem_resetIn : (setMem sp m s).resetIn = s.resetIn := by cases sp <;> rfl
@[simp] theorem setMem_hostActs : (setMem sp m s).hostActs = s.hostActs := by cases sp <;> rfl
@[simp] theorem setMem_hostData : (setMem sp m s).hostData = s.hostData := by cases sp <;> rfl
@[simp] theorem setMem_fresh : (setMem sp m s).fresh = s.fresh := by cases sp <;> rfl

end SetMem

@[simp] theorem memOf_afterIssue (sp : Space) (s : State) (rest : List HostAction) :
    memOf sp (afterIssue s rest) = memOf sp s := by cases sp <;> rfl

@[simp] theorem memOf_returnToHost (sp : Space) (d : BitVec 64) (s : State) :
    memOf sp (returnToHost d s) = memOf sp s := by cases sp <;> rfl

/-- Every byte of every memory after one byte was written, in one equation. -/
theorem read_setMem_write (sp sp' : Space) (a a' : Nat) (v : Byte) (s : State) :
    (memOf sp' (setMem sp ((memOf sp s).write a v) s)).read sp' a' =
      if sp' = sp ∧ a' = a then v else (memOf sp' s).read sp' a' := by
  rw [memOf_setMem]
  by_cases hsp : sp' = sp
  · subst hsp; simp [Mem.read_write]
  · simp [hsp]

/-! ### The step, by the situation of the engine -/

/-- An asserted RESET is all that the step does (70_reset_and_hazards.md R230). -/
theorem step_reset {s : State} (hr : s.resetIn.head? = some true) :
    step s = .next (applyReset { s with resetIn := s.resetIn.tail }) := by
  obtain ⟨rest, hs⟩ := List.head?_eq_some_iff.1 hr
  simp [step, stepOnce, hs]

/-- A step without reset runs the engine, after one level of RESET was taken. -/
theorem step_eq_runStep {s : State} (hr : s.resetIn.head? ≠ some true) :
    step s = runStep { s with resetIn := s.resetIn.tail } := by
  unfold step stepOnce
  split
  · next hs =>
    congr 1
    cases s; simp_all
  · next rest hs => simp [hs]
  · next rest hs => simp [hs] at hr

/-- An idle engine makes the host's next access (10_state.md R40). -/
theorem step_access {s : State} {act : HostAction} {rest : List HostAction} (hr : s.resetIn.head? ≠ some true)
    (hw : s.wait = none) (ha : s.hostActs = act :: rest) : step s = hostAccess act (afterIssue s rest) := by
  simp [step_eq_runStep hr, runStep, hw, ha, afterIssue]

/-- A step answers a next state, or it is the host's next access. -/
theorem step_answers_or_access (s : State) :
    (∃ t, step s = .next t) ∨
      (s.resetIn.head? ≠ some true ∧ s.wait = none ∧
        ∃ act rest, s.hostActs = act :: rest ∧ step s = hostAccess act (afterIssue s rest)) := by
  by_cases hr : s.resetIn.head? = some true
  · exact .inl ⟨_, step_reset hr⟩
  cases hw : s.wait with
  | some wt => exact .inl ⟨_, step_waiting hr hw⟩
  | none =>
    cases ha : s.hostActs with
    | nil => exact .inl ⟨_, by simp [step_eq_runStep hr, runStep, hw, ha]; rfl⟩
    | cons act rest => exact .inr ⟨hr, rfl, act, rest, rfl, step_access hr hw ha⟩

/-! ### What no command, no access and no turn of a wait changes -/

/-- A command leaves the layout store, VSTO, the inputs to come and the host's data as they were. -/
theorem CommandEnd.frame {i : Instr} {s t : State} (h : CommandEnd i s t) :
    t.lrom = s.lrom ∧ t.vsto = s.vsto ∧ t.vsyncIn = s.vsyncIn ∧ t.resetIn = s.resetIn ∧ t.hostActs = s.hostActs ∧
      t.hostData = s.hostData := by
  cases h <;> simp

/-- So does a word at the command port. -/
theorem runWord_frame {w : CmdWord} {s t : State} (h : runWord w s = .next t) :
    t.lrom = s.lrom ∧ t.vsto = s.vsto ∧ t.vsyncIn = s.vsyncIn ∧ t.resetIn = s.resetIn ∧ t.hostActs = s.hostActs ∧
      t.hostData = s.hostData := by
  obtain ⟨i, -, hi⟩ | rfl := runWord_next h
  · exact hi.frame
  · simp

/-- A host access leaves the layout store and the inputs to come as they were. -/
theorem hostAccess_frame {act : HostAction} {s t : State} (h : hostAccess act s = .next t) :
    t.lrom = s.lrom ∧ t.vsyncIn = s.vsyncIn ∧ t.resetIn = s.resetIn ∧ t.hostActs = s.hostActs := by
  obtain ⟨w, -, hw⟩ | ⟨sp, a, v, -, rfl⟩ | ⟨v, -, rfl⟩ | ⟨d, k, -, rfl⟩ := hostAccess_next h
  · obtain ⟨hlrom, -, hvsync, hreset, hacts, -⟩ := runWord_frame hw
    exact ⟨hlrom, hvsync, hreset, hacts⟩
  · simp
  · simp
  · simp

/-- A turn of a wait touches RESULT, the fault registers, the wait and the VSYNC input only (10_state.md R40). -/
theorem waitStep_frame (wt : Wait) (s : State) :
    (waitStep wt s).hostActs = s.hostActs ∧ (waitStep wt s).surf = s.surf ∧ (waitStep wt s).atlas = s.atlas ∧
      (waitStep wt s).cellbuf = s.cellbuf ∧ (waitStep wt s).namebuf = s.namebuf ∧ (waitStep wt s).ctx = s.ctx ∧
      (waitStep wt s).vsto = s.vsto ∧ (waitStep wt s).modeReqPulses = s.modeReqPulses ∧
      (waitStep wt s).lrom = s.lrom ∧ (waitStep wt s).resetIn = s.resetIn := by
  obtain ⟨-, -, h⟩ | ⟨-, vs, k, -, h | ⟨ph, h⟩⟩ := waitStep_cases wt s <;> simp [h]

/-! ### A byte access, by what stands at its offset (10_state.md R22) -/

theorem hostRead8_of_mem {off a : Nat} {sp : Space} (h : windowByte off = .mem sp a) (s : State) :
    hostRead8 off s = .next (returnToHost (((memOf sp s).read sp a).setWidth 64) s) := by
  simp [hostRead8, h]

theorem hostWrite8_of_mem {off a : Nat} {sp : Space} (h : windowByte off = .mem sp a) (v : Byte) (s : State) :
    hostWrite8 off v s = .next (setMem sp ((memOf sp s).write a v) s) := by
  simp [hostWrite8, h]

theorem hostRead8_of_reg {off : Nat} (h : windowByte off = .reg) (s : State) :
    hostRead8 off s = otherAccess off 1 s := by
  simp [hostRead8, h]

theorem hostWrite8_of_reg {off : Nat} (h : windowByte off = .reg) (v : Byte) (s : State) :
    hostWrite8 off v s = otherAccess off 1 s := by
  simp [hostWrite8, h]

theorem hostRead8_of_unassigned {off : Nat} (h : windowByte off = .unassigned) (s : State) :
    hostRead8 off s = .next (returnUnspecified 8 s) := by
  simp [hostRead8, h]

theorem hostWrite8_of_unassigned {off : Nat} (h : windowByte off = .unassigned) (v : Byte) (s : State) :
    hostWrite8 off v s = .next s := by
  simp [hostWrite8, h]

/-! ### Which host accesses answer, and what stops the others -/

theorem HostAction.width_pos (act : HostAction) : 0 < act.width := by cases act <;> simp [HostAction.width]

theorem HostAction.width_le (act : HostAction) : act.width ≤ 8 := by cases act <;> simp [HostAction.width]

/-- The byte memories in three runs of offsets: ATLAS and CELLBUF adjoin each other (10_state.md R22). -/
theorem HostAction.meetsMemory_iff (act : HostAction) :
    act.meetsMemory ↔ act.offset < 0x3E80 ∨ 0x4000 < act.offset + act.width ∧ act.offset < 0x5064 ∨
      0x5080 < act.offset + act.width ∧ act.offset < 0x5090 := by
  have := act.width_pos
  simp only [HostAction.meetsMemory, HostAction.meets]
  omega

/-- An aligned full-width access to one register always answers (10_state.md R28). -/
theorem hostAccess_register_answers {act : HostAction} (h : act.isRegisterAccess) (s : State) :
    ∃ t, hostAccess act s = .next t := by
  cases act <;> simp only [HostAction.isRegisterAccess, List.mem_cons, List.not_mem_nil, or_false] at h
  case read32 => obtain rfl | rfl | rfl | rfl | rfl := h <;> exact ⟨_, rfl⟩
  case write32 => obtain rfl | rfl | rfl | rfl | rfl := h <;> exact ⟨_, rfl⟩
  case read64 => obtain rfl | rfl := h <;> exact ⟨_, rfl⟩
  case write64 off w =>
    obtain rfl | rfl := h
    · exact runWord_answers w s
    · exact ⟨_, rfl⟩

/-- A byte access outside REG always answers (10_state.md R22). -/
theorem hostAccess_byte_answers {act : HostAction} (hw : act.width = 1) (h : ¬ act.meetsReg) (s : State) :
    ∃ t, hostAccess act s = .next t := by
  have hreg : windowByte act.offset ≠ .reg := by
    rw [Ne, windowByte_eq_reg]
    simp only [HostAction.meetsReg, HostAction.meets, hw] at h
    omega
  cases act with
  | read8 off =>
    cases hb : windowByte off with
    | mem sp a => exact ⟨_, hostRead8_of_mem hb s⟩
    | reg => exact absurd hb hreg
    | unassigned => exact ⟨_, hostRead8_of_unassigned hb s⟩
  | write8 off v =>
    cases hb : windowByte off with
    | mem sp a => exact ⟨_, hostWrite8_of_mem hb v s⟩
    | reg => exact absurd hb hreg
    | unassigned => exact ⟨_, hostWrite8_of_unassigned hb v s⟩
  | _ => simp [HostAction.width] at hw

/-! An offset at which no register of the access's width begins goes to the port's last case. -/

theorem hostRead32_of_no_register {off : Nat} (h : off ∉ [0x5108, 0x510C, 0x5110, 0x5114, 0x5120]) (s : State) :
    hostRead32 off s = otherAccess off 4 (returnUnspecified 32 s) := by
  unfold hostRead32; split <;> simp_all

theorem hostWrite32_of_no_register {off : Nat} (h : off ∉ [0x5108, 0x510C, 0x5110, 0x5114, 0x5120]) (v : Word32)
    (s : State) : hostWrite32 off v s = otherAccess off 4 s := by
  unfold hostWrite32; split <;> simp_all

theorem hostRead64_of_no_register {off : Nat} (h : off ∉ [0x5100, 0x5118]) (s : State) :
    hostRead64 off s = otherAccess off 8 (returnUnspecified 64 s) := by
  unfold hostRead64; split <;> simp_all

theorem hostWrite64_of_no_register {off : Nat} (h : off ∉ [0x5100, 0x5118]) (w : CmdWord) (s : State) :
    hostWrite64 off w s = otherAccess off 8 s := by
  unfold hostWrite64; split <;> simp_all

/-- A wide access or one to REG, if it is no register access, is answered by `otherAccess`. -/
theorem hostAccess_eq_otherAccess {act : HostAction} (hreg : ¬ act.isRegisterAccess)
    (h : 1 < act.width ∨ act.meetsReg) (s : State) :
    ∃ s', hostAccess act s = otherAccess act.offset act.width s' := by
  have hbyte : act.width = 1 → windowByte act.offset = .reg := by
    intro hw
    rw [windowByte_eq_reg]
    simp only [HostAction.meetsReg, HostAction.meets, hw] at h
    omega
  cases act with
  | read8 off => exact ⟨s, hostRead8_of_reg (hbyte rfl) s⟩
  | write8 off v => exact ⟨s, hostWrite8_of_reg (hbyte rfl) v s⟩
  | read32 off => exact ⟨_, hostRead32_of_no_register hreg s⟩
  | write32 off v => exact ⟨_, hostWrite32_of_no_register hreg v s⟩
  | read64 off => exact ⟨_, hostRead64_of_no_register hreg s⟩
  | write64 off w => exact ⟨_, hostWrite64_of_no_register hreg w s⟩

/-- An access that covers a byte of REG and is no register access is refused by that name (10_state.md R28). -/
theorem hostAccess_refused_of_meetsReg {act : HostAction} (hreg : ¬ act.isRegisterAccess) (h : act.meetsReg)
    (s : State) : hostAccess act s = .refused (.registerAccessNotDefined act.offset) := by
  obtain ⟨s', hs'⟩ := hostAccess_eq_otherAccess hreg (.inr h) s
  rw [hs']
  obtain ⟨-, -, hr⟩ | ⟨hn, -⟩ | ⟨hn, -⟩ := otherAccess_cases act.offset act.width s' act.width_pos act.width_le
  · exact hr
  · exact absurd h hn
  · exact absurd h hn

/-- Every register lies in REG. -/
theorem HostAction.meetsReg_of_isRegisterAccess {act : HostAction} (h : act.isRegisterAccess) : act.meetsReg := by
  have hoff : 0x5100 ≤ act.offset ∧ act.offset ≤ 0x5120 := by
    cases act <;> simp [HostAction.isRegisterAccess, HostAction.offset] at h ⊢ <;> omega
  have hwidth := act.width_pos
  exact ⟨by omega, by omega⟩

/-- A wide access outside REG is refused exactly if it covers a byte of a memory (10_state.md R22). -/
theorem hostAccess_wide {act : HostAction} (hw : 1 < act.width) (h : ¬ act.meetsReg) (s : State) :
    (act.meetsMemory → hostAccess act s = .refused (.wideMemoryAccess act.offset)) ∧
      (¬ act.meetsMemory → ∃ t, hostAccess act s = .next t) := by
  obtain ⟨s', hs'⟩ := hostAccess_eq_otherAccess (fun hr => h (HostAction.meetsReg_of_isRegisterAccess hr)) (.inl hw) s
  rw [hs', act.meetsMemory_iff]
  obtain ⟨h1, h2, -⟩ | ⟨-, hm, hr⟩ | ⟨-, hm, hr⟩ :=
    otherAccess_cases act.offset act.width s' act.width_pos act.width_le
  · exact absurd ⟨h1, h2⟩ h
  · exact ⟨fun _ => hr, fun hn => absurd hm hn⟩
  · exact ⟨fun hy => absurd hy hm, fun _ => ⟨s', hr⟩⟩

/-- A host access answers, or it has no definition and is refused for that (93_implementation_defined.md U8). -/
theorem hostAccess_answers_or_refused (act : HostAction) (s : State) :
    (∃ t, hostAccess act s = .next t) ∨ ∃ r, act.refusedAs r ∧ hostAccess act s = .refused r := by
  by_cases hreg : act.isRegisterAccess
  · exact .inl (hostAccess_register_answers hreg s)
  by_cases hmeets : act.meetsReg
  · exact .inr ⟨_, .inl ⟨hmeets, hreg, rfl⟩, hostAccess_refused_of_meetsReg hreg hmeets s⟩
  by_cases hw : 1 < act.width
  · by_cases hm : act.meetsMemory
    · exact .inr ⟨_, .inr ⟨hw, hm, hmeets, rfl⟩, (hostAccess_wide hw hmeets s).1 hm⟩
    · exact .inl ((hostAccess_wide hw hmeets s).2 hm)
  · exact .inl (hostAccess_byte_answers (by have := act.width_pos; omega) hmeets s)

/-- A step answers, or it is refused for a host access without a definition. -/
theorem step_answers_or_refused (s : State) :
    (∃ t, step s = .next t) ∨
      (s.resetIn.head? ≠ some true ∧ s.wait = none ∧
        ∃ act rest r, s.hostActs = act :: rest ∧ act.refusedAs r ∧ step s = .refused r) := by
  obtain ht | ⟨hr, hw, act, rest, ha, hstep⟩ := step_answers_or_access s
  · exact .inl ht
  obtain ⟨t, ht⟩ | ⟨r, hdef, href⟩ := hostAccess_answers_or_refused act (afterIssue s rest)
  · exact .inl ⟨t, hstep.trans ht⟩
  · exact .inr ⟨hr, hw, act, rest, r, ha, hdef, hstep.trans href⟩

end Sys2Proof.Machine

/-! The invariant, and the statements of 10_state.md: the state, the registers and the host window. -/

namespace Sys2Proof.Machine

open Sys2Proof

/-! ### The invariant, update by update -/

/-- The invariant does not speak of the inputs to come or of the host's data, and the free counter may rise. -/
theorem State.Inv.inputs {s : State} (h : s.Inv) {k : Nat} (hk : s.fresh ≤ k) (vs rs : List Bool)
    (acts : List HostAction) (d : BitVec 64) :
    State.Inv { s with vsyncIn := vs, resetIn := rs, hostActs := acts, hostData := d, fresh := k } :=
  { h with
    stampsUsed := by
      obtain ⟨hsurf, hatlas, hcell, hname⟩ := h.stampsUsed
      exact ⟨by simp only; omega, by simp only; omega, by simp only; omega, by simp only; omega⟩ }

/-- The fault sequence keeps the invariant, for a code other than OK (60_exceptions.md R206). -/
theorem State.Inv.raise {s : State} (h : s.Inv) {c : ResultCode} (hc : c ≠ .ok) (w : CmdWord) :
    (raise c w s).Inv where
  surfWf := by simpa using h.surfWf
  atlasWf := by simpa using h.atlasWf
  cellbufWf := by simpa using h.cellbufWf
  namebufWf := by simpa using h.namebufWf
  ctxAfterInit := by simpa using h.ctxAfterInit
  ctxPlayers := by simpa using h.ctxPlayers
  ctxOffset := by simpa using h.ctxOffset
  fcodeFault := by
    cases hf : s.status.fault with
    | false => simpa [hf] using hc
    | true => simpa [hf] using h.fcodeFault.2 hf
  fcmdFault := by simp
  resultFault := by simp
  waitBounded := by simpa using h.waitBounded
  stampsUsed := by simpa using h.stampsUsed

/-- A command that draws and ends OK keeps the invariant. -/
theorem State.Inv.draw {s : State} (h : s.Inv) {m : Mem} (hm : SurfaceKept s.surf m) :
    State.Inv { s with surf := m, result := .ok } :=
  { h with
    surfWf := hm.wf h.surfWf
    resultFault := by simp
    stampsUsed := by simpa [hm.stamp] using h.stampsUsed }

/-- A valid context may be written after INIT (43_board_composer.md R150). -/
theorem State.Inv.setContext {s : State} (h : s.Inv) (hinit : s.status.inited = true) {n : Nat} (h1 : 1 ≤ n)
    (h4 : n ≤ 4) : (setContext (fofsOf s.lrom n) n s).Inv := by
  have hn : (BitVec.ofNat 3 n).toNat = n := by simp; omega
  exact { h with
    ctxAfterInit := fun _ => hinit
    ctxPlayers := fun _ => by simpa [hn] using ⟨h1, h4⟩
    ctxOffset := fun _ => by simp [hn] }

/-- INIT's update keeps the invariant: the new SURF takes the next free draw (45_surface_control.md R186). -/
theorem State.Inv.init {s : State} (h : s.Inv) :
    State.Inv (finishOk (setInited
      { s with
        modeReqPulses := s.modeReqPulses + 1
        surf := Mem.unspecified s.fresh
        fresh := s.fresh + 1 })) :=
  { h.inputs (Nat.le_succ _) s.vsyncIn s.resetIn s.hostActs s.hostData with
    surfWf := Mem.wf_unspecified .surf _
    ctxAfterInit := fun _ => rfl
    resultFault := by simp
    stampsUsed := by
      obtain ⟨-, hatlas, hcell, hname⟩ := h.stampsUsed
      simp [Mem.unspecified]
      omega }

/-- The wait may change to any that has counted no more than VSTO samples, or end (45_surface_control.md R192). -/
theorem State.Inv.withWait {s : State} (h : s.Inv) {w : Option Wait}
    (hw : ∀ wt, w = some wt → s.vsto ≠ 0 → wt.count ≤ s.vsto) : State.Inv { s with wait := w } :=
  { h with waitBounded := hw }

/-- A byte write inside its memory keeps the invariant. -/
theorem State.Inv.writeByte {s : State} (h : s.Inv) {sp : Space} {a : Nat} (ha : a < sp.size) (v : Byte) :
    (setMem sp ((memOf sp s).write a v) s).Inv := by
  cases sp with
  | surf => exact { h with surfWf := Mem.wf_write h.surfWf v ha }
  | atlas => exact { h with atlasWf := Mem.wf_write h.atlasWf v ha }
  | cellbuf => exact { h with cellbufWf := Mem.wf_write h.cellbufWf v ha }
  | namebuf => exact { h with namebufWf := Mem.wf_write h.namebufWf v ha }

/-- With no flag set, no wait and draw 0 used, every clause holds (10_state.md R42). -/
theorem reset_inv : State.reset.Inv where
  surfWf := reset_memories_wf .surf
  atlasWf := reset_memories_wf .atlas
  cellbufWf := reset_memories_wf .cellbuf
  namebufWf := reset_memories_wf .namebuf
  ctxAfterInit := by simp [State.reset]
  ctxPlayers := by simp [State.reset]
  ctxOffset := by simp [State.reset]
  fcodeFault := by simp [State.reset]
  fcmdFault := by simp [State.reset]
  resultFault := by simp [State.reset]
  waitBounded := by simp [State.reset]
  stampsUsed := by simp [State.reset]

/-- Reset establishes the invariant in a state, whatever it was: all memories take the next free draw. -/
theorem applyReset_inv (s : State) : (applyReset s).Inv :=
  { reset_inv with
    surfWf := Mem.wf_unspecified .surf _
    atlasWf := Mem.wf_unspecified .atlas _
    cellbufWf := Mem.wf_unspecified .cellbuf _
    namebufWf := Mem.wf_unspecified .namebuf _
    ctxOffset := by simp [State.reset]
    stampsUsed := by simp [Mem.unspecified] }

/-! ### The invariant, step by step -/

/-- No command breaks the invariant. -/
theorem CommandEnd.keeps_inv {i : Instr} {s t : State} (h : CommandEnd i s t) (hs : s.Inv) : t.Inv := by
  cases h with
  | fault c hc => exact hs.raise hc _
  | init => exact hs.init
  | waits => exact hs.withWait (by rintro wt ⟨⟩ -; exact Nat.zero_le _)
  | board n m hi hinited h1 h4 hm => exact (hs.setContext hinited h1 h4).draw hm
  | drew m _ _ _ hm => exact hs.draw hm

theorem runWord_keeps_inv {w : CmdWord} {s t : State} (h : runWord w s = .next t) (hs : s.Inv) : t.Inv := by
  obtain ⟨i, -, hi⟩ | rfl := runWord_next h
  · exact hi.keeps_inv hs
  · exact hs.raise (by simp) w

/-- No host access of an idle engine breaks the invariant; VSTO may change, because no wait is being counted. -/
theorem hostAccess_keeps_inv {act : HostAction} {s t : State} (h : hostAccess act s = .next t)
    (hw : s.wait = none) (hs : s.Inv) : t.Inv := by
  obtain ⟨w, -, hrun⟩ | ⟨sp, a, v, ha, rfl⟩ | ⟨v, -, rfl⟩ | ⟨d, k, hk, rfl⟩ := hostAccess_next h
  · exact runWord_keeps_inv hrun hs
  · exact hs.writeByte ha v
  · exact { hs with waitBounded := by simp [hw] }
  · exact hs.inputs hk s.vsyncIn s.resetIn s.hostActs d

/-- No turn of a running wait breaks the invariant: it counts a sample only below VSTO (45_surface_control.md R192). -/
theorem waitStep_keeps_inv {wt : Wait} {s : State} (hw : s.wait = some wt) (hs : s.Inv) : (waitStep wt s).Inv := by
  obtain ⟨-, -, h⟩ | ⟨hcount, vs, k, hk, h | ⟨ph, h⟩⟩ := waitStep_cases wt s
  · rw [h]
    exact (hs.withWait (by simp)).raise (by simp) _
  · rw [h]
    exact { (hs.inputs hk vs s.resetIn s.hostActs s.hostData).withWait (w := none) (by simp) with
      resultFault := by simp }
  · rw [h]
    refine (hs.inputs hk vs s.resetIn s.hostActs s.hostData).withWait ?_
    rintro _ ⟨⟩ hv
    have hle := hs.waitBounded wt hw hv
    have hne : wt.count ≠ s.vsto := hcount.resolve_left hv
    simp only
    bv_omega

/-! ### Reading the registers: their 32-bit words as the host's data -/

theorem Status.word_setWidth (st : Status) :
    st.word.setWidth 64 = BitVec.ofNat 64 (st.inited.toNat + 2 * st.ctxValid.toNat + 4 * st.fault.toNat) := by
  have h0 := st.inited.toNat_lt
  have h1 := st.ctxValid.toNat_lt
  have h2 := st.fault.toNat_lt
  exact BitVec.setWidth_ofNat_of_le_of_lt (by decide) (by omega)

theorem ResultCode.word_setWidth (c : ResultCode) : c.word.setWidth 64 = BitVec.ofNat 64 c.code := by
  cases c <;> rfl

theorem Ctx.word_setWidth (c : Ctx) :
    c.word.setWidth 64 = BitVec.ofNat 64 (c.fofs.toNat + 16 * c.pcnt.toNat) := by
  have hf := c.fofs.isLt
  have hp := c.pcnt.isLt
  exact BitVec.setWidth_ofNat_of_le_of_lt (by decide) (by omega)

/-! ### Byte accesses to the memories, as steps -/

/-- The host writes one byte of a memory. -/
theorem step_write8 {s : State} {off a : Nat} {v : Byte} {rest : List HostAction} {sp : Space}
    (hr : s.resetIn.head? ≠ some true) (hw : s.wait = none) (ha : s.hostActs = .write8 off v :: rest)
    (hoff : windowByte off = .mem sp a) :
    step s = .next (setMem sp ((memOf sp (afterIssue s rest)).write a v) (afterIssue s rest)) :=
  (step_access hr hw ha).trans (hostWrite8_of_mem hoff v _)

/-- The host reads one byte of a memory. -/
theorem step_read8 {s : State} {off a : Nat} {rest : List HostAction} {sp : Space}
    (hr : s.resetIn.head? ≠ some true) (hw : s.wait = none) (ha : s.hostActs = .read8 off :: rest)
    (hoff : windowByte off = .mem sp a) :
    step s = .next (returnToHost (((memOf sp s).read sp a).setWidth 64) (afterIssue s rest)) := by
  simpa using (step_access hr hw ha).trans (hostRead8_of_mem hoff _)

/-! ### What changes CTX -/

/-- The only command that changes CTX is a DRAWBOARD of 1 to 4 players that ends OK (10_state.md R31). -/
theorem CommandEnd.drawboard_of_ctx_ne {i : Instr} {s t : State} (h : CommandEnd i s t) (hctx : t.ctx ≠ s.ctx) :
    ∃ n, i = .drawboard n ∧ 1 ≤ n ∧ n ≤ 4 ∧ t.result = .ok := by
  cases h with
  | board n m hi hinited h1 h4 => exact ⟨n, hi, h1, h4, rfl⟩
  | _ => simp at hctx

/-- The only host access that changes CTX issues such a DRAWBOARD. -/
theorem hostAccess_drawboard_of_ctx_ne {act : HostAction} {s t : State} (h : hostAccess act s = .next t)
    (hctx : t.ctx ≠ s.ctx) :
    ∃ n, 1 ≤ n ∧ n ≤ 4 ∧ act = .write64 0x5100 (encode (.drawboard n)) ∧ t.result = .ok := by
  obtain ⟨w, rfl, hw⟩ | ⟨sp, a, v, -, rfl⟩ | ⟨v, -, rfl⟩ | ⟨d, k, -, rfl⟩ := hostAccess_next h
  · obtain ⟨i, hi, hend⟩ | rfl := runWord_next hw
    · obtain ⟨n, rfl, h1, h4, hok⟩ := hend.drawboard_of_ctx_ne hctx
      exact ⟨n, h1, h4, by rw [encode_of_decode_drawboard hi], hok⟩
    · simp at hctx
  · simp at hctx
  · simp at hctx
  · simp at hctx

/-! ### The statements about the state, the step and the host window -/

/-- Settles O59: reset establishes the invariant, and a turn of a wait, a command and a host access keep it. -/
theorem everyStepKeepsInv : Obligations.EveryStepKeepsInv := by
  intro s t hs h
  have hs' : ∀ acts, State.Inv { s with resetIn := s.resetIn.tail, hostActs := acts } :=
    fun acts => hs.inputs le_rfl s.vsyncIn s.resetIn.tail acts s.hostData
  obtain ⟨-, rfl⟩ | ⟨-, ⟨wt, hw, rfl⟩ | ⟨-, -, rfl⟩ | ⟨hw, act, rest, -, hact⟩⟩ := step_next h
  · exact applyReset_inv _
  · exact waitStep_keeps_inv hw (hs' s.hostActs)
  · exact hs' s.hostActs
  · exact hostAccess_keeps_inv hact hw (hs' rest)

/-- Settles O12, by the ways a command can end. -/
theorem commandsSetFlagsAsTheStatusTableSays : Obligations.CommandsSetFlagsAsTheStatusTableSays := by
  intro i s t h
  cases exec_next h with
  | fault c hc hinit hwait => simp [hc, hinit, hwait]
  | init hi => simp [hi]
  | waits hi => simp [hi]
  | board n m hi hinited => simp [hi, hinited]
  | drew m hinit hwait hboard => simp [hinit, hboard]

/-- Settles O47: no command and no host access takes a sample. -/
theorem vsyncIsSampledOnlyByWaitvsync : Obligations.VsyncIsSampledOnlyByWaitvsync := by
  intro s t hidle h
  obtain ⟨-, rfl⟩ | ⟨-, ⟨wt, hw, -⟩ | ⟨-, -, rfl⟩ | ⟨-, act, rest, -, hact⟩⟩ := step_next h
  · rfl
  · simp [hidle] at hw
  · rfl
  · obtain ⟨-, hvsync, -⟩ := hostAccess_frame hact
    exact hvsync

/-- Settles O49: the first step writes the byte and the second returns what then stands at the second offset. -/
theorem hostBytesReadBack : Obligations.HostBytesReadBack := by
  intro s off off' v rest sp sp' a a' hr hw ha hoff hoff'
  refine ⟨_, _, step_write8 (by simp [hr]) hw ha hoff,
    step_read8 (rest := rest) (by simp [hr]) (by simp [hw]) (by simp) hoff', by simp, ?_, by simp, ?_⟩
  · rw [returnToHost_hostData, read_setMem_write, memOf_afterIssue]
    simp only [eq_comm (a := sp'), eq_comm (a := a')]
    split_ifs <;> rfl
  · rintro u (rfl | rfl)
    · exact ⟨fun sp'' a'' => by rw [read_setMem_write, memOf_afterIssue], by simp [hw]⟩
    · exact ⟨fun sp'' a'' => by rw [memOf_returnToHost, memOf_afterIssue, read_setMem_write, memOf_afterIssue],
        by simp [hw]⟩

/-- Settles O53, by the two rules of the port's last case. -/
theorem undefinedRegisterAccessIsRefused : Obligations.UndefinedRegisterAccessIsRefused := fun s _ =>
  ⟨fun hmeets hreg => hostAccess_refused_of_meetsReg hreg hmeets s,
    fun hw hmem hmeets => (hostAccess_wide hw hmeets s).1 hmem⟩

/-- Settles O55: only a host access can stop, and it stops exactly for want of a definition. -/
theorem stepStopsOnlyAtUndefinedHostAccess : Obligations.StepStopsOnlyAtUndefinedHostAccess := by
  constructor
  · intro s f hf
    obtain ⟨t, ht⟩ | ⟨-, -, act, rest, r, -, -, href⟩ := step_answers_or_refused s
    · simp [ht] at hf
    · simp [href] at hf
  · intro s r hs
    obtain ⟨t, ht⟩ | ⟨hr, hw, act, rest, r', ha, hdef, href⟩ := step_answers_or_refused s
    · simp [ht] at hs
    · obtain rfl : r' = r := by simpa [href] using hs
      exact ⟨hr, hw, act, rest, ha, hdef⟩

/-- Settles O56, by the frame of each kind of step. -/
theorem layoutStoreNeverChanges : Obligations.LayoutStoreNeverChanges := by
  intro s t h
  obtain ⟨-, rfl⟩ | ⟨-, ⟨wt, -, rfl⟩ | ⟨-, -, rfl⟩ | ⟨-, act, rest, -, hact⟩⟩ := step_next h
  · rfl
  · obtain ⟨-, -, -, -, -, -, -, -, hlrom, -⟩ := waitStep_frame wt { s with resetIn := s.resetIn.tail }
    exact hlrom
  · rfl
  · obtain ⟨hlrom, -⟩ := hostAccess_frame hact
    exact hlrom

/-- Settles O57: a turn of a wait leaves CTX alone, and of the host's accesses only a DRAWBOARD does not. -/
theorem ctxIsWrittenOnlyByDrawboard : Obligations.CtxIsWrittenOnlyByDrawboard := by
  intro s t hr h hctx
  obtain ⟨hr', -⟩ | ⟨-, ⟨wt, -, rfl⟩ | ⟨-, -, rfl⟩ | ⟨hw, act, rest, ha, hact⟩⟩ := step_next h
  · exact absurd hr' hr
  · obtain ⟨-, -, -, -, -, hsame, -⟩ := waitStep_frame wt { s with resetIn := s.resetIn.tail }
    exact absurd hsame hctx
  · exact absurd rfl hctx
  · obtain ⟨n, h1, h4, rfl, hok⟩ := hostAccess_drawboard_of_ctx_ne hact hctx
    exact ⟨n, rest, h1, h4, ⟨hr, hw, ha⟩, hok⟩

/-- Settles O4: the step makes the access, and the port executes what the word decodes to. -/
theorem stepRunsTheDecodedCommand : Obligations.StepRunsTheDecodedCommand := by
  rintro s w rest i ⟨hr, hw, ha⟩ hdec
  calc step s = runWord w (afterIssue s rest) := step_access hr hw ha
    _ = exec i (afterIssue s rest) := by simp [runWord, hdec]

/-- Settles O6, field by field; every memory of `State.reset` is unspecified by draw 0. -/
theorem resetValues : Obligations.ResetValues :=
  ⟨rfl, rfl, rfl, rfl, rfl, rfl, rfl, rfl, fun space a => by cases space <;> exact Mem.read_unspecified _ 0 a⟩

/-- Settles O43: it is what `execWaitvsync` says. -/
theorem waitvsyncStartsTheWait : Obligations.WaitvsyncStartsTheWait := fun _ => rfl

/-- Settles O48: the step is one turn of the wait, and that is its frame. -/
theorem waitHoldsTheHost : Obligations.WaitHoldsTheHost := by
  intro s t wt hw hr h
  obtain rfl : waitStep wt { s with resetIn := s.resetIn.tail } = t := by simpa [step_waiting hr hw] using h
  obtain ⟨hacts, hsurf, hatlas, hcell, hname, hctx, hvsto, hmode, -, -⟩ :=
    waitStep_frame wt { s with resetIn := s.resetIn.tail }
  exact ⟨hacts, hsurf, hatlas, hcell, hname, hctx, hvsto, hmode⟩

/-- Settles O50: each range of offsets is one branch of the map. -/
theorem windowMap : Obligations.WindowMap := by
  refine ⟨fun a h => ?_, fun a h => ?_, fun a h => ?_, fun a h => ?_, fun a h => ?_, fun off h => ?_⟩
  · rw [windowByte, if_pos (by omega)]
  · rw [windowByte, if_neg (by omega), if_pos (by omega), Nat.add_sub_cancel_left]
  · rw [windowByte, if_neg (by omega), if_neg (by omega), if_pos (by omega), Nat.add_sub_cancel_left]
  · rw [windowByte, if_neg (by omega), if_neg (by omega), if_neg (by omega), if_pos (by omega),
      Nat.add_sub_cancel_left]
  · exact windowByte_eq_reg.2 (by omega)
  · have hun := windowByte_eq_unassigned.2 h
    exact ⟨fun s => ⟨_, hostRead8_of_unassigned hun s⟩, fun s v => hostWrite8_of_unassigned hun v s⟩

/-- Settles O51: each clause is the port's case for that register, its word widened to the 64 bits of the host's data. -/
theorem registerAccesses : Obligations.RegisterAccesses := by
  intro s
  refine ⟨?_, ?_, ?_, fun hv => ?_, fun hv => ⟨(Config.freeRead s.fresh).setWidth 32, ?_⟩, rfl, ⟨_, rfl⟩, rfl,
    fun v => rfl, fun off hoff v => ?_, fun w => rfl⟩
  · rw [← Status.word_setWidth]; rfl
  · rw [← ResultCode.word_setWidth]; rfl
  · rw [← ResultCode.word_setWidth]; rfl
  · rw [← Ctx.word_setWidth]; simp [hostAccess, hostRead32, hv, returnToHost]
  · simp [hostAccess, hostRead32, hv, returnUnspecified]
  · simp only [List.mem_cons, List.not_mem_nil, or_false] at hoff
    obtain rfl | rfl | rfl | rfl := hoff <;> rfl

/-- Settles O58, by `reset_inv`, on which the reset step of O59 rests too. -/
theorem invHoldsAtReset : Obligations.InvHoldsAtReset := reset_inv

end Sys2Proof.Machine

/-! The AddressMapper's inverse, the lanes of a byte, and the places a command's accesses visit, in order. -/

namespace Sys2Proof.Machine

open Sys2Proof

/-! ### The AddressMapper (20_memory.md R50 to R53) -/

/-- `surfAddr` and the pair of `rowOfAddr` and `bcolOfAddr` are inverse to each other (R53). -/
theorem surfAddr_eq_some_iff_inverse {row bcol a : Nat} :
    surfAddr row bcol = some a ↔ a < 16000 ∧ rowOfAddr a = row ∧ bcolOfAddr a = bcol := by
  rw [surfAddr_eq_some]
  simp only [rowOfAddr, bcolOfAddr, Config.bankSize, Config.stride]
  omega

theorem surfAddr_inverse {a : Nat} (ha : a < 16000) : surfAddr (rowOfAddr a) (bcolOfAddr a) = some a :=
  surfAddr_eq_some_iff_inverse.2 ⟨ha, rfl, rfl⟩

/-- Even rows fill bank 0 and odd rows bank 1 (R50). -/
theorem bank_of_surfAddr {row bcol a : Nat} (h : surfAddr row bcol = some a) : a / 8000 = row % 2 := by
  obtain ⟨hr, hb, rfl⟩ := surfAddr_eq_some.1 h
  omega

/-! ### Lanes (20_memory.md R54, R56, R71): a bitwise operation acts on each lane by itself -/

theorem lane_and (u v : Byte) (p : Nat) : lane (u &&& v) p = lane u p &&& lane v p := by
  simp [lane, BitVec.ushiftRight_and_distrib]

theorem lane_xor (u v : Byte) (p : Nat) : lane (u ^^^ v) p = lane u p ^^^ lane v p := by
  simp [lane, BitVec.ushiftRight_xor_distrib]

theorem lane_allOnes {p : Nat} (hp : p < 4) : lane 0xFF#8 p = BitVec.allOnes 2 := by
  interval_cases p <;> rfl

/-- The byte complement of R101 complements every lane. -/
theorem lane_xor_allOnes (v : Byte) {p : Nat} (hp : p < 4) : lane (v ^^^ 0xFF#8) p = ~~~(lane v p) := by
  rw [lane_xor, lane_allOnes hp, BitVec.xor_allOnes]

theorem lane_rep (c : Color) {p : Nat} (hp : p < 4) : lane (rep c) p = c := by
  revert c
  interval_cases p <;> decide

/-! ### Cells -/

/-- At or above the bound nothing is listed. -/
theorem lookup_of_bound_le {bound : Nat} {l : List Host.Cell} (hl : cellsRise bound l = true) {a : Nat}
    (ha : bound ≤ a) : lookupCells l a = none := by
  induction l with
  | nil => rfl
  | cons c rest ih =>
    have hc : a ≠ c.1 := by have := cellsRise_head_lt hl; omega
    simp [lookupCells, hc, ih (cellsRise_tail hl)]

/-- After accesses that all write `v`, a byte that one of them touches is listed with `v`, in whatever order. -/
theorem applyAccesses_lookup_of_puts {accs : List Access} {v : Byte} (hput : ∀ acc ∈ accs, acc.kind = .put v)
    {m m' : Mem} (h : applyAccesses accs m = some m') {a : Nat} (ha : ¬ Untouched accs a) :
    lookupCells m'.cells a = some v := by
  induction accs generalizing m with
  | nil => simp [Untouched] at ha
  | cons acc rest ih =>
    obtain ⟨m₁, h₁, h₂⟩ := applyAccesses_cons_eq_some.1 h
    by_cases hrest : Untouched rest a
    · have hacc : surfAddr acc.row acc.bcol = some a := by
        by_contra hne
        exact ha (List.forall_mem_cons.2 ⟨hne, hrest⟩)
      obtain ⟨b, hb, rfl⟩ := applyAccess_eq_some.1 h₁
      obtain rfl : a = b := by simpa [hacc] using hb
      have hkind : acc.kind = .put v := hput acc (by simp)
      rw [applyAccesses_lookup_untouched h₂ hrest, hkind]
      exact lookup_write_same _ _ _
    · exact ih (fun x hx => hput x (by simp [hx])) h₂ hrest

/-! ### RSTSURF's accesses (45_surface_control.md R188, R189 (a)) -/

theorem mem_clearAccesses {acc : Access} :
    acc ∈ clearAccesses ↔ ∃ a, a < 16000 ∧ (⟨rowOfAddr a, bcolOfAddr a, .put 0x00#8⟩ : Access) = acc := by
  simp [clearAccesses]

theorem clearAccesses_offsets :
    clearAccesses.map (fun acc => surfAddr acc.row acc.bcol) = (List.range 16000).map some := by
  rw [clearAccesses, List.map_map]
  exact List.map_congr_left fun a ha => surfAddr_inverse (List.mem_range.1 ha)

theorem inRange_of_surfAddr {acc : Access} {a : Nat} (h : surfAddr acc.row acc.bcol = some a) : acc.InRange := by
  obtain ⟨hr, hb, -⟩ := surfAddr_eq_some.1 h
  exact ⟨hr, hb⟩

theorem clearAccesses_inRange : ∀ acc ∈ clearAccesses, acc.InRange := by
  intro acc h
  obtain ⟨a, ha, rfl⟩ := mem_clearAccesses.1 h
  exact inRange_of_surfAddr (surfAddr_inverse ha)

theorem not_untouched_clearAccesses {a : Nat} (ha : a < 16000) : ¬ Untouched clearAccesses a := fun h =>
  h _ (mem_clearAccesses.2 ⟨a, ha, rfl⟩) (surfAddr_inverse ha)

@[simp] theorem Mem.cleared_stamp (m : Mem) : m.cleared.stamp = m.stamp := rfl

theorem lookup_cleared (m : Mem) (a : Nat) :
    lookupCells m.cleared.cells a = if a < 16000 then some 0x00#8 else none := by
  rw [Mem.cleared, lookup_zeroCells]
  simp only [Nat.zero_le, true_and, Nat.zero_add]

/-- RSTSURF's byte writes, one by one, lead to the cleared Surface. -/
theorem applyAccesses_clear {m : Mem} (hm : m.wf .surf = true) :
    applyAccesses clearAccesses m = some m.cleared := by
  obtain ⟨m', h⟩ := applyAccesses_of_inRange clearAccesses_inRange m
  have hwf : m'.wf .surf = true := applyAccesses_wf hm h
  have hstamp : m'.stamp = m.cleared.stamp := by simpa using applyAccesses_stamp h
  have hput : ∀ acc ∈ clearAccesses, acc.kind = .put 0x00#8 := by
    intro acc hacc
    obtain ⟨a, -, rfl⟩ := mem_clearAccesses.1 hacc
    rfl
  have hcells : ∀ a, lookupCells m'.cells a = lookupCells m.cleared.cells a := by
    intro a
    rw [lookup_cleared]
    split_ifs with ha
    · exact applyAccesses_lookup_of_puts hput h (not_untouched_clearAccesses ha)
    · exact lookup_of_bound_le hwf (Nat.le_of_not_lt ha)
  rw [h, Mem.ext_of_lookup hwf (Mem.wf_cleared m) hstamp hcells]

/-! ### The places of the accesses, in the order of 20_memory.md R66 -/

theorem places_blitAccesses (atlas : Mem) (tile col prow : Nat) (color : Color) (mode : MaskMode) (inv : Bool) :
    places (blitAccesses atlas tile col prow color mode inv) = tilePlaces col prow := by
  simp [places, blitAccesses, tilePlaces, List.map_flatMap]

theorem startByte_le_endByte (x : Nat) {w : Nat} (hw : w ≠ 0) : startByte x ≤ endByte x w := by
  simp only [startByte, endByte]
  omega

/-- One row of a fill goes through its byte columns in ascending order. -/
theorem places_fillRowAccesses (x : Nat) {w : Nat} (hw : w ≠ 0) (color : Color) (row : Nat) :
    places (fillRowAccesses x w color row) =
      (List.range' (startByte x) (endByte x w - startByte x + 1)).map fun bcol => (row, bcol) := by
  have hle := startByte_le_endByte x hw
  unfold fillRowAccesses
  split_ifs with he
  · simp [places, he]
  · obtain ⟨k, hk⟩ : ∃ k, endByte x w = startByte x + 1 + k := ⟨endByte x w - startByte x - 1, by omega⟩
    have hcount : endByte x w - startByte x + 1 = k + 1 + 1 := by omega
    have hmiddle : endByte x w - startByte x - 1 = k := by omega
    rw [hcount, hmiddle, List.range'_succ, List.range'_1_concat, List.range'_eq_map_range]
    simp [places, hk, Function.comp_def]

theorem places_fillAccesses (x y w h : Nat) (color : Color) :
    places (fillAccesses x y w h color) = rectPlaces x y w h := by
  unfold fillAccesses rectPlaces
  split_ifs with hw
  · rfl
  · rw [List.range'_eq_map_range (s := y), List.flatMap_map, places, List.map_flatMap]
    exact List.flatMap_congr fun j _ => places_fillRowAccesses x hw color (y + j)

theorem Prim.places_accesses (atlas : Mem) (p : Prim) : Machine.places (p.accesses atlas) = p.places := by
  cases p with
  | blit tile col prow color mode inv => exact places_blitAccesses atlas tile col prow color mode inv
  | fill x y w h color => exact places_fillAccesses x y w h color

/-- A composite plan without an INVALID primitive visits its primitives' places in list order. -/
theorem places_composePlan (atlas : Mem) (ps : List Prim) :
    places (planAccesses (composePlan atlas (ps.map some))) = ps.flatMap Prim.places := by
  rw [composePlan_ok.2 ⟨ps, rfl, rfl⟩]
  simp only [planAccesses, primAccesses, places, List.map_flatMap]
  exact List.flatMap_congr fun p _ => p.places_accesses atlas

/-! ### The plan of a command whose checks pass -/

theorem blitPlan_of_inRange {tile x y : Nat} (color : Color) (mode : MaskMode) (inv : Bool) {s : State}
    (hi : s.status.inited = true) (ht : tile ≤ 255) (hx : x ≤ 39) (hy : y ≤ 24) :
    blitPlan tile x y color mode inv s = .ok (blitAccesses s.atlas tile x (8 * y) color mode inv) := by
  simp [blitPlan, initedReady, blitInRange, hi, ht, hx, hy]

theorem fillPlan_of_inRange {x y w h : Nat} (color : Color) {s : State} (hi : s.status.inited = true)
    (hx : x ≤ 319) (hy : y ≤ 199) (hw : x + w ≤ 320) (hh : y + h ≤ 200) :
    fillPlan x y w h color s = .ok (fillAccesses x y w h color) := by
  simp [fillPlan, initedReady, fillInRange, hi, hx, hy, hw, hh]

theorem boardPlan_of_inRange {n : Nat} {s : State} (hi : s.status.inited = true) (h1 : 1 ≤ n) (h4 : n ≤ 4) :
    boardPlan n s = composePlan s.atlas (boardPrims s.lrom n) := by
  simp [boardPlan, initedReady, playersInRange, hi, h1, h4]

theorem namePlan_of_inRange {q len : Nat} (active : Bool) {s : State} (hi : s.status.inited = true)
    (hc : s.status.ctxValid = true) (hq : q < s.ctx.pcnt.toNat) (hlen : len ≤ s.lrom.nameMax) (h16 : len ≤ 16)
    (hascii : ∀ k, k < len → (s.namebuf.read .namebuf k).toNat < 0x80) :
    namePlan q len active s = composePlan s.atlas (drawnamePrims q len active s) := by
  have hname : nameIsAscii len s = true := by
    simp only [nameIsAscii, List.all_eq_true, List.mem_range, decide_eq_true_eq]
    exact hascii
  simp [namePlan, contextReady, quadrantActive, lengthInRange, hi, hc, hq, hlen, h16, hname]

theorem fieldPlan_of_inRange {q : Nat} {s : State} (hi : s.status.inited = true) (hc : s.status.ctxValid = true)
    (hq : q < s.ctx.pcnt.toNat) (hcells : ∀ p, p < 100 → (s.cellbuf.read .cellbuf p).toNat ≤ 2) :
    fieldPlan q s = composePlan s.atlas ((List.range 100).flatMap (cellPrims q false s)) := by
  have hall : (List.range Config.cells).all (cellValid s) = true := by
    simp only [cellValid, List.all_eq_true, List.mem_range, decide_eq_true_eq]
    exact hcells
  simp [fieldPlan, contextReady, quadrantActive, hi, hc, hq, hall]

theorem cellPlan_of_inRange {q pos : Nat} (blink : Bool) {s : State} (hi : s.status.inited = true)
    (hc : s.status.ctxValid = true) (hq : q < s.ctx.pcnt.toNat) (hpos : pos ≤ 99)
    (hcell : (s.cellbuf.read .cellbuf pos).toNat ≤ 2) :
    cellPlan q pos blink s = composePlan s.atlas (cellPrims q blink s pos) := by
  simp [cellPlan, contextReady, quadrantActive, cellValid, cellCode, hi, hc, hq, hpos, hcell]

/-! ### A command and its accesses -/

/-- A command that performs `accs` goes from `s` to `t`: they lie on the Surface, lead to its final Surface, and are none
if it ends with a fault. `exec_performs` ties it to `exec` and `accessesOf`. -/
structure Performs (accs : List Access) (s t : State) : Prop where
  inRange : ∀ acc ∈ accs, acc.InRange
  leads : applyAccesses accs s.surf = some t.surf
  noneOnFault : t.result ≠ .ok → accs = []

/-- A command that leaves the Surface alone performs no access. -/
theorem Performs.nil {s t : State} (h : t.surf = s.surf) : Performs [] s t :=
  ⟨by simp, by simp [applyAccesses, h], fun _ => rfl⟩

theorem Performs.of_runPlan {w : CmdWord} {plan : Except ResultCode (List Access)} {s t : State}
    (h : runPlan w plan s = .next t) (hplan : ∀ accs, plan = .ok accs → ∀ acc ∈ accs, acc.InRange) :
    Performs (planAccesses plan) s t := by
  obtain ⟨c, rfl, rfl⟩ | ⟨accs, m, rfl, hm, rfl⟩ := runPlan_next h
  · exact .nil (by simp)
  · exact ⟨hplan accs rfl, hm, by simp⟩

theorem Performs.of_drawboard {n : Nat} {s t : State} (h : execDrawboard n s = .next t) :
    Performs (planAccesses (boardPlan n s)) s t := by
  unfold execDrawboard at h
  split at h
  · next c hp => cases h; rw [hp]; exact .nil (by simp)
  · next accs hp =>
    obtain ⟨m, hm, rfl⟩ := performAndFinish_next h
    rw [hp]
    exact ⟨boardPlan_inRange hp, hm, by simp⟩

theorem execRstsurf_of_inited {s : State} (hi : s.status.inited = true) :
    execRstsurf s = .next (finishOk { s with surf := s.surf.cleared }) := by
  simp [execRstsurf, initedReady, hi]

theorem execRstsurf_of_not_inited {s : State} (hi : s.status.inited = false) :
    execRstsurf s = .next (raise .notReady (encode .rstsurf) s) := by
  simp [execRstsurf, initedReady, hi, endWithFault]

theorem Performs.of_rstsurf {s t : State} (hwf : s.surf.wf .surf = true) (h : execRstsurf s = .next t) :
    Performs (accessesOf .rstsurf s) s t := by
  cases hi : s.status.inited with
  | false =>
    rw [execRstsurf_of_not_inited hi] at h
    cases h
    simpa [accessesOf, hi] using Performs.nil (s := s) (raise_surf .notReady (encode .rstsurf) s)
  | true =>
    rw [execRstsurf_of_inited hi] at h
    cases h
    simpa [accessesOf, hi] using Performs.mk clearAccesses_inRange (applyAccesses_clear hwf) (by simp)

/-- A command other than INIT performs its accesses (R66); INIT's Surface change is not the engine's (R187 (b)). -/
theorem exec_performs {i : Instr} {s t : State} (hinit : i ≠ .init) (hwf : s.surf.wf .surf = true)
    (h : exec i s = .next t) : Performs (accessesOf i s) s t := by
  cases i with
  | init => exact absurd rfl hinit
  | rstsurf => exact .of_rstsurf hwf h
  | blit => exact .of_runPlan h fun _ => blitPlan_inRange
  | blitc => exact .of_runPlan h fun _ => blitPlan_inRange
  | fill => exact .of_runPlan h fun _ => fillPlan_inRange
  | drawboard n => exact .of_drawboard h
  | drawname => exact .of_runPlan h fun _ => namePlan_inRange
  | renderfield => exact .of_runPlan h fun _ => fieldPlan_inRange
  | updatecell => exact .of_runPlan h fun _ => cellPlan_inRange
  | waitvsync => cases h; exact .nil rfl

/-- The first accesses of a command can be performed, however many one takes. -/
theorem Performs.take {accs : List Access} {s t : State} (h : Performs accs s t) (k : Nat) :
    ∃ m, applyAccesses (accs.take k) s.surf = some m :=
  applyAccesses_of_inRange (fun acc hacc => h.inRange acc (List.mem_of_mem_take hacc)) s.surf

theorem scanOutMaySee_start (i : Instr) (s : State) : ScanOutMaySee i s s.surf := ⟨0, rfl⟩

theorem scanOutMaySee_end {i : Instr} {s t : State} (h : Performs (accessesOf i s) s t) :
    ScanOutMaySee i s t.surf :=
  ⟨(accessesOf i s).length, by rw [List.take_length]; exact h.leads⟩

/-! ### What a command writes (20_memory.md R68) -/

/-- The engine writes none of the memories it reads its operands from. -/
theorem CommandEnd.operand_memories {i : Instr} {s t : State} (h : CommandEnd i s t) :
    t.atlas = s.atlas ∧ t.cellbuf = s.cellbuf ∧ t.namebuf = s.namebuf := by
  cases h <;> simp

/-- Only INIT pulses MODE_REQ (10_state.md R37). -/
theorem CommandEnd.modeReqPulses_of_ne_init {i : Instr} {s t : State} (h : CommandEnd i s t) (hi : i ≠ .init) :
    t.modeReqPulses = s.modeReqPulses := by
  cases h with
  | init h => exact absurd h hi
  | _ => simp

/-- No command writes outside SURF's 16000 bytes. -/
theorem CommandEnd.surf_wf {i : Instr} {s t : State} (h : CommandEnd i s t) (hs : s.surf.wf .surf = true) :
    t.surf.wf .surf = true := by
  cases h with
  | fault => simpa using hs
  | init => exact Mem.wf_unspecified .surf _
  | waits => exact hs
  | board n m _ _ _ _ hm => exact hm.wf hs
  | drew m _ _ _ hm => exact hm.wf hs

/-! ### Host reads (20_memory.md R62) -/

theorem hostRead8_next {off : Nat} {s t : State} (h : hostRead8 off s = .next t) :
    t = { s with hostData := t.hostData, fresh := t.fresh } := by
  cases hb : windowByte off with
  | mem sp a => rw [hostRead8_of_mem hb] at h; cases h; rfl
  | reg => rw [hostRead8_of_reg hb] at h; obtain rfl := otherAccess_next h; rfl
  | unassigned => rw [hostRead8_of_unassigned hb] at h; cases h; rfl

theorem hostRead32_next {off : Nat} {s t : State} (h : hostRead32 off s = .next t) :
    t = { s with hostData := t.hostData, fresh := t.fresh } := by
  by_cases hreg : off ∈ [0x5108, 0x510C, 0x5110, 0x5114, 0x5120]
  · simp only [List.mem_cons, List.not_mem_nil, or_false] at hreg
    obtain rfl | rfl | rfl | rfl | rfl := hreg
    · cases h; rfl
    · cases h; rfl
    · cases h; rfl
    · simp only [hostRead32] at h
      split_ifs at h
      · cases h; rfl
      · cases h; rfl
    · cases h; rfl
  · rw [hostRead32_of_no_register hreg] at h
    obtain rfl := otherAccess_next h
    rfl

theorem hostRead64_next {off : Nat} {s t : State} (h : hostRead64 off s = .next t) :
    t = { s with hostData := t.hostData, fresh := t.fresh } := by
  by_cases hreg : off ∈ [0x5100, 0x5118]
  · simp only [List.mem_cons, List.not_mem_nil, or_false] at hreg
    obtain rfl | rfl := hreg
    · cases h; rfl
    · cases h; rfl
  · rw [hostRead64_of_no_register hreg] at h
    obtain rfl := otherAccess_next h
    rfl

end Sys2Proof.Machine

/-! The statements of 20_memory.md: the AddressMapper, lanes and masks, the order of accesses, and what is confined. -/

namespace Sys2Proof.Machine

open Sys2Proof

/-- Settles O14: `rowOfAddr` and `bcolOfAddr` are the inverse, and each offset has one row and byte column. -/
theorem surfAddrIsABijection : Obligations.SurfAddrIsABijection := by
  constructor
  · intro row bcol hr hb
    have h := surfAddr_of_inRange hr hb
    obtain ⟨hlt, hrow, hbcol⟩ := surfAddr_eq_some_iff_inverse.1 h
    exact ⟨_, hlt, h, bank_of_surfAddr h, hrow, hbcol⟩
  · intro a ha
    have h := surfAddr_inverse ha
    obtain ⟨hr, hb, -⟩ := surfAddr_eq_some.1 h
    refine ⟨(rowOfAddr a, bcolOfAddr a), ⟨hr, hb, h⟩, ?_⟩
    rintro ⟨row, bcol⟩ ⟨-, -, h'⟩
    obtain ⟨hrow, hbcol⟩ := surfAddr_injective h' h
    exact Prod.ext hrow hbcol

/-- Settles O42: the accesses list every byte as 0x00 and nothing else, as the cleared Surface does. -/
theorem rstsurfIsItsAscendingWrites : Obligations.RstsurfIsItsAscendingWrites := by
  intro s t hinited hwf h
  have hexec : exec .rstsurf s = .next (finishOk { s with surf := s.surf.cleared }) :=
    execRstsurf_of_inited hinited
  rw [hexec] at h
  cases h
  exact ⟨applyAccesses_clear hwf, clearAccesses_offsets⟩

/-- Settles O54, by the ways a command can end and the frame of a turn of a wait. -/
theorem engineWritesOnlyTheSurface : Obligations.EngineWritesOnlyTheSurface := by
  constructor
  · intro i s
    obtain ⟨t, ht⟩ := exec_answers i s
    have hend := exec_next ht
    obtain ⟨hatlas, hcell, hname⟩ := hend.operand_memories
    obtain ⟨hlrom, hvsto, hvsync, hreset, hacts, hdata⟩ := hend.frame
    exact ⟨t, ht, hatlas, hcell, hname, hlrom, hvsto, hacts, hdata, hvsync, hreset,
      hend.modeReqPulses_of_ne_init, hend.surf_wf⟩
  · intro wt s
    obtain ⟨-, hsurf, hatlas, hcell, hname, -, -, -, hlrom, -⟩ := waitStep_frame wt s
    exact ⟨hsurf, hatlas, hcell, hname, hlrom⟩

/-- Settles O60: every command performs its accesses, and their places are those of its primitives in order. -/
theorem accessSequenceEndsInTheFinalSurface : Obligations.AccessSequenceEndsInTheFinalSurface := by
  refine ⟨fun i s t hinit hwf h => ?_, fun tile x y color mode inverse s hi ht hx hy => ⟨?_, ?_⟩,
    fun x y w h color s hi hx hy hw hh => ?_, fun s ps hi => ⟨fun n h1 h4 hps => ?_, fun hc q hq => ⟨?_, ?_, ?_⟩⟩⟩
  · have hp := exec_performs hinit hwf h
    refine ⟨hp.leads, scanOutMaySee_end hp, scanOutMaySee_start i s, fun k => ?_, fun hfault _ => hp.noneOnFault hfault⟩
    obtain ⟨m, hm⟩ := hp.take k
    exact ⟨m, hm, k, hm⟩
  · rw [accessesOf, blitPlan_of_inRange color mode false hi ht hx hy]
    exact places_blitAccesses ..
  · rw [accessesOf, blitPlan_of_inRange color mode inverse hi ht hx hy]
    exact places_blitAccesses ..
  · rw [accessesOf, fillPlan_of_inRange color hi hx hy hw hh]
    exact places_fillAccesses ..
  · rw [accessesOf, boardPlan_of_inRange hi h1 h4, hps]
    exact places_composePlan ..
  · intro len active hlen h16 hascii hps
    rw [accessesOf, namePlan_of_inRange active hi hc hq hlen (hlen.trans h16) hascii, hps]
    exact places_composePlan ..
  · intro hcells hps
    rw [accessesOf, fieldPlan_of_inRange hi hc hq hcells, hps]
    exact places_composePlan ..
  · intro pos blink hpos hcell hps
    rw [accessesOf, cellPlan_of_inRange blink hi hc hq hpos hcell, hps]
    exact places_composePlan ..

/-- Settles O13, by the two branches of `rowOffset`. -/
theorem rowOffsetFormula : Obligations.RowOffsetFormula := by
  intro row
  exact ⟨fun h => ⟨if_pos h, by omega⟩, fun h => if_neg (by simpa using h)⟩

/-- Settles O15, by evaluating the four masks of each table. -/
theorem laneMaskTables : Obligations.LaneMaskTables := ⟨rfl, rfl, rfl, rfl, rfl, rfl⟩

/-- Settles O16: the value colour by colour, the lanes by `lane_rep`. -/
theorem repFillsEveryLane : Obligations.RepFillsEveryLane := fun c =>
  ⟨by revert c; decide, fun _ hp => lane_rep c hp⟩

/-- Settles O17: the complement and the AND each act on every lane, and `rep color` holds the colour in each. -/
theorem outByteActsLaneByLane : Obligations.OutByteActsLaneByLane := by
  intro v color mode inv p hp
  have hinv : lane (if inv then v ^^^ 0xFF#8 else v) p = if inv then ~~~(lane v p) else lane v p := by
    cases inv with
    | false => rfl
    | true => exact lane_xor_allOnes v hp
  cases mode with
  | direct => exact hinv
  | mask => simp only [outByte, lane_and, lane_rep color hp, hinv]

/-- Settles O52, by what each width of read can answer. -/
theorem hostReadsHaveNoSideEffect : Obligations.HostReadsHaveNoSideEffect := by
  rintro s t off (h | h | h)
  · exact hostRead8_next h
  · exact hostRead32_next h
  · exact hostRead64_next h

end Sys2Proof.Machine

/-! The encoding (30_encoding.md): masks of bit ranges, the fields of a packed word, the format of each command, the
decoder and the opcode table by formats, and the encoder as the decoder's inverse. -/

namespace Sys2Proof

open Sys2Proof.Machine

/-! ### Masks of bit ranges -/

/-- The mask of the bits `hi:lo`, for `r = (hi, lo)`. -/
def rangeMask (r : Nat × Nat) : CmdWord := (BitVec.allOnes (r.1 + 1 - r.2)).setWidth 64 <<< r.2

/-- The mask of several bit ranges. -/
def rangesMask (ranges : List (Nat × Nat)) : CmdWord := ranges.foldr (fun r m => rangeMask r ||| m) 0

/-- Bit ranges are equal exactly if their bits are. -/
theorem bits_eq_iff {v w : CmdWord} {hi lo : Nat} : CmdWord.bits v hi lo = CmdWord.bits w hi lo ↔
    ∀ k, lo ≤ k → k ≤ hi → v.getLsbD k = w.getLsbD k := by
  have htest (u : CmdWord) (j : Nat) :
      (CmdWord.bits u hi lo).testBit j = (decide (j < hi + 1 - lo) && u.getLsbD (lo + j)) := by
    rw [CmdWord.bits, Nat.testBit_mod_two_pow, Nat.testBit_div_two_pow, BitVec.getLsbD, Nat.add_comm j]
  constructor
  · intro h k hlo hhi
    have hk : k - lo < hi + 1 - lo := by omega
    have hbit := htest v (k - lo)
    rw [h, htest] at hbit
    simpa [hk, Nat.add_sub_cancel' hlo] using hbit.symm
  · intro h
    refine Nat.eq_of_testBit_eq fun j => ?_
    rw [htest, htest]
    by_cases hj : j < hi + 1 - lo
    · rw [h (lo + j) (by omega) (by omega)]
    · simp [hj]

theorem getLsbD_rangeMask (r : Nat × Nat) (k : Nat) :
    (rangeMask r).getLsbD k = decide (k < 64 ∧ r.2 ≤ k ∧ k ≤ r.1) := by
  rw [Bool.eq_iff_iff]
  simp only [rangeMask, BitVec.getLsbD_shiftLeft, BitVec.getLsbD_setWidth, BitVec.getLsbD_allOnes, Bool.and_eq_true,
    Bool.not_eq_true', decide_eq_true_eq, decide_eq_false_iff_not]
  omega

/-- Two words agree under a mask exactly if they agree in its bits. -/
theorem and_eq_and_iff {v w m : CmdWord} : v &&& m = w &&& m ↔
    ∀ k, m.getLsbD k = true → v.getLsbD k = w.getLsbD k := by
  rw [BitVec.eq_of_getLsbD_eq_iff]
  refine ⟨fun h k hk => by simpa [hk] using h k (BitVec.lt_of_getLsbD hk), fun h k _ => ?_⟩
  rw [BitVec.getLsbD_and, BitVec.getLsbD_and]
  cases hm : m.getLsbD k with
  | false => simp
  | true => rw [h k hm]

theorem and_rangeMask_eq_iff {v w : CmdWord} {r : Nat × Nat} :
    v &&& rangeMask r = w &&& rangeMask r ↔ CmdWord.bits v r.1 r.2 = CmdWord.bits w r.1 r.2 := by
  simp only [and_eq_and_iff, bits_eq_iff, getLsbD_rangeMask, decide_eq_true_eq]
  refine ⟨fun h k hlo hhi => ?_, fun h k ⟨_, hlo, hhi⟩ => h k hlo hhi⟩
  by_cases hk : k < 64
  · exact h k ⟨hk, hlo, hhi⟩
  · rw [BitVec.getLsbD_of_ge v k (by omega), BitVec.getLsbD_of_ge w k (by omega)]

theorem and_rangesMask_eq_iff {v w : CmdWord} (ranges : List (Nat × Nat)) :
    v &&& rangesMask ranges = w &&& rangesMask ranges ↔
      ∀ r ∈ ranges, CmdWord.bits v r.1 r.2 = CmdWord.bits w r.1 r.2 := by
  induction ranges with
  | nil => simp [rangesMask]
  | cons r rs ih =>
    have hor : v &&& (rangeMask r ||| rangesMask rs) = w &&& (rangeMask r ||| rangesMask rs) ↔
        v &&& rangeMask r = w &&& rangeMask r ∧ v &&& rangesMask rs = w &&& rangesMask rs := by
      simp only [and_eq_and_iff, BitVec.getLsbD_or, Bool.or_eq_true, or_imp, forall_and]
    rw [List.forall_mem_cons, ← and_rangeMask_eq_iff, ← ih, ← hor]
    rfl

/-! ### The six fields of a packed word, and the bit ranges of a word in terms of its fields -/

theorem attrField_packWord (op attr a b c d : Nat) : attrField (packWord op attr a b c d) = attr % 256 := by
  simp only [attrField, CmdWord.bits, packWord, BitVec.toNat_ofNat]
  omega

theorem slotA_packWord (op attr a b c d : Nat) : slotA (packWord op attr a b c d) = a % 4096 := by
  simp only [slotA, CmdWord.bits, packWord, BitVec.toNat_ofNat]
  omega

theorem slotB_packWord (op attr a b c d : Nat) : slotB (packWord op attr a b c d) = b % 4096 := by
  simp only [slotB, CmdWord.bits, packWord, BitVec.toNat_ofNat]
  omega

theorem slotC_packWord (op attr a b c d : Nat) : slotC (packWord op attr a b c d) = c % 4096 := by
  simp only [slotC, CmdWord.bits, packWord, BitVec.toNat_ofNat]
  omega

theorem slotD_packWord (op attr a b c d : Nat) : slotD (packWord op attr a b c d) = d % 4096 := by
  simp only [slotD, CmdWord.bits, packWord, BitVec.toNat_ofNat]
  omega

theorem packWord_eq_of_fields {v : CmdWord} {op attr a b c d : Nat} (hop : opField v = op) (hattr : attrField v = attr)
    (ha : slotA v = a) (hb : slotB v = b) (hc : slotC v = c) (hd : slotD v = d) : packWord op attr a b c d = v := by
  subst hop hattr ha hb hc hd
  exact packWord_fields v

@[simp] theorem slotA_lt (v : CmdWord) : slotA v < 4096 := Nat.mod_lt _ (by decide)

@[simp] theorem slotB_lt (v : CmdWord) : slotB v < 4096 := Nat.mod_lt _ (by decide)

@[simp] theorem slotC_lt (v : CmdWord) : slotC v < 4096 := Nat.mod_lt _ (by decide)

@[simp] theorem slotD_lt (v : CmdWord) : slotD v < 4096 := Nat.mod_lt _ (by decide)

theorem attrField_lt (v : CmdWord) : attrField v < 256 := Nat.mod_lt _ (by decide)

/-- A bit range inside ATTR is one of the ATTR byte. -/
theorem bits_of_attr (v : CmdWord) {hi lo : Nat} (hlo : 48 ≤ lo) (hhi : hi ≤ 55) :
    CmdWord.bits v hi lo = attrField v / 2 ^ (lo - 48) % 2 ^ (hi + 1 - lo) := by
  unfold attrField CmdWord.bits
  by_cases h : hi < lo
  · simp [Nat.sub_eq_zero_of_le h, Nat.mod_one]
  obtain ⟨k, rfl⟩ := Nat.exists_eq_add_of_le hlo
  obtain ⟨j, rfl⟩ := Nat.exists_eq_add_of_le (not_lt.1 h)
  have hpow : 2 ^ (55 + 1 - 48) = 2 ^ k * 2 ^ (55 + 1 - 48 - k) := by
    rw [← pow_add, Nat.add_sub_cancel' (by omega)]
  rw [hpow, Nat.add_sub_cancel_left, Nat.mod_mul_right_div_self, Nat.div_div_eq_div_mul, ← pow_add,
    Nat.mod_mod_of_dvd]
  exact pow_dvd_pow 2 (by omega)

/-! Reserved ranges that cover whole fields. -/

theorem bits_55_0_eq_zero {v : CmdWord} : CmdWord.bits v 55 0 = 0 ↔
    attrField v = 0 ∧ slotA v = 0 ∧ slotB v = 0 ∧ slotC v = 0 ∧ slotD v = 0 := by
  simp only [attrField, slotA, slotB, slotC, slotD, CmdWord.bits]
  omega

theorem bits_35_0_eq_zero {v : CmdWord} : CmdWord.bits v 35 0 = 0 ↔ slotB v = 0 ∧ slotC v = 0 ∧ slotD v = 0 := by
  simp only [slotB, slotC, slotD, CmdWord.bits]
  omega

theorem bits_23_0_eq_zero {v : CmdWord} : CmdWord.bits v 23 0 = 0 ↔ slotC v = 0 ∧ slotD v = 0 := by
  simp only [slotC, slotD, CmdWord.bits]
  omega

theorem bits_11_0 (v : CmdWord) : CmdWord.bits v 11 0 = slotD v := rfl

/-! ### The fields of ATTR (30_encoding.md R82) -/

theorem colorField_eq (v : CmdWord) : colorField v = BitVec.ofNat 2 (attrField v) := by
  apply BitVec.eq_of_toNat_eq
  simp [colorField, bits_of_attr]

theorem modeField_eq (v : CmdWord) : modeField v = if attrField v / 4 % 2 = 1 then .mask else .direct := by
  simp [modeField, bits_of_attr]

theorem inverseField_eq (v : CmdWord) : inverseField v = decide (attrField v / 8 % 2 = 1) := by
  simp [inverseField, bits_of_attr]

theorem activeField_eq (v : CmdWord) : activeField v = decide (attrField v / 16 % 2 = 1) := by
  simp [activeField, bits_of_attr]

theorem blinkField_eq (v : CmdWord) : blinkField v = decide (attrField v / 32 % 2 = 1) := by
  simp [blinkField, bits_of_attr]

theorem colorField_toNat (v : CmdWord) : (colorField v).toNat = attrField v % 4 := by
  simp [colorField_eq]

theorem modeField_attr (v : CmdWord) : (modeField v).attr = 4 * (attrField v / 4 % 2) := by
  rw [modeField_eq]
  split <;> simp only [MaskMode.attr] <;> omega

theorem cond_inverseField (v : CmdWord) : cond (inverseField v) 8 0 = 8 * (attrField v / 8 % 2) := by
  rw [inverseField_eq, Bool.cond_decide]
  split <;> omega

/-! ### The format of a command (30_encoding.md R84) -/

namespace Instr

/-- The bit ranges that are 0 in every word of the command (30_encoding.md R83, R87). -/
def reserved : Instr → List (Nat × Nat)
  | init => [(55, 0)]
  | rstsurf => [(55, 0)]
  | blit .. => [(55, 51), (11, 0)]
  | blitc .. => [(55, 52), (11, 0)]
  | fill .. => [(55, 50)]
  | drawboard _ => [(55, 48), (35, 0)]
  | drawname .. => [(55, 53), (51, 48), (23, 0)]
  | renderfield _ => [(55, 48), (35, 0)]
  | updatecell .. => [(55, 54), (52, 48), (23, 0)]
  | waitvsync => [(55, 0)]

/-- The command of the same name with the operands that stand in the fields of `v`. -/
def fromFields : Instr → CmdWord → Instr
  | init, _ => init
  | rstsurf, _ => rstsurf
  | blit .., v => blit (slotA v) (slotB v) (slotC v) (colorField v) (modeField v)
  | blitc .., v => blitc (slotA v) (slotB v) (slotC v) (colorField v) (modeField v) (inverseField v)
  | fill .., v => fill (slotA v) (slotB v) (slotC v) (slotD v) (colorField v)
  | drawboard _, v => drawboard (slotA v)
  | drawname .., v => drawname (slotA v) (slotB v) (activeField v)
  | renderfield _, v => renderfield (slotA v)
  | updatecell .., v => updatecell (slotA v) (slotB v) (blinkField v)
  | waitvsync, _ => waitvsync

/-- The word has the command's format: its opcode, and 0 in every reserved bit. -/
def MatchesFormat (i : Instr) (v : CmdWord) : Prop :=
  opField v = i.opcode ∧ ∀ r ∈ i.reserved, CmdWord.bits v r.1 r.2 = 0

theorem mnemonic_fromFields (i : Instr) (v : CmdWord) : (i.fromFields v).mnemonic = i.mnemonic := by
  cases i <;> rfl

theorem wellFormed_fromFields (i : Instr) (v : CmdWord) : (i.fromFields v).wellFormed = true := by
  cases i <;> simp [fromFields, wellFormed, fitsSlot]

theorem opcode_range (i : Instr) : 0 < i.opcode ∧ i.opcode < 0x0B := by
  cases i <;> simp [opcode]

end Instr

/-! ### The decoder accepts exactly the formats -/

theorem opField_of_decode {v : CmdWord} {i : Instr} (h : decode v = .ok i) : opField v = i.opcode := by
  unfold decode at h
  split at h
  case h_11 => cases h
  all_goals
    next hop =>
    obtain ⟨-, rfl⟩ := acceptIf_eq_ok.1 h
    exact hop

/-- A word with an assigned opcode is the command its fields give, provided the reserved bits are 0. -/
theorem decode_of_opField {v : CmdWord} {i : Instr} (h : opField v = i.opcode) :
    decode v = acceptIf (i.reserved.all fun r => zeroBits v r.1 r.2) i.opcode (i.fromFields v) := by
  unfold decode
  cases i <;> simp [h, Instr.opcode, Instr.reserved, Instr.fromFields, Bool.and_assoc]

theorem decode_of_matchesFormat {v : CmdWord} {i : Instr} (h : i.MatchesFormat v) :
    decode v = .ok (i.fromFields v) := by
  obtain ⟨hop, hzero⟩ := h
  rw [decode_of_opField hop, acceptIf_eq_ok, List.all_eq_true]
  exact ⟨fun r hr => zeroBits_eq_true.2 (hzero r hr), rfl⟩

/-- A word decodes to a command exactly if it has the command's format and holds its operands. -/
theorem decode_eq_ok_iff {v : CmdWord} {i : Instr} : decode v = .ok i ↔ i.MatchesFormat v ∧ i.fromFields v = i := by
  refine ⟨fun h => ?_, fun ⟨hformat, hi⟩ => (decode_of_matchesFormat hformat).trans (congrArg _ hi)⟩
  have hop := opField_of_decode h
  rw [decode_of_opField hop, acceptIf_eq_ok, List.all_eq_true] at h
  obtain ⟨hzero, hi⟩ := h
  exact ⟨⟨hop, fun r hr => zeroBits_eq_true.1 (hzero r hr)⟩, hi⟩

/-! ### The rows of the opcode table are the formats -/

namespace Instr

/-- The command's row of the opcode table: the mask has OP and the reserved bits, the pattern only the opcode. -/
def row (i : Instr) : OpcodeRow :=
  ⟨i.mnemonic, rangesMask ((63, 56) :: i.reserved), packWord i.opcode 0 0 0 0 0⟩

/-- The commands whose fields are all 0, in the order of the opcode table. -/
def blanks : List Instr :=
  [init, rstsurf, blit 0 0 0 0 .direct, blitc 0 0 0 0 .direct false, fill 0 0 0 0 0, drawboard 0, drawname 0 0 false,
    renderfield 0, updatecell 0 0 false, waitvsync]

theorem map_row_blanks : blanks.map row = opcodeTable := by decide

/-- What depends on the name of a command only can be checked on the ten blank commands. -/
theorem fromFields_zero_mem_blanks (i : Instr) : i.fromFields 0 ∈ blanks := by
  cases i <;> exact of_decide_eq_true rfl

theorem row_fromFields (i : Instr) (v : CmdWord) : (i.fromFields v).row = i.row := by
  cases i <;> rfl

theorem reserved_fromFields (i : Instr) (v : CmdWord) : (i.fromFields v).reserved = i.reserved := by
  cases i <;> rfl

theorem mem_opcodeTable {r : OpcodeRow} : r ∈ opcodeTable ↔ ∃ i : Instr, i.row = r := by
  rw [← map_row_blanks, List.mem_map]
  exact ⟨fun ⟨i, _, h⟩ => ⟨i, h⟩,
    fun ⟨i, h⟩ => ⟨i.fromFields 0, fromFields_zero_mem_blanks i, (row_fromFields i 0).trans h⟩⟩

theorem pattern_and_mask (i : Instr) : i.row.pattern &&& i.row.mask = i.row.pattern := by
  have hblanks : ∀ j ∈ blanks, j.row.pattern &&& j.row.mask = j.row.pattern := by decide
  simpa only [row_fromFields] using hblanks _ (fromFields_zero_mem_blanks i)

theorem pattern_reserved (i : Instr) : ∀ r ∈ i.reserved, CmdWord.bits i.row.pattern r.1 r.2 = 0 := by
  have hblanks : ∀ j ∈ blanks, ∀ r ∈ j.reserved, CmdWord.bits j.row.pattern r.1 r.2 = 0 := by decide
  simpa only [row_fromFields, reserved_fromFields] using hblanks _ (fromFields_zero_mem_blanks i)

theorem pattern_opField (i : Instr) : opField i.row.pattern = i.opcode :=
  Laws.opField_packWord _ _ _ _ _ _ (i.opcode_range.2.trans (by decide))

/-- Commands with one opcode have one row (30_encoding.md R88). -/
theorem row_eq_of_opcode_eq {i j : Instr} (h : i.opcode = j.opcode) : i.row = j.row := by
  have hnodup : (opcodeTable.map fun r => opField r.pattern).Nodup := by decide
  refine List.inj_on_of_nodup_map hnodup (mem_opcodeTable.2 ⟨i, rfl⟩) (mem_opcodeTable.2 ⟨j, rfl⟩) ?_
  rw [pattern_opField, pattern_opField, h]

/-- A word matches a command's row exactly if it has the command's format (30_encoding.md R89). -/
theorem and_mask_eq_pattern_iff {i : Instr} {v : CmdWord} : v &&& i.row.mask = i.row.pattern ↔ i.MatchesFormat v := by
  calc v &&& i.row.mask = i.row.pattern
      ↔ v &&& i.row.mask = i.row.pattern &&& i.row.mask := by rw [pattern_and_mask]
    _ ↔ ∀ r ∈ (63, 56) :: i.reserved, CmdWord.bits v r.1 r.2 = CmdWord.bits i.row.pattern r.1 r.2 :=
        and_rangesMask_eq_iff _
    _ ↔ opField v = opField i.row.pattern ∧
          ∀ r ∈ i.reserved, CmdWord.bits v r.1 r.2 = CmdWord.bits i.row.pattern r.1 r.2 :=
        List.forall_mem_cons
    _ ↔ i.MatchesFormat v := by
        rw [pattern_opField]
        exact and_congr_right fun _ => forall₂_congr fun r hr => by rw [pattern_reserved i r hr]

/-! ### What each format asks of the fields (30_encoding.md R84) -/

section
variable {v : CmdWord} {tile x y w h q len pos : Nat} {color : Color} {mode : MaskMode} {inverse active blink : Bool}

theorem matchesFormat_of_no_operand {i : Instr} (h : i.reserved = [(55, 0)]) : i.MatchesFormat v ↔
    opField v = i.opcode ∧ attrField v = 0 ∧ slotA v = 0 ∧ slotB v = 0 ∧ slotC v = 0 ∧ slotD v = 0 := by
  simp [MatchesFormat, h, bits_55_0_eq_zero]

theorem matchesFormat_of_one_operand {i : Instr} (h : i.reserved = [(55, 48), (35, 0)]) : i.MatchesFormat v ↔
    opField v = i.opcode ∧ attrField v = 0 ∧ slotB v = 0 ∧ slotC v = 0 ∧ slotD v = 0 := by
  simp [MatchesFormat, h, bits_35_0_eq_zero, attrField]

theorem matchesFormat_blit : (blit tile x y color mode).MatchesFormat v ↔
    opField v = 0x03 ∧ attrField v < 8 ∧ slotD v = 0 := by
  have hlt := attrField_lt v
  simp (disch := decide) only [MatchesFormat, opcode, reserved, List.forall_mem_cons, List.not_mem_nil,
    IsEmpty.forall_iff, implies_true, and_true, bits_of_attr, bits_11_0]
  omega

theorem matchesFormat_blitc : (blitc tile x y color mode inverse).MatchesFormat v ↔
    opField v = 0x04 ∧ attrField v < 16 ∧ slotD v = 0 := by
  have hlt := attrField_lt v
  simp (disch := decide) only [MatchesFormat, opcode, reserved, List.forall_mem_cons, List.not_mem_nil,
    IsEmpty.forall_iff, implies_true, and_true, bits_of_attr, bits_11_0]
  omega

theorem matchesFormat_fill : (fill x y w h color).MatchesFormat v ↔ opField v = 0x05 ∧ attrField v < 4 := by
  have hlt := attrField_lt v
  simp (disch := decide) only [MatchesFormat, opcode, reserved, List.forall_mem_cons, List.not_mem_nil,
    IsEmpty.forall_iff, implies_true, and_true, bits_of_attr]
  omega

theorem matchesFormat_drawname : (drawname q len active).MatchesFormat v ↔
    opField v = 0x07 ∧ (attrField v = 0 ∨ attrField v = 16) ∧ slotC v = 0 ∧ slotD v = 0 := by
  have hlt := attrField_lt v
  simp (disch := decide) only [MatchesFormat, opcode, reserved, List.forall_mem_cons, List.not_mem_nil,
    IsEmpty.forall_iff, implies_true, and_true, bits_of_attr, bits_23_0_eq_zero]
  omega

theorem matchesFormat_updatecell : (updatecell q pos blink).MatchesFormat v ↔
    opField v = 0x09 ∧ (attrField v = 0 ∨ attrField v = 32) ∧ slotC v = 0 ∧ slotD v = 0 := by
  have hlt := attrField_lt v
  simp (disch := decide) only [MatchesFormat, opcode, reserved, List.forall_mem_cons, List.not_mem_nil,
    IsEmpty.forall_iff, implies_true, and_true, bits_of_attr, bits_23_0_eq_zero]
  omega

end

/-! ### Encoding and its inverse -/

/-- The word of the command that stands in `v` is `v`: no bit of a word is outside its format's fields. -/
theorem encode_fromFields {i : Instr} {v : CmdWord} (h : i.MatchesFormat v) : encode (i.fromFields v) = v := by
  have hcolor := colorField_toNat v
  have hmode := modeField_attr v
  have hinverse := cond_inverseField v
  cases i
  case init | rstsurf | waitvsync =>
    obtain ⟨hop, hattr, ha, hb, hc, hd⟩ := (matchesFormat_of_no_operand rfl).1 h
    exact packWord_eq_of_fields hop hattr ha hb hc hd
  case drawboard | renderfield =>
    obtain ⟨hop, hattr, hb, hc, hd⟩ := (matchesFormat_of_one_operand rfl).1 h
    exact packWord_eq_of_fields hop hattr rfl hb hc hd
  case blit =>
    obtain ⟨hop, hattr, hd⟩ := matchesFormat_blit.1 h
    exact packWord_eq_of_fields hop (by omega) rfl rfl rfl hd
  case blitc =>
    obtain ⟨hop, hattr, hd⟩ := matchesFormat_blitc.1 h
    exact packWord_eq_of_fields hop (by omega) rfl rfl rfl hd
  case fill =>
    obtain ⟨hop, hattr⟩ := matchesFormat_fill.1 h
    exact packWord_eq_of_fields hop (by omega) rfl rfl rfl rfl
  case drawname =>
    obtain ⟨hop, hattr, hc, hd⟩ := matchesFormat_drawname.1 h
    have hactive : attrField v = cond (activeField v) 16 0 := by obtain h0 | h16 := hattr <;> simp [activeField_eq, *]
    exact packWord_eq_of_fields hop hactive rfl rfl hc hd
  case updatecell =>
    obtain ⟨hop, hattr, hc, hd⟩ := matchesFormat_updatecell.1 h
    have hblink : attrField v = cond (blinkField v) 32 0 := by obtain h0 | h32 := hattr <;> simp [blinkField_eq, *]
    exact packWord_eq_of_fields hop hblink rfl rfl hc hd

theorem opField_encode : (i : Instr) → opField (encode i) = i.opcode
  | init => Laws.EncodedOpcode.init
  | rstsurf => Laws.EncodedOpcode.rstsurf
  | blit .. => Laws.EncodedOpcode.blit ..
  | blitc .. => Laws.EncodedOpcode.blitc ..
  | fill .. => Laws.EncodedOpcode.fill ..
  | drawboard _ => Laws.EncodedOpcode.drawboard _
  | drawname .. => Laws.EncodedOpcode.drawname ..
  | renderfield _ => Laws.EncodedOpcode.renderfield _
  | updatecell .. => Laws.EncodedOpcode.updatecell ..
  | waitvsync => Laws.EncodedOpcode.waitvsync

theorem encode_matchesFormat (i : Instr) : i.MatchesFormat (encode i) := by
  cases i
  case init | rstsurf | waitvsync =>
    exact (matchesFormat_of_no_operand rfl).2 ⟨opField_encode _, attrField_packWord .., slotA_packWord ..,
      slotB_packWord .., slotC_packWord .., slotD_packWord ..⟩
  case drawboard | renderfield =>
    exact (matchesFormat_of_one_operand rfl).2
      ⟨opField_encode _, attrField_packWord .., slotB_packWord .., slotC_packWord .., slotD_packWord ..⟩
  case blit tile x y color mode =>
    refine matchesFormat_blit.2 ⟨opField_encode _, ?_, slotD_packWord ..⟩
    rw [encode, attrField_packWord]
    cases mode <;> decide +revert
  case blitc tile x y color mode inverse =>
    refine matchesFormat_blitc.2 ⟨opField_encode _, ?_, slotD_packWord ..⟩
    rw [encode, attrField_packWord]
    cases mode <;> decide +revert
  case fill x y w h color =>
    refine matchesFormat_fill.2 ⟨opField_encode _, ?_⟩
    rw [encode, attrField_packWord]
    omega
  case drawname q len active =>
    refine matchesFormat_drawname.2 ⟨opField_encode _, ?_, slotC_packWord .., slotD_packWord ..⟩
    rw [encode, attrField_packWord]
    decide +revert
  case updatecell q pos blink =>
    refine matchesFormat_updatecell.2 ⟨opField_encode _, ?_, slotC_packWord .., slotD_packWord ..⟩
    rw [encode, attrField_packWord]
    decide +revert

/-- The operands of a well-formed command fit the fields of its word (30_encoding.md R81, R83). -/
theorem fromFields_encode {i : Instr} (h : i.wellFormed = true) : i.fromFields (encode i) = i := by
  cases i
  case init | rstsurf | waitvsync => rfl
  all_goals
    simp only [wellFormed, fitsSlot, Bool.and_eq_true, decide_eq_true_eq] at h
    simp only [fromFields, encode, colorField_eq, modeField_eq, inverseField_eq, activeField_eq, blinkField_eq,
      attrField_packWord, slotA_packWord, slotB_packWord, slotC_packWord, slotD_packWord, Nat.mod_eq_of_lt, h,
      blit.injEq, blitc.injEq, fill.injEq, drawname.injEq, updatecell.injEq, true_and]
  case blit tile x y color mode => cases mode <;> decide +revert
  case blitc tile x y color mode inverse => cases mode <;> decide +revert
  case fill x y w h color => decide +revert
  case drawname q len active => decide +revert
  case updatecell q pos blink => decide +revert

end Instr

/-! ### The statements about the encoding -/

/-- Settles O1: the word of a command has the command's format, and its fields hold the operands. -/
theorem decodeOfEncodeIsTheCommand : Obligations.DecodeOfEncodeIsTheCommand := fun i hi =>
  decode_eq_ok_iff.2 ⟨i.encode_matchesFormat, Instr.fromFields_encode hi⟩

/-- A decoded word is the encoding of its well-formed command and matches the command's row. -/
theorem decode_sound {v : CmdWord} {i : Instr} (h : decode v = .ok i) :
    i.wellFormed = true ∧ encode i = v ∧ v &&& i.row.mask = i.row.pattern := by
  obtain ⟨hformat, hi⟩ := decode_eq_ok_iff.1 h
  have hwf := i.wellFormed_fromFields v
  have henc := Instr.encode_fromFields hformat
  rw [hi] at hwf henc
  exact ⟨hwf, henc, Instr.and_mask_eq_pattern_iff.2 hformat⟩

/-- Settles O2: every row is some command's, and to match it is to have that command's format. -/
theorem decodeFollowsTheOpcodeTable : Obligations.DecodeFollowsTheOpcodeTable := by
  intro v
  refine ⟨fun i h => ?_, fun r hr h => ?_, fun r hr r' hr' h h' => ?_⟩
  · obtain ⟨hwf, henc, hrow⟩ := decode_sound h
    exact ⟨hwf, henc, i.row, Instr.mem_opcodeTable.2 ⟨i, rfl⟩, rfl, hrow⟩
  · obtain ⟨i, rfl⟩ := Instr.mem_opcodeTable.1 hr
    exact ⟨i.fromFields v, decode_of_matchesFormat (Instr.and_mask_eq_pattern_iff.1 h), i.mnemonic_fromFields v⟩
  · obtain ⟨i, rfl⟩ := Instr.mem_opcodeTable.1 hr
    obtain ⟨j, rfl⟩ := Instr.mem_opcodeTable.1 hr'
    obtain ⟨hi, -⟩ := Instr.and_mask_eq_pattern_iff.1 h
    obtain ⟨hj, -⟩ := Instr.and_mask_eq_pattern_iff.1 h'
    exact Instr.row_eq_of_opcode_eq (hi.symm.trans hj)

/-- An issued word that is no command only raises ILLEGAL_COMMAND (10_state.md R29, 30_encoding.md R86, R87). -/
theorem step_of_illegal {s : State} {w : CmdWord} {rest : List HostAction} (hs : CommandIssued s w rest)
    (h : ∀ i, decode w ≠ .ok i) : step s = .next (raise .illegalCommand w (afterIssue s rest)) := by
  obtain ⟨hr, hw, ha⟩ := hs
  obtain ⟨e, he⟩ : ∃ e, decode w = .error e := by
    cases hd : decode w with
    | error e => exact ⟨e, rfl⟩
    | ok i => exact absurd hd (h i)
  calc step s = runWord w (afterIssue s rest) := step_access hr hw ha
    _ = endWithFault .illegalCommand w (afterIssue s rest) := by rw [runWord, he]

/-- Settles O5: a command's word has an assigned opcode and matches its row. -/
theorem illegalWordOnlyRaisesIllegalCommand : Obligations.IllegalWordOnlyRaisesIllegalCommand := by
  intro s w rest hs
  refine ⟨fun hop => step_of_illegal hs fun i h => ?_, fun hrows => step_of_illegal hs fun i h => ?_⟩
  · have hi := opField_of_decode h
    have hrange := i.opcode_range
    omega
  · obtain ⟨-, -, hrow⟩ := decode_sound h
    exact hrows i.row (Instr.mem_opcodeTable.2 ⟨i, rfl⟩) hrow

/-- Settles O3: the first six words are those of well-formed commands, the others are evaluated. -/
theorem writtenOutWordsDecode : Obligations.WrittenOutWordsDecode :=
  ⟨decodeOfEncodeIsTheCommand .init rfl, decodeOfEncodeIsTheCommand (.blit 0x41 5 3 2 .mask) rfl,
    decodeOfEncodeIsTheCommand (.blitc 0x21 0 0 1 .mask true) rfl,
    decodeOfEncodeIsTheCommand (.fill 0 0 320 1 2) rfl, decodeOfEncodeIsTheCommand (.drawname 1 2 true) rfl,
    decodeOfEncodeIsTheCommand (.updatecell 0 37 true) rfl, rfl, rfl, rfl⟩

end Sys2Proof

/-! What a list of accesses makes of a byte, and the outcomes of BLIT and BLITC (41_tile_blitter.md). -/

namespace Sys2Proof.Machine

open Sys2Proof

/-! ### What a list of accesses makes of a byte (20_memory.md R64 (b), 42_rect_filler.md R124) -/

/-- Accesses that were performed all lie on the Surface. -/
theorem inRange_of_applyAccesses {accs : List Access} {m m' : Mem} (h : applyAccesses accs m = some m') :
    ∀ acc ∈ accs, acc.InRange := by
  induction accs generalizing m with
  | nil => simp
  | cons acc rest ih =>
    obtain ⟨m₁, h₁, h₂⟩ := applyAccesses_cons_eq_some.1 h
    obtain ⟨a, ha, -⟩ := applyAccess_eq_some.1 h₁
    exact List.forall_mem_cons.2 ⟨inRange_of_surfAddr ha, ih h₂⟩

/-- To set the same bits twice is to set them once. -/
theorem AccessKind.result_result (k : AccessKind) (old : Byte) : k.result (k.result old) = k.result old := by
  cases k with
  | put v => rfl
  | merge fill mask =>
    ext i hi
    cases hmask : mask[i] <;> simp [AccessKind.result, hmask]

/-- Two accesses to a byte in turn act as one: the later one wins in every bit that both set. -/
theorem AccessKind.exists_result_comp (k₁ k₂ : AccessKind) :
    ∃ k : AccessKind, ∀ old, k.result old = k₂.result (k₁.result old) := by
  cases k₂ with
  | put v => exact ⟨.put v, fun _ => rfl⟩
  | merge fill₂ mask₂ =>
    cases k₁ with
    | put v => exact ⟨.put ((AccessKind.merge fill₂ mask₂).result v), fun _ => rfl⟩
    | merge fill₁ mask₁ =>
      refine ⟨.merge ((AccessKind.merge fill₂ mask₂).result fill₁) (mask₁ ||| mask₂), fun old => ?_⟩
      ext i hi
      cases h₁ : mask₁[i] <;> cases h₂ : mask₂[i] <;> simp [AccessKind.result, h₁, h₂]

/-- Accesses make of a byte what a single one would: the same for every content of the Surface. -/
theorem exists_result_of_applyAccesses (accs : List Access) (a : Nat) : ∃ k : AccessKind,
    ∀ {m m' : Mem}, applyAccesses accs m = some m' → m'.read .surf a = k.result (m.read .surf a) := by
  induction accs with
  | nil =>
    refine ⟨.merge 0#8 0#8, fun {m m'} h => ?_⟩
    obtain rfl : m = m' := Option.some.inj h
    simp only [AccessKind.result, BitVec.and_zero, BitVec.or_zero, BitVec.not_zero, BitVec.and_allOnes]
  | cons acc rest ih =>
    obtain ⟨k, hk⟩ := ih
    by_cases hacc : surfAddr acc.row acc.bcol = some a
    · obtain ⟨k', hk'⟩ := acc.kind.exists_result_comp k
      refine ⟨k', fun h => ?_⟩
      obtain ⟨m₁, h₁, h₂⟩ := applyAccesses_cons_eq_some.1 h
      obtain ⟨b, hb, rfl⟩ := applyAccess_eq_some.1 h₁
      obtain rfl : a = b := by simpa [hacc] using hb
      rw [hk h₂, Mem.read_write_same, hk']
    · refine ⟨k, fun h => ?_⟩
      obtain ⟨m₁, h₁, h₂⟩ := applyAccesses_cons_eq_some.1 h
      obtain ⟨b, hb, rfl⟩ := applyAccess_eq_some.1 h₁
      rw [hk h₂, Mem.read_write_other]
      rintro rfl
      exact hacc hb

/-- A touched byte is listed, with what one of the accesses that touch it left there. -/
theorem applyAccesses_lookup_touched {accs : List Access} {m m' : Mem} (h : applyAccesses accs m = some m') {a : Nat}
    (ha : ¬ Untouched accs a) : ∃ acc ∈ accs, surfAddr acc.row acc.bcol = some a ∧
      ∃ old, lookupCells m'.cells a = some (acc.kind.result old) := by
  induction accs generalizing m with
  | nil => simp [Untouched] at ha
  | cons acc rest ih =>
    obtain ⟨m₁, h₁, h₂⟩ := applyAccesses_cons_eq_some.1 h
    by_cases hrest : Untouched rest a
    · have hacc : surfAddr acc.row acc.bcol = some a := by
        by_contra hne
        exact ha (List.forall_mem_cons.2 ⟨hne, hrest⟩)
      obtain ⟨b, hb, rfl⟩ := applyAccess_eq_some.1 h₁
      obtain rfl : a = b := by simpa [hacc] using hb
      refine ⟨acc, by simp, hacc, m.read .surf a, ?_⟩
      rw [applyAccesses_lookup_untouched h₂ hrest]
      exact lookup_write_same _ _ _
    · obtain ⟨acc', hmem, hacc'⟩ := ih h₂ hrest
      exact ⟨acc', by simp [hmem], hacc'⟩

/-- Accesses performed a second time change nothing: puts and merges set fixed bits, in whatever order. -/
theorem applyAccesses_repeat {accs : List Access} {m m' : Mem} (hm : m.wf .surf = true)
    (h : applyAccesses accs m = some m') : applyAccesses accs m' = some m' := by
  obtain ⟨m'', h'⟩ := applyAccesses_of_inRange (inRange_of_applyAccesses h) m'
  have hwf : m'.wf .surf = true := applyAccesses_wf hm h
  have hread : ∀ a, m''.read .surf a = m'.read .surf a := fun a => by
    obtain ⟨k, hk⟩ := exists_result_of_applyAccesses accs a
    rw [hk h', hk h, k.result_result]
  have hlookup : ∀ a, lookupCells m''.cells a = lookupCells m'.cells a := fun a => by
    by_cases ha : Untouched accs a
    · exact applyAccesses_lookup_untouched h' ha
    · obtain ⟨_, _, _, _, hold⟩ := applyAccesses_lookup_touched h ha
      obtain ⟨_, _, _, _, hold'⟩ := applyAccesses_lookup_touched h' ha
      have hbytes := hread a
      simp only [Mem.read, hold, hold'] at hbytes
      rw [hold, hold', hbytes]
  rw [h', Mem.ext_of_lookup (applyAccesses_wf hwf h') hwf (applyAccesses_stamp h') hlookup]

/-- A planned command that ended OK changes nothing when it is repeated, if its plan looks neither at SURF nor at
RESULT. -/
theorem runPlan_repeat {w : CmdWord} {plan : State → Except ResultCode (List Access)} {s t : State}
    (hwf : s.surf.wf .surf = true) (hne : plan s ≠ .error .ok)
    (hplan : ∀ m, plan { s with surf := m, result := .ok } = plan s)
    (h : runPlan w (plan s) s = .next t) (hok : t.result = .ok) : runPlan w (plan t) t = .next t := by
  obtain ⟨c, hc, rfl⟩ | ⟨accs, m, haccs, hm, rfl⟩ := runPlan_next h
  · rw [raise_result] at hok
    exact absurd (hok ▸ hc) hne
  · rw [hplan, haccs]
    simp [runPlan, performAndFinish, applyAccesses_repeat hwf hm, finishOk]

/-! ### The bytes of a blit (41_tile_blitter.md R100 to R103) -/

theorem untouched_blitAccesses {atlas : Mem} {tile col prow : Nat} {color : Color} {mode : MaskMode} {inv : Bool}
    {a : Nat} : Untouched (blitAccesses atlas tile col prow color mode inv) a ↔
      ∀ r b, r < 8 → b < 2 → surfAddr (prow + r) (2 * col + b) ≠ some a := by
  constructor
  · exact fun h r b hr hb => h _ (mem_blitAccesses.2 ⟨r, b, hr, hb, rfl⟩)
  · intro h acc hacc
    obtain ⟨r, b, hr, hb, rfl⟩ := mem_blitAccesses.1 hacc
    exact h r b hr hb

/-- A blit leaves in each of its sixteen bytes the tile's byte, inverted and masked (R101, R102). -/
theorem read_blitAccesses {atlas : Mem} {tile col prow : Nat} {color : Color} {mode : MaskMode} {inv : Bool}
    {m m' : Mem} (h : applyAccesses (blitAccesses atlas tile col prow color mode inv) m = some m')
    {r b a : Nat} (hr : r < 8) (hb : b < 2) (ha : surfAddr (prow + r) (2 * col + b) = some a) :
    m'.read .surf a = outByte (tileByte atlas tile r b) color mode inv := by
  obtain ⟨acc, hacc, ha', old, hold⟩ :=
    applyAccesses_lookup_touched h fun hun => untouched_blitAccesses.1 hun r b hr hb ha
  obtain ⟨r', b', -, -, rfl⟩ := mem_blitAccesses.1 hacc
  obtain ⟨hrow, hbcol⟩ := surfAddr_injective ha ha'
  obtain rfl : r = r' := by simpa using hrow
  obtain rfl : b = b' := by simpa using hbcol
  simp [Mem.read, hold, AccessKind.result]

theorem outByte_mask_and_not_rep (v : Byte) (color : Color) (inv : Bool) :
    outByte v color .mask inv &&& ~~~(rep color) = 0 := by
  simp [outByte, BitVec.and_assoc]

/-! ### The outcomes of BLIT and BLITC (41_tile_blitter.md R104, R106); `w` is the command's word -/

theorem blitPlan_of_not_inited (tile x y : Nat) (color : Color) (mode : MaskMode) (inv : Bool) {s : State}
    (hi : s.status.inited = false) : blitPlan tile x y color mode inv s = .error .notReady := by
  simp [blitPlan, initedReady, hi]

theorem blitPlan_of_outOfBounds {tile x y : Nat} (color : Color) (mode : MaskMode) (inv : Bool) {s : State}
    (hi : s.status.inited = true) (h : 255 < tile ∨ 39 < x ∨ 24 < y) :
    blitPlan tile x y color mode inv s = .error .outOfBounds := by
  have hrange : blitInRange tile x y = false := by
    simp only [blitInRange, Bool.and_eq_false_iff, decide_eq_false_iff_not]
    omega
  simp [blitPlan, initedReady, hi, hrange]

theorem runPlan_blitPlan_of_inRange (w : CmdWord) {tile x y : Nat} (color : Color) (mode : MaskMode) (inv : Bool)
    {s : State} (hi : s.status.inited = true) (ht : tile ≤ 255) (hx : x ≤ 39) (hy : y ≤ 24) :
    ∃ m, applyAccesses (blitAccesses s.atlas tile x (8 * y) color mode inv) s.surf = some m ∧
      runPlan w (blitPlan tile x y color mode inv s) s = .next { s with surf := m, result := .ok } := by
  rw [blitPlan_of_inRange color mode inv hi ht hx hy]
  exact performAndFinish_of_inRange (blitAccesses_inRange (by omega) (by omega)) s

/-- A blit whose checks pass writes the tile's sixteen bytes and no other. -/
theorem runPlan_blitPlan_writes_tile (w : CmdWord) {tile x y : Nat} (color : Color) (mode : MaskMode) (inv : Bool)
    {s : State} (hi : s.status.inited = true) (ht : tile ≤ 255) (hx : x ≤ 39) (hy : y ≤ 24) :
    ∃ m, runPlan w (blitPlan tile x y color mode inv s) s = .next { s with surf := m, result := .ok } ∧
      (∀ r b, r < 8 → b < 2 → ∃ a, surfAddr (8 * y + r) (2 * x + b) = some a ∧
        m.read .surf a = outByte (tileByte s.atlas tile r b) color mode inv) ∧
      ∀ a, (∀ r b, r < 8 → b < 2 → surfAddr (8 * y + r) (2 * x + b) ≠ some a) →
        m.read .surf a = s.surf.read .surf a := by
  obtain ⟨m, hm, hrun⟩ := runPlan_blitPlan_of_inRange w color mode inv hi ht hx hy
  refine ⟨m, hrun, fun r b hr hb => ?_, fun a ha => ?_⟩
  · have ha := surfAddr_of_inRange (row := 8 * y + r) (bcol := 2 * x + b) (by omega) (by omega)
    exact ⟨_, ha, read_blitAccesses hm hr hb ha⟩
  · exact applyAccesses_read_untouched hm (untouched_blitAccesses.2 ha)

/-! ### The statements about the tile blitter -/

/-- Settles O18: the plan is a fault in the first two cases, and writes the tile in the third. -/
theorem blitWritesTheTile : Obligations.BlitWritesTheTile := by
  intro tile x y color mode s
  refine ⟨fun hi => ?_, fun hi h => ?_, fun hi ht hx hy => ?_⟩
  · exact congrArg (runPlan _ · s) (blitPlan_of_not_inited tile x y color mode false hi)
  · exact congrArg (runPlan _ · s) (blitPlan_of_outOfBounds color mode false hi h)
  · exact runPlan_blitPlan_writes_tile _ color mode false hi ht hx hy

/-- Settles O19, as O18 with the inverse flag. -/
theorem blitcWritesTheTile : Obligations.BlitcWritesTheTile := by
  intro tile x y color mode inverse s
  refine ⟨fun hi => ?_, fun hi h => ?_, fun hi ht hx hy => ?_⟩
  · exact congrArg (runPlan _ · s) (blitPlan_of_not_inited tile x y color mode inverse hi)
  · exact congrArg (runPlan _ · s) (blitPlan_of_outOfBounds color mode inverse hi h)
  · exact runPlan_blitPlan_writes_tile _ color mode inverse hi ht hx hy

/-- Settles O20: each of the blit's bytes is an `outByte`, which in mask mode was ANDed with `rep color`. -/
theorem blitBytesKeepToTheMask : Obligations.BlitBytesKeepToTheMask := by
  intro tile x y color s hi ht hx hy
  constructor
  · obtain ⟨m, hm, hrun⟩ := runPlan_blitPlan_of_inRange _ color .mask false hi ht hx hy
    refine ⟨_, hrun, fun r b a hr hb ha => ?_⟩
    rw [read_blitAccesses hm hr hb ha, outByte_mask_and_not_rep]
  · obtain ⟨m, hm, hrun⟩ := runPlan_blitPlan_of_inRange _ color .direct false hi ht hx hy
    exact ⟨_, hrun, fun r b a hr hb ha => read_blitAccesses hm hr hb ha⟩

/-- Settles O21: the plan of a blit looks at STATUS and ATLAS only, and its accesses set fixed bytes. -/
theorem blitsAreIdempotent : Obligations.BlitsAreIdempotent := by
  intro tile x y color mode inverse s t hwf
  constructor
  · exact runPlan_repeat (plan := blitPlan tile x y color mode false) hwf blitPlan_ne_errorOk fun _ => rfl
  · exact runPlan_repeat (plan := blitPlan tile x y color mode inverse) hwf blitPlan_ne_errorOk fun _ => rfl

end Sys2Proof.Machine

/-! What a fill makes of each lane of SURF, and the outcomes of FILL (42_rect_filler.md). -/

namespace Sys2Proof.Machine

open Sys2Proof

/-! ### Lanes of masks and merges (20_memory.md R57, 42_rect_filler.md R124) -/

theorem lane_or (u v : Byte) (p : Nat) : lane (u ||| v) p = lane u p ||| lane v p := by
  simp [lane, BitVec.ushiftRight_or_distrib]

theorem lane_not (v : Byte) {p : Nat} (hp : p < 4) : lane (~~~v) p = ~~~(lane v p) := by
  rw [← lane_xor_allOnes v hp, ← BitVec.xor_allOnes]
  rfl

theorem lane_leftMask {p q : Nat} (hp : p < 4) (hq : q < 4) :
    lane (leftMask q) p = if q ≤ p then BitVec.allOnes 2 else 0#2 := by
  interval_cases p <;> interval_cases q <;> rfl

theorem lane_rightMask {p q : Nat} (hp : p < 4) (hq : q < 4) :
    lane (rightMask q) p = if p ≤ q then BitVec.allOnes 2 else 0#2 := by
  interval_cases p <;> interval_cases q <;> rfl

theorem lane_leftMask_and_rightMask {p q r : Nat} (hp : p < 4) (hq : q < 4) (hr : r < 4) :
    lane (leftMask q &&& rightMask r) p = if q ≤ p ∧ p ≤ r then BitVec.allOnes 2 else 0#2 := by
  rw [lane_and, lane_leftMask hp hq, lane_rightMask hp hr]
  by_cases hqp : q ≤ p
  · simp only [hqp, true_and, if_true]
    split_ifs <;> rfl
  · simp only [hqp, false_and, if_false, BitVec.zero_and]

/-- A merge gives the colour to the lanes that its mask covers and keeps the others. -/
theorem lane_merge_rep {mask : Byte} {p : Nat} (hp : p < 4) {P : Prop} [Decidable P]
    (hmask : lane mask p = if P then BitVec.allOnes 2 else 0#2) (color : Color) (old : Byte) :
    lane ((AccessKind.merge (rep color) mask).result old) p = if P then color else lane old p := by
  rw [AccessKind.result, lane_or, lane_and, lane_and, lane_not _ hp, lane_rep _ hp, hmask]
  split_ifs
  · rw [BitVec.not_allOnes, BitVec.and_zero, BitVec.zero_or, BitVec.and_allOnes]
  · rw [BitVec.not_zero, BitVec.and_allOnes, BitVec.and_zero, BitVec.or_zero]

/-- The four lanes make up the byte (R54). -/
theorem byte_ext_of_lanes {u v : Byte} (h : ∀ p, p < 4 → lane u p = lane v p) : u = v := by
  refine BitVec.eq_of_getLsbD_eq fun i hi => ?_
  have hbit := congrArg (·.getLsbD (i % 2)) (h (3 - i / 2) (by omega))
  have hindex : 6 - 2 * (3 - i / 2) + i % 2 = i := by omega
  have hlow : i % 2 < 2 := Nat.mod_lt _ (by decide)
  simpa [lane, laneShift, Config.pixelOrder, hlow, hindex] using hbit

/-! ### What a fill makes of a lane (R121 to R124) -/

/-- The access gives the colour to those lanes of its byte column that lie in the pixel columns `x..x+w-1`, and keeps
the others. `paints_of_mem_fillAccesses` ties it to the accesses of a fill. -/
def Access.Paints (x w : Nat) (color : Color) (acc : Access) : Prop :=
  ∀ old p, p < 4 → lane (acc.kind.result old) p =
    if x ≤ 4 * acc.bcol + p ∧ 4 * acc.bcol + p < x + w then color else lane old p

/-- A merge paints the span if its mask covers the lanes of the span. -/
theorem Access.Paints.of_merge {x w row bcol : Nat} {color : Color} {mask : Byte}
    (h : ∀ p, p < 4 → lane mask p = if x ≤ 4 * bcol + p ∧ 4 * bcol + p < x + w then BitVec.allOnes 2 else 0#2) :
    Access.Paints x w color ⟨row, bcol, .merge (rep color) mask⟩ :=
  fun old p hp => lane_merge_rep hp (h p hp) color old

theorem startPixel_lt (x : Nat) : startPixel x < 4 := Nat.mod_lt _ (by decide)

theorem endPixel_lt (x w : Nat) : endPixel x w < 4 := Nat.mod_lt _ (by decide)

/-- Each access of a row paints the span, by its place: the only byte, the start byte, a middle byte, the end byte. -/
theorem paints_of_mem_fillRowAccesses {x w row : Nat} (hw : w ≠ 0) {color : Color} {acc : Access}
    (hacc : acc ∈ fillRowAccesses x w color row) : acc.Paints x w color := by
  have hle := startByte_le_endByte x hw
  unfold fillRowAccesses at hacc
  split_ifs at hacc with he
  · obtain rfl := List.mem_singleton.1 hacc
    refine .of_merge fun p hp => ?_
    rw [lane_leftMask_and_rightMask hp (startPixel_lt x) (endPixel_lt x w)]
    simp only [startByte, endByte, startPixel, endPixel] at *
    exact if_congr (by omega) rfl rfl
  · simp only [List.cons_append, List.mem_cons, List.mem_append, List.mem_map, List.mem_range, List.not_mem_nil,
      or_false] at hacc
    obtain rfl | ⟨k, hk, rfl⟩ | rfl := hacc
    · refine .of_merge fun p hp => ?_
      rw [lane_leftMask hp (startPixel_lt x)]
      simp only [startByte, endByte, startPixel] at *
      exact if_congr (by omega) rfl rfl
    · intro old p hp
      have hspan : x ≤ 4 * (startByte x + 1 + k) + p ∧ 4 * (startByte x + 1 + k) + p < x + w := by
        simp only [startByte, endByte] at *
        omega
      exact (lane_rep color hp).trans (if_pos hspan).symm
    · refine .of_merge fun p hp => ?_
      rw [lane_rightMask hp (endPixel_lt x w)]
      simp only [startByte, endByte, endPixel] at *
      exact if_congr (by omega) rfl rfl

theorem paints_of_mem_fillAccesses {x y w h : Nat} {color : Color} {acc : Access}
    (hacc : acc ∈ fillAccesses x y w h color) : acc.Paints x w color := by
  have hw : w ≠ 0 := (mem_fillAccesses hacc).1
  rw [fillAccesses, if_neg hw] at hacc
  obtain ⟨j, -, hj⟩ := List.mem_flatMap.1 hacc
  exact paints_of_mem_fillRowAccesses hw hj

theorem fillAccesses_of_empty {x y w h : Nat} (color : Color) (he : w = 0 ∨ h = 0) :
    fillAccesses x y w h color = [] := by
  obtain rfl | rfl := he <;> simp [fillAccesses]

theorem mem_rectPlaces {x y w h row bcol : Nat} : (row, bcol) ∈ rectPlaces x y w h ↔
    w ≠ 0 ∧ y ≤ row ∧ row < y + h ∧ x / 4 ≤ bcol ∧ bcol ≤ (x + w - 1) / 4 := by
  unfold rectPlaces
  split_ifs with hw
  · simp [hw]
  · simp only [List.mem_flatMap, List.mem_map, List.mem_range'_1, Prod.mk.injEq]
    constructor
    · rintro ⟨_, hrow, _, hbcol, rfl, rfl⟩
      omega
    · intro hplace
      exact ⟨row, by omega, bcol, by omega, rfl, rfl⟩

/-- Accesses touch the byte of every place they visit. -/
theorem not_untouched_of_mem_places {accs : List Access} {row bcol a : Nat} (hplace : (row, bcol) ∈ places accs)
    (ha : surfAddr row bcol = some a) : ¬ Untouched accs a := by
  obtain ⟨acc, hacc, heq⟩ := List.mem_map.1 hplace
  obtain ⟨rfl, rfl⟩ := Prod.mk.inj heq
  exact fun hun => hun acc hacc ha

/-- A fill touches the byte of every pixel of its rectangle. -/
theorem not_untouched_fillAccesses {x y w h : Nat} (color : Color) {row bcol p a : Nat} (hp : p < 4)
    (ha : surfAddr row bcol = some a) (hrow : y ≤ row) (hrow' : row < y + h) (hpx : x ≤ 4 * bcol + p)
    (hpx' : 4 * bcol + p < x + w) : ¬ Untouched (fillAccesses x y w h color) a := by
  refine not_untouched_of_mem_places (row := row) (bcol := bcol) ?_ ha
  rw [places_fillAccesses, mem_rectPlaces]
  omega

theorem untouched_fillAccesses {x y w h : Nat} {color : Color} {a : Nat}
    (ha : ∀ row bcol, y ≤ row → row < y + h → x / 4 ≤ bcol → bcol ≤ (x + w - 1) / 4 → surfAddr row bcol ≠ some a) :
    Untouched (fillAccesses x y w h color) a := by
  intro acc hacc
  obtain ⟨-, h₁, h₂, h₃, h₄⟩ := mem_fillAccesses hacc
  exact ha acc.row acc.bcol h₁ h₂ h₃ h₄

/-- What every access to a byte keeps of it, all of them keep. -/
theorem applyAccesses_keeps {α : Type} (f : Byte → α) {accs : List Access} {a : Nat}
    (hf : ∀ acc ∈ accs, surfAddr acc.row acc.bcol = some a → ∀ old, f (acc.kind.result old) = f old)
    {m m' : Mem} (h : applyAccesses accs m = some m') : f (m'.read .surf a) = f (m.read .surf a) := by
  induction accs generalizing m with
  | nil => cases h; rfl
  | cons acc rest ih =>
    obtain ⟨m₁, h₁, h₂⟩ := applyAccesses_cons_eq_some.1 h
    obtain ⟨b, hb, rfl⟩ := applyAccess_eq_some.1 h₁
    rw [ih (fun x hx => hf x (by simp [hx])) h₂, Mem.read_write]
    split_ifs with hab
    · subst hab
      exact hf acc (by simp) hb _
    · rfl

theorem pixel_of_surfAddr {m : Mem} {row px a : Nat} (ha : surfAddr row (px / 4) = some a) :
    pixel m row px = some (lane (m.read .surf a) (px % 4)) := by
  simp [pixel, ha]

section Filled

variable {x y w h : Nat} {color : Color} {m m' : Mem} {row a : Nat}

/-- A fill paints exactly the lanes of its rectangle (R123). -/
theorem lane_fillAccesses (hm : applyAccesses (fillAccesses x y w h color) m = some m') {bcol p : Nat} (hp : p < 4)
    (ha : surfAddr row bcol = some a) :
    lane (m'.read .surf a) p =
      if y ≤ row ∧ row < y + h ∧ x ≤ 4 * bcol + p ∧ 4 * bcol + p < x + w then color
      else lane (m.read .surf a) p := by
  split_ifs with hin
  · obtain ⟨hrow, hrow', hpx, hpx'⟩ := hin
    obtain ⟨acc, hacc, ha', old, hold⟩ :=
      applyAccesses_lookup_touched hm (not_untouched_fillAccesses color hp ha hrow hrow' hpx hpx')
    obtain ⟨-, rfl⟩ := surfAddr_injective ha' ha
    simp only [Mem.read, hold]
    rw [paints_of_mem_fillAccesses hacc old p hp, if_pos ⟨hpx, hpx'⟩]
  · refine applyAccesses_keeps (lane · p) (fun acc hacc ha' old => ?_) hm
    obtain ⟨rfl, rfl⟩ := surfAddr_injective ha' ha
    obtain ⟨-, hrow, hrow', -, -⟩ := mem_fillAccesses hacc
    rw [paints_of_mem_fillAccesses hacc old p hp, if_neg fun hspan => hin ⟨hrow, hrow', hspan⟩]

theorem pixel_fillAccesses (hm : applyAccesses (fillAccesses x y w h color) m = some m') {px : Nat} (hr : row < 200)
    (hpx : px < 320) :
    pixel m' row px = if y ≤ row ∧ row < y + h ∧ x ≤ px ∧ px < x + w then some color else pixel m row px := by
  have ha := surfAddr_of_inRange (row := row) (bcol := px / 4) hr (by omega)
  rw [pixel_of_surfAddr ha, pixel_of_surfAddr ha, lane_fillAccesses hm (Nat.mod_lt _ (by decide)) ha,
    Nat.div_add_mod, apply_ite some]

/-- A byte all of whose lanes lie in the rectangle is listed with the colour in every lane. -/
theorem lookup_fillAccesses (hm : applyAccesses (fillAccesses x y w h color) m = some m') {bcol : Nat}
    (ha : surfAddr row bcol = some a) (hrow : y ≤ row) (hrow' : row < y + h) (hx : x ≤ 4 * bcol)
    (hx' : 4 * bcol + 4 ≤ x + w) : lookupCells m'.cells a = some (rep color) := by
  obtain ⟨acc, -, -, old, hold⟩ := applyAccesses_lookup_touched hm
    (not_untouched_fillAccesses color (p := 0) (by decide) ha hrow hrow' (by omega) (by omega))
  have hread : m'.read .surf a = acc.kind.result old := by simp only [Mem.read, hold]
  have hrep : acc.kind.result old = rep color := byte_ext_of_lanes fun p hp => by
    rw [← hread, lane_fillAccesses hm hp ha, if_pos (by omega), lane_rep color hp]
  rw [hold, hrep]

end Filled

/-- A fill of the whole Surface lists every byte with the colour in every lane (R126 (g)). -/
theorem lookup_fillAccesses_full {color : Color} {m m' : Mem}
    (hm : applyAccesses (fillAccesses 0 0 320 200 color) m = some m') {a : Nat} (ha : a < 16000) :
    lookupCells m'.cells a = some (rep color) := by
  have haddr := surfAddr_inverse ha
  obtain ⟨hr, hb⟩ : rowOfAddr a < 200 ∧ bcolOfAddr a < 80 :=
    ⟨(surfAddr_eq_some.1 haddr).1, (surfAddr_eq_some.1 haddr).2.1⟩
  exact lookup_fillAccesses hm haddr (by omega) (by omega) (by omega) (by omega)

/-- A fill of the whole Surface in the background colour leads to the cleared Surface (45_surface_control.md
R189 (d)). -/
theorem eq_cleared_of_fillAccesses_full {m m' : Mem} (hwf : m.wf .surf = true)
    (hm : applyAccesses (fillAccesses 0 0 320 200 0) m = some m') : m' = m.cleared := by
  have hwf' : m'.wf .surf = true := applyAccesses_wf hwf hm
  refine Mem.ext_of_lookup hwf' (Mem.wf_cleared m) (by simpa using applyAccesses_stamp hm) fun a => ?_
  rw [lookup_cleared]
  split_ifs with ha
  · exact lookup_fillAccesses_full hm ha
  · exact lookup_of_bound_le hwf' (Nat.le_of_not_lt ha)

/-! ### The outcomes of FILL (R125) -/

theorem fillPlan_of_not_inited (x y w h : Nat) (color : Color) {s : State} (hi : s.status.inited = false) :
    fillPlan x y w h color s = .error .notReady := by
  simp [fillPlan, initedReady, hi]

theorem fillPlan_of_outOfBounds {x y w h : Nat} (color : Color) {s : State} (hi : s.status.inited = true)
    (hout : 319 < x ∨ 199 < y ∨ 320 < x + w ∨ 200 < y + h) : fillPlan x y w h color s = .error .outOfBounds := by
  have hrange : fillInRange x y w h = false := by
    simp only [fillInRange, Bool.and_eq_false_iff, decide_eq_false_iff_not]
    omega
  simp [fillPlan, initedReady, hi, hrange]

theorem exec_fill_of_inRange {x y w h : Nat} (color : Color) {s : State} (hi : s.status.inited = true)
    (hx : x ≤ 319) (hy : y ≤ 199) (hw : x + w ≤ 320) (hh : y + h ≤ 200) :
    ∃ m, applyAccesses (fillAccesses x y w h color) s.surf = some m ∧
      exec (.fill x y w h color) s = .next { s with surf := m, result := .ok } := by
  have hexec : exec (.fill x y w h color) s = performAndFinish (fillAccesses x y w h color) s :=
    congrArg (runPlan _ · s) (fillPlan_of_inRange color hi hx hy hw hh)
  rw [hexec]
  exact performAndFinish_of_inRange (fillAccesses_inRange hw hh) s

/-! ### The statements about the rectangle filler -/

/-- Settles O22: the plan is a fault in the first two cases; in the third its accesses lie in the stated columns. -/
theorem fillFollowsItsRule : Obligations.FillFollowsItsRule := by
  intro x y w h color s
  refine ⟨fun hi => ?_, fun hi hout => ?_, fun hi hx hy hw hh => ?_⟩
  · exact congrArg (runPlan _ · s) (fillPlan_of_not_inited x y w h color hi)
  · exact congrArg (runPlan _ · s) (fillPlan_of_outOfBounds color hi hout)
  · obtain ⟨m, hm, hexec⟩ := exec_fill_of_inRange color hi hx hy hw hh
    refine ⟨fun he => ?_, m, hexec, hm, fun a ha => ?_⟩
    · rw [fillAccesses_of_empty color he] at hm
      cases hm
      exact hexec
    · exact applyAccesses_read_untouched hm (untouched_fillAccesses ha)

/-- Settles O23: a fill's accesses paint exactly the lanes of the rectangle. -/
theorem fillPaintsExactlyTheRectangle : Obligations.FillPaintsExactlyTheRectangle := by
  intro x y w h color s hi hx hy hw hh
  obtain ⟨m, hm, hexec⟩ := exec_fill_of_inRange color hi hx hy hw hh
  exact ⟨m, hexec, fun row px hr hpx => pixel_fillAccesses hm hr hpx⟩

/-- Settles O24: the plan of a fill looks at STATUS only, and its accesses set fixed bits. -/
theorem fillIsIdempotent : Obligations.FillIsIdempotent := by
  intro x y w h color s t hwf
  exact runPlan_repeat (plan := fillPlan x y w h color) hwf fillPlan_ne_errorOk fun _ => rfl

/-- Settles O41: every byte of the Surface lies in the rectangle with all its lanes. -/
theorem rstsurfEqualsFullBackgroundFill : Obligations.RstsurfEqualsFullBackgroundFill := by
  intro s hi
  constructor
  · intro c
    obtain ⟨m, hm, hexec⟩ := exec_fill_of_inRange (x := 0) (y := 0) (w := 320) (h := 200) c hi
      (by decide) (by decide) (by decide) (by decide)
    exact ⟨m, hexec, fun a ha => by simp only [Mem.read, lookup_fillAccesses_full hm ha]⟩
  · intro hwf
    obtain ⟨m, hm, hexec⟩ := exec_fill_of_inRange (x := 0) (y := 0) (w := 320) (h := 200) 0 hi
      (by decide) (by decide) (by decide) (by decide)
    rw [hexec, eq_cleared_of_fillAccesses_full hwf hm]
    exact execRstsurf_of_inited hi

/-- Settles O25: the offsets below 80 are row 0, whose bytes the fill sets; it touches no other cleared byte. -/
theorem clearThenFillFirstRow : Obligations.ClearThenFillFirstRow := by
  intro s hi
  obtain ⟨m, hm, hexec⟩ := exec_fill_of_inRange (x := 0) (y := 0) (w := 320) (h := 1) 2
    (s := finishOk { s with surf := s.surf.cleared }) hi (by decide) (by decide) (by decide) (by decide)
  refine ⟨_, _, execRstsurf_of_inited hi, hexec, fun a ha => ?_⟩
  split_ifs with hrow
  · have haddr : surfAddr 0 a = some a := surfAddr_eq_some.2 ⟨by decide, hrow, by omega⟩
    have hlookup := lookup_fillAccesses hm haddr (by omega) (by omega) (by omega) (by omega)
    simp only [Mem.read, hlookup]
    rfl
  · have hun : Untouched (fillAccesses 0 0 320 1 2) a := untouched_fillAccesses fun row bcol _ hlt _ hle heq => by
      obtain ⟨-, -, rfl⟩ := surfAddr_eq_some.1 heq
      omega
    have hlookup : lookupCells s.surf.cleared.cells a = some 0x00#8 := by rw [lookup_cleared, if_pos ha]
    rw [applyAccesses_read_untouched hm hun]
    simp only [finishOk, Mem.read, hlookup]

end Sys2Proof.Machine

/-! Placed entries, the well-formed layout store, and the outcomes of DRAWBOARD and DRAWNAME (43_board_composer.md). -/

namespace Sys2Proof.Machine

open Sys2Proof

/-! ### Placement, each side by itself (R146) -/

section Place

variable {tileL tileR : Byte} {dx dy : Int} {color : Color} {mode : MaskMode} {w h : Nat} {c0 p0 : Int} {delta : Nat}
  {p : Prim}

theorem place_tile_left_eq_some : place (.tile tileL tileR dx dy color mode) c0 p0 .left delta = some p ↔
    0 ≤ c0 + dx ∧ c0 + dx ≤ 39 ∧ 0 ≤ p0 + dy ∧ p0 + dy ≤ 192 ∧ tileL.toNat + delta ≤ 255 ∧
      p = .blit (tileL.toNat + delta) (c0 + dx).toNat (p0 + dy).toNat color mode false :=
  tileAt_eq_some

theorem place_tile_right_eq_some : place (.tile tileL tileR dx dy color mode) c0 p0 .right delta = some p ↔
    0 ≤ c0 + 9 - dx ∧ c0 + 9 - dx ≤ 39 ∧ 0 ≤ p0 + dy ∧ p0 + dy ≤ 192 ∧ tileR.toNat + delta ≤ 255 ∧
      p = .blit (tileR.toNat + delta) (c0 + 9 - dx).toNat (p0 + dy).toNat color mode false :=
  tileAt_eq_some

/-- A rectangle at a computed place, or INVALID: the part of `place` that is the same on both sides
(`place_rect_left_eq_some`, `place_rect_right_eq_some`). -/
def rectAt (x y : Int) (w h : Nat) (color : Color) : Option Prim :=
  if x < 0 ∨ y < 0 ∨ 320 < x + w ∨ 200 < y + h then none else some (.fill x.toNat y.toNat w h color)

theorem rectAt_eq_some {x y : Int} : rectAt x y w h color = some p ↔
    0 ≤ x ∧ x + w ≤ 320 ∧ 0 ≤ y ∧ y + h ≤ 200 ∧ p = .fill x.toNat y.toNat w h color := by
  unfold rectAt
  split_ifs with hout
  · simp only [false_iff]
    omega
  · simp only [Option.some.injEq]
    constructor
    · rintro rfl
      exact ⟨by omega, by omega, by omega, by omega, rfl⟩
    · rintro ⟨-, -, -, -, rfl⟩
      rfl

theorem place_rect_left_eq_some : place (.rect dx dy w h color) c0 p0 .left delta = some p ↔
    0 ≤ 8 * c0 + dx ∧ 8 * c0 + dx + w ≤ 320 ∧ 0 ≤ p0 + dy ∧ p0 + dy + h ≤ 200 ∧
      p = .fill (8 * c0 + dx).toNat (p0 + dy).toNat w h color :=
  rectAt_eq_some

theorem place_rect_right_eq_some : place (.rect dx dy w h color) c0 p0 .right delta = some p ↔
    0 ≤ 8 * c0 + 80 - dx - w ∧ 8 * c0 + 80 - dx ≤ 320 ∧ 0 ≤ p0 + dy ∧ p0 + dy + h ≤ 200 ∧
      p = .fill (8 * c0 + 80 - dx - w).toNat (p0 + dy).toNat w h color := by
  have hplace := rectAt_eq_some (x := 8 * c0 + 80 - dx - w) (y := p0 + dy) (w := w) (h := h) (color := color) (p := p)
  rwa [sub_add_cancel] at hplace

end Place

/-! ### Lists of primitives (R148) -/

theorem noneInvalid_iff {prims : List (Option Prim)} : noneInvalid prims = true ↔ none ∉ prims := by
  simp only [noneInvalid, List.all_eq_true, Option.isSome_iff_ne_none]
  exact ⟨fun h hn => h none hn rfl, fun h p hp hnone => h (hnone ▸ hp)⟩

theorem exists_composePlan_ok (atlas : Mem) {prims : List (Option Prim)} (h : none ∉ prims) :
    ∃ accs, composePlan atlas prims = .ok accs := by
  cases hplan : composePlan atlas prims with
  | error c => exact absurd (composePlan_error.1 hplan).2 h
  | ok accs => exact ⟨accs, rfl⟩

/-- Whether a tile of the atlas fits depends on its place alone, not on its index. -/
theorem tileAt_byte_eq_none_iff {tile : Byte} {col prow : Int} {color : Color} {mode : MaskMode} {inv : Bool} :
    tileAt tile.toNat col prow color mode inv = none ↔ col < 0 ∨ 39 < col ∨ prow < 0 ∨ 192 < prow := by
  have htile : tile.toNat < 256 := tile.isLt
  unfold tileAt
  split_ifs with hout
  · simp only [true_iff]
    omega
  · simp only [false_iff]
    omega

/-- Which name texts fit depends on their length alone (R147 clause 3). -/
theorem none_mem_namePrims_of_length_eq {lay : Layout} {o : Orient} {c0 p0 : Int} {text text' : List Byte}
    {active : Bool} (hlen : text.length = text'.length) (h : none ∈ namePrims lay o c0 p0 text active) :
    none ∈ namePrims lay o c0 p0 text' active := by
  simp only [namePrims, List.mem_append, List.mem_mapIdx] at h ⊢
  obtain (hborder | ⟨k, hk, htile⟩) | hmarker := h
  · exact .inl (.inl hborder)
  · exact .inl (.inr ⟨k, hlen ▸ hk, tileAt_byte_eq_none_iff.2 (tileAt_byte_eq_none_iff.1 htile)⟩)
  · exact .inr hmarker

/-! ### The well-formed layout store (R147) -/

/-- What a clause of `layoutWF` checks of each active quadrant `i` of 1 to 4 players `n`. -/
theorem forall_active_of_all {f : Nat → Nat → Bool}
    (h : ([1, 2, 3, 4].all fun n => (List.range n).all fun i => f n i) = true) {n i : Nat} (h4 : n ≤ 4) (hi : i < n) :
    f n i = true := by
  simp only [List.all_eq_true, List.mem_range] at h
  have hn : n ∈ [1, 2, 3, 4] := by
    simp only [List.mem_cons, List.not_mem_nil, or_false]
    omega
  exact h n hn i hi

/-- The clauses of `layoutWF` that the board and the name rest on: the field offsets, the boards' primitives, the
names' primitives, and the bound of NAME_MAX. -/
theorem layoutWF_clauses {lay : Layout} (hwf : layoutWF lay = true) :
    ((lay.fofsWide1 = 6 ∨ lay.fofsWide1 = 7) ∧ (lay.fofsWide2 = 6 ∨ lay.fofsWide2 = 7)) ∧
    (∀ {n i}, n ≤ 4 → i < n → none ∉ quadrantPrims lay n i) ∧
    (∀ {n i}, n ≤ 4 → i < n → nameValid lay n i = true) ∧
    lay.nameMax ≤ 16 := by
  simp only [layoutWF, Bool.and_eq_true] at hwf
  obtain ⟨⟨⟨⟨⟨hfofs, hboards⟩, hnames, -⟩, hmax, -⟩, -⟩, -⟩ := hwf
  refine ⟨by simpa using hfofs, fun h4 hi => ?_, forall_active_of_all hnames, of_decide_eq_true hmax⟩
  exact noneInvalid_iff.1 (forall_active_of_all hboards h4 hi)

theorem none_notMem_boardPrims {lay : Layout} (hwf : layoutWF lay = true) {n : Nat} (h4 : n ≤ 4) :
    none ∉ boardPrims lay n := by
  obtain ⟨-, hboards, -⟩ := layoutWF_clauses hwf
  simp only [boardPrims, List.mem_flatMap, List.mem_range, not_exists, not_and]
  exact fun i hi => hboards h4 hi

/-- What `nameValid` says, for every text of allowed length. -/
theorem none_notMem_namePrims {lay : Layout} {n i : Nat} (h : nameValid lay n i = true) :
    ∃ org, originOf lay i = some org ∧ ∀ (text : List Byte) (active : Bool), text.length ≤ lay.nameMax →
      none ∉ namePrims lay (orient i n) (org.col + (fofsOf lay n).toNat) org.prow text active := by
  unfold nameValid at h
  split at h
  · cases h
  · next org horg =>
    simp only [List.all_eq_true, List.mem_range, noneInvalid_iff] at h
    refine ⟨org, horg, fun text active hlen hnone => ?_⟩
    exact h active (by cases active <;> simp) text.length (by omega)
      (none_mem_namePrims_of_length_eq (by simp) hnone)

/-! ### The primitives of DRAWBOARD and DRAWNAME (R150, R155) -/

theorem boardEntries_of_flank {lay : Layout} {i n : Nat} {flank : List Entry}
    (h : ((cornerStyleOf lay i n).bind fun style => lay.flank[style]?) = some flank) :
    boardEntries lay i n = some (flank ++ lay.badge ++ lay.drawer ++ [Entry.rect 0 0 80 80 0] ++
      (if n = 1 then lay.edgeShort else lay.edgeFull)) := by
  simp only [boardEntries, h, Option.map_some, fieldList]

theorem quadrantPrims_of_entries {lay : Layout} {n i : Nat} {org : Origin} {entries : List Entry}
    (horg : originOf lay i = some org) (hentries : boardEntries lay i n = some entries) :
    quadrantPrims lay n i =
      entries.map fun e => place e (org.col + (fofsOf lay n).toNat) org.prow (orient i n) 0 := by
  simp only [quadrantPrims, horg, hentries]

theorem drawnamePrims_of_origin {q len : Nat} {active : Bool} {s : State} {org : Origin}
    (horg : originOf s.lrom q = some org) : drawnamePrims q len active s =
      namePrims s.lrom (orient q s.ctx.pcnt.toNat) (org.col + s.ctx.fofs.toNat) org.prow (nameText len s) active := by
  simp only [drawnamePrims, horg]

@[simp] theorem nameText_length (len : Nat) (s : State) : (nameText len s).length = len := by
  simp [nameText]

theorem mapIdx_nameText {α : Type} (f : Nat → Byte → α) (len : Nat) (s : State) :
    (nameText len s).mapIdx f = (List.range len).map fun k => f k (s.namebuf.read .namebuf k) := by
  refine List.ext_getElem (by simp) fun k hk hk' => ?_
  simp [nameText, nameChar]

/-! ### The outcomes of DRAWBOARD (R150) -/

theorem fofsOf_of_one_le (lay : Layout) {n : Nat} (h1 : 1 ≤ n) :
    fofsOf lay n = if 3 ≤ n then 0 else if n = 1 then lay.fofsWide1 else lay.fofsWide2 := by
  obtain rfl | rfl | h3 : n = 1 ∨ n = 2 ∨ 3 ≤ n := by omega
  · rfl
  · rfl
  · rw [if_pos h3, fofsOf, if_neg (by omega), if_neg (by omega)]

theorem boardPlan_of_not_inited (n : Nat) {s : State} (hi : s.status.inited = false) :
    boardPlan n s = .error .notReady := by
  simp [boardPlan, initedReady, hi]

theorem boardPlan_of_outOfBounds {n : Nat} {s : State} (hi : s.status.inited = true)
    (hout : n < 1 ∨ 4 < n ∨ none ∈ boardPrims s.lrom n) : boardPlan n s = .error .outOfBounds := by
  unfold boardPlan
  split_ifs with hready hplayers
  · simp [initedReady, hi] at hready
  · rfl
  · simp only [playersInRange, Bool.not_eq_true', Bool.not_eq_false, Bool.and_eq_true, decide_eq_true_eq] at hplayers
    exact composePlan_error.2 ⟨rfl, (hout.resolve_left (by omega)).resolve_left (by omega)⟩

theorem execDrawboard_of_error {n : Nat} {s : State} {c : ResultCode} (hplan : boardPlan n s = .error c) :
    execDrawboard n s = .next (raise c (encode (.drawboard n)) s) := by
  simp only [execDrawboard, hplan, endWithFault]

theorem execDrawboard_of_applyAccesses {n : Nat} {s : State} {accs : List Access} {m : Mem}
    (hplan : boardPlan n s = .ok accs) (hm : applyAccesses accs s.surf = some m) :
    execDrawboard n s = .next { setContext (fofsOf s.lrom n) n s with surf := m, result := .ok } := by
  simp [execDrawboard, hplan, performAndFinish, hm, finishOk]

theorem execDrawboard_of_ok {n : Nat} {s : State} {accs : List Access} (hplan : boardPlan n s = .ok accs) :
    ∃ m, applyAccesses accs s.surf = some m ∧
      execDrawboard n s = .next { setContext (fofsOf s.lrom n) n s with surf := m, result := .ok } := by
  obtain ⟨m, hm⟩ := applyAccesses_of_inRange (boardPlan_inRange hplan) s.surf
  exact ⟨m, hm, execDrawboard_of_applyAccesses hplan hm⟩

/-! ### The outcomes of DRAWNAME (R155) -/

theorem namePlan_of_notReady (q len : Nat) (active : Bool) {s : State}
    (h : s.status.inited = false ∨ s.status.ctxValid = false) : namePlan q len active s = .error .notReady := by
  have hready : contextReady s = false := Bool.and_eq_false_iff.2 h
  simp [namePlan, hready]

theorem namePlan_of_outOfBounds {q len : Nat} {active : Bool} {s : State} (hi : s.status.inited = true)
    (hc : s.status.ctxValid = true) (hout : s.ctx.pcnt.toNat ≤ q ∨ s.lrom.nameMax < len ∨
      (∃ k, k < len ∧ 0x80 ≤ (s.namebuf.read .namebuf k).toNat) ∨ none ∈ drawnamePrims q len active s) :
    namePlan q len active s = .error .outOfBounds := by
  unfold namePlan
  split_ifs with hready hrange hascii
  · simp [contextReady, hi, hc] at hready
  · rfl
  · rfl
  · simp only [quadrantActive, lengthInRange, nameIsAscii, Bool.not_eq_true', Bool.not_eq_false, Bool.and_eq_true,
      decide_eq_true_eq, List.all_eq_true, List.mem_range] at hrange hascii
    obtain ⟨hq, hlen, -⟩ := hrange
    have hname : ¬ ∃ k, k < len ∧ 0x80 ≤ (s.namebuf.read .namebuf k).toNat :=
      fun ⟨k, hk, hbyte⟩ => Nat.not_lt.2 hbyte (hascii k hk)
    exact composePlan_error.2
      ⟨rfl, ((hout.resolve_left (by omega)).resolve_left (by omega)).resolve_left hname⟩

theorem exec_drawname_of_ok {q len : Nat} {active : Bool} {s : State} {accs : List Access}
    (hplan : namePlan q len active s = .ok accs) :
    ∃ m, applyAccesses accs s.surf = some m ∧
      exec (.drawname q len active) s = .next { s with surf := m, result := .ok } := by
  have hexec : exec (.drawname q len active) s = performAndFinish accs s := congrArg (runPlan _ · s) hplan
  rw [hexec]
  exact performAndFinish_of_inRange (namePlan_inRange hplan) s

/-! ### Glyphs (R156) -/

theorem foldCase_toNat (ch : Byte) :
    (foldCase ch).toNat = if 0x61 ≤ ch.toNat ∧ ch.toNat ≤ 0x7A then ch.toNat - 0x20 else ch.toNat := by
  unfold foldCase
  split_ifs with hlower
  · exact BitVec.toNat_sub_of_le (BitVec.le_def.2 (by simp; omega))
  · rfl

/-! ### The statements about the board composer -/

/-- Settles O27: each side's place is an equivalence, and the mirror follows from the two places. -/
theorem placementMirrorsAboutThePlayfield : Obligations.PlacementMirrorsAboutThePlayfield := by
  refine ⟨fun tileL tileR dx dy color mode c0 p0 delta p => ⟨place_tile_left_eq_some, place_tile_right_eq_some⟩,
    fun dx dy w h color c0 p0 delta p => ⟨place_rect_left_eq_some, place_rect_right_eq_some⟩, ?_, ?_⟩
  · intro tileL tileR dx dy color mode c0 p0 delta tl cl rl tr cr rr col col' m m' i i' hl hr
    obtain ⟨hcolL, -, hrow, -, -, hblitL⟩ := place_tile_left_eq_some.1 hl
    obtain ⟨hcolR, -, -, -, -, hblitR⟩ := place_tile_right_eq_some.1 hr
    cases hblitL
    cases hblitR
    exact ⟨by omega, rfl, by omega, rfl, rfl, rfl, rfl, rfl, rfl, rfl, rfl⟩
  · intro dx dy w h color c0 p0 delta delta' xl yl wl hl xr yr wr hr col col' hleft hright
    obtain ⟨hxL, -, hrow, -, hfillL⟩ := place_rect_left_eq_some.1 hleft
    obtain ⟨hxR, -, -, -, hfillR⟩ := place_rect_right_eq_some.1 hright
    cases hfillL
    cases hfillR
    exact ⟨by omega, rfl, by omega, rfl, rfl, rfl, rfl, rfl, rfl⟩

/-- Settles O28: a placed entry's operands are in range, and such a primitive stays on the Surface. -/
theorem placedEntriesStayOnTheSurface : Obligations.PlacedEntriesStayOnTheSurface := by
  intro e c0 p0 o delta p hplace
  have hp := place_inRange hplace
  constructor
  · intro atlas acc hacc
    obtain ⟨hr, hb⟩ := Prim.accesses_inRange hp atlas acc hacc
    have ha := surfAddr_of_inRange hr hb
    exact ⟨_, surfAddr_lt ha, ha⟩
  · rintro tile col prow color mode inv rfl
    exact hp.1

/-- Settles O30: the plan is a fault in the first two cases, and the accesses of `ps` in the third. -/
theorem drawboardFollowsItsRule : Obligations.DrawboardFollowsItsRule := by
  intro n s
  refine ⟨fun hi => execDrawboard_of_error (boardPlan_of_not_inited n hi),
    fun hi hout => execDrawboard_of_error (boardPlan_of_outOfBounds hi hout), fun ps hi h1 h4 hps => ?_⟩
  have hplan : boardPlan n s = .ok (primAccesses s.atlas ps) :=
    (boardPlan_of_inRange hi h1 h4).trans (composePlan_ok.2 ⟨ps, hps, rfl⟩)
  obtain ⟨m, hm, hexec⟩ := execDrawboard_of_ok hplan
  rw [fofsOf_of_one_le s.lrom h1] at hexec
  exact ⟨m, hm, hexec, fun a => applyAccesses_read_untouched hm⟩

/-- Settles O31: no primitive of a well-formed store's board is INVALID, so the plan is not a fault. -/
theorem wellFormedStoreDrawsEveryBoard : Obligations.WellFormedStoreDrawsEveryBoard := by
  intro n s hwf hi h1 h4
  obtain ⟨accs, haccs⟩ := exists_composePlan_ok s.atlas (none_notMem_boardPrims hwf h4)
  obtain ⟨m, -, hexec⟩ := execDrawboard_of_ok ((boardPlan_of_inRange hi h1 h4).trans haccs)
  obtain ⟨⟨hwide1, hwide2⟩, -⟩ := layoutWF_clauses hwf
  rw [fofsOf_of_one_le s.lrom h1] at hexec
  refine ⟨_, hexec, rfl, rfl, Nat.mod_eq_of_lt (by omega), fun h2 => if_pos h2, fun h2 => ?_⟩
  obtain rfl | rfl : n = 1 ∨ n = 2 := by omega
  · exact hwide1
  · exact hwide2

/-- Settles O32: the plan looks neither at SURF, RESULT nor CTX, and its accesses set fixed bits. -/
theorem drawboardIsIdempotent : Obligations.DrawboardIsIdempotent := by
  intro n s t hwf hexec hok
  cases hplan : boardPlan n s with
  | error c =>
    obtain rfl : raise c _ s = t := Host.Outcome.next.inj ((execDrawboard_of_error hplan).symm.trans hexec)
    rw [raise_result] at hok
    exact absurd (hok ▸ hplan) boardPlan_ne_errorOk
  | ok accs =>
    obtain ⟨m, hm, hexec'⟩ := execDrawboard_of_ok hplan
    obtain rfl : _ = t := Host.Outcome.next.inj (hexec'.symm.trans hexec)
    exact execDrawboard_of_applyAccesses hplan (applyAccesses_repeat hwf hm)

/-- Settles O33: the text is the first `len` bytes of NAMEBUF, character by character. -/
theorem drawnamePrimitivesAreBorderTextMarker : Obligations.DrawnamePrimitivesAreBorderTextMarker := by
  intro q len active s org horg
  rw [drawnamePrims_of_origin horg, namePrims, mapIdx_nameText]

/-- Settles O34: the plan is a fault in the first two cases, and the accesses of `ps` in the third. -/
theorem drawnameFollowsItsRule : Obligations.DrawnameFollowsItsRule := by
  intro q len active s h16
  refine ⟨fun hready => congrArg (runPlan _ · s) (namePlan_of_notReady q len active hready),
    fun hi hc hout => congrArg (runPlan _ · s) (namePlan_of_outOfBounds hi hc hout),
    fun ps hi hc hq hlen hascii hps => ?_⟩
  have hplan : namePlan q len active s = .ok (primAccesses s.atlas ps) :=
    (namePlan_of_inRange active hi hc hq hlen (hlen.trans h16) hascii).trans (composePlan_ok.2 ⟨ps, hps, rfl⟩)
  obtain ⟨m, hm, hexec⟩ := exec_drawname_of_ok hplan
  exact ⟨m, hm, hexec, fun a => applyAccesses_read_untouched hm⟩

/-- Settles O35: CTX holds the players and the field offset `nameValid` speaks of, so no primitive is INVALID. -/
theorem wellFormedStoreDrawsEveryName : Obligations.WellFormedStoreDrawsEveryName := by
  intro q len active s hinv hwf hc hq hlen hascii
  obtain ⟨-, -, hnames, h16⟩ := layoutWF_clauses hwf
  obtain ⟨org, horg, hvalid⟩ := none_notMem_namePrims (hnames (hinv.ctxPlayers hc).2 hq)
  have hprims : none ∉ drawnamePrims q len active s := by
    rw [drawnamePrims_of_origin horg, hinv.ctxOffset hc]
    exact hvalid _ active (by simpa using hlen)
  obtain ⟨accs, haccs⟩ := exists_composePlan_ok s.atlas hprims
  have hplan := namePlan_of_inRange active (hinv.ctxAfterInit hc) hc hq hlen (hlen.trans h16) hascii
  obtain ⟨m, -, hexec⟩ := exec_drawname_of_ok (hplan.trans haccs)
  exact ⟨m, hexec⟩

/-- Settles O26, by evaluating the sixteen values. -/
theorem orientationTable : Obligations.OrientationTable := ⟨rfl, rfl⟩

/-- Settles O29, quadrant by quadrant. -/
theorem boardPrimitivesAreTheFiveLists : Obligations.BoardPrimitivesAreTheFiveLists := by
  intro lay n org flankOf horg hflank
  refine List.flatMap_congr fun i hi => ?_
  have hi : i < n := List.mem_range.1 hi
  exact quadrantPrims_of_entries (horg i hi) (boardEntries_of_flank (hflank i hi))

/-- Settles O36: the folded code of an ASCII character is an index of the glyph table. -/
theorem glyphLookupFoldsCase : Obligations.GlyphLookupFoldsCase := by
  intro lay ch hascii
  have hlt : (foldCase ch).toNat < 128 := by
    rw [foldCase_toNat]
    split_ifs <;> omega
  rw [← foldCase_toNat]
  simp [glyphOf, Vector.getD, hlt]

end Sys2Proof.Machine

/-! The marks of the cells on the playfield, and the outcomes of RENDERFIELD and UPDATECELL (44_game_field.md). -/

namespace Sys2Proof.Machine

open Sys2Proof

/-! ### The playfield lies on the Surface (43_board_composer.md R147, R152) -/

/-- The quadrant at `org` has its 80 by 80 pixel playfield on the Surface, in the frame of CTX (R143, R172).
`playfieldFits_of_layoutWF` gives it for every drawn quadrant. -/
def PlayfieldFits (s : State) (org : Origin) : Prop := org.col + s.ctx.fofs.toNat ≤ 30 ∧ org.prow ≤ 120

/-- The playfield is one of the rectangles of a valid board, on either side. -/
theorem playfield_bounds_of_quadrantPrims {lay : Layout} {n i : Nat} {org : Origin} (horg : originOf lay i = some org)
    (h : none ∉ quadrantPrims lay n i) : org.col + (fofsOf lay n).toNat ≤ 30 ∧ org.prow ≤ 120 := by
  cases hentries : boardEntries lay i n with
  | none => simp [quadrantPrims, horg, hentries] at h
  | some entries =>
    have hmem : Entry.rect 0 0 80 80 0 ∈ entries := by
      obtain ⟨flank, -, rfl⟩ := Option.map_eq_some_iff.1 hentries
      simp [fieldList]
    rw [quadrantPrims_of_entries horg hentries, List.mem_map] at h
    obtain ⟨p, hp⟩ := Option.ne_none_iff_exists'.1 fun hnone => h ⟨_, hmem, hnone⟩
    cases ho : orient i n with
    | left =>
      obtain ⟨-, hx, -, hy, -⟩ := place_rect_left_eq_some.1 (ho ▸ hp)
      omega
    | right =>
      obtain ⟨-, hx, -, hy, -⟩ := place_rect_right_eq_some.1 (ho ▸ hp)
      omega

/-- CTX holds the players and the field offset of a board that a well-formed store draws. -/
theorem playfieldFits_of_layoutWF {q : Nat} {s : State} {org : Origin} (hinv : s.Inv) (hwf : layoutWF s.lrom = true)
    (hc : s.status.ctxValid = true) (hq : q < s.ctx.pcnt.toNat) (horg : originOf s.lrom q = some org) :
    PlayfieldFits s org := by
  obtain ⟨-, hboards, -⟩ := layoutWF_clauses hwf
  unfold PlayfieldFits
  rw [hinv.ctxOffset hc]
  exact playfield_bounds_of_quadrantPrims horg (hboards (hinv.ctxPlayers hc).2 hq)

/-! ### The bytes of a cell (R172, R173) -/

/-- The SURF offset of byte `b` of row `r` of the tile at position `p`. -/
def cellAddr (s : State) (org : Origin) (p r b : Nat) : Option Nat :=
  surfAddr (org.prow + 8 * (p / 10) + r) (2 * (org.col + s.ctx.fofs.toNat + p % 10) + b)

section Marks

variable {s : State} {org : Origin}

/-- Different cells of a playfield have no byte in common. -/
theorem cellAddr_injective {p r b p' r' b' a : Nat} (hr : r < 8) (hb : b < 2) (hr' : r' < 8) (hb' : b' < 2)
    (h : cellAddr s org p r b = some a) (h' : cellAddr s org p' r' b' = some a) : p = p' ∧ r = r' ∧ b = b' := by
  obtain ⟨hrow, hbcol⟩ := surfAddr_injective h h'
  omega

theorem exists_cellAddr (hfit : PlayfieldFits s org) {p r b : Nat} (hp : p < 100) (hr : r < 8) (hb : b < 2) :
    ∃ a, cellAddr s org p r b = some a := by
  obtain ⟨hcol, hrow⟩ := hfit
  exact ⟨_, surfAddr_of_inRange (by omega) (by omega)⟩

theorem markAt_of_fits (hfit : PlayfieldFits s org) {p : Nat} (hp : p < 100) (tile : Byte) (color : Color) :
    markAt s.lrom (org.col + s.ctx.fofs.toNat) org.prow p tile color =
      some (.blit tile.toNat (org.col + s.ctx.fofs.toNat + p % 10) (org.prow + 8 * (p / 10)) color
        s.lrom.markMode false) := by
  obtain ⟨hcol, hrow⟩ := hfit
  have htile : tile.toNat < 256 := tile.isLt
  simp only [markAt, Config.fieldN]
  exact tileAt_eq_some.2 ⟨by omega, by omega, by omega, by omega, by omega, rfl⟩

/-! ### The accesses of the marks of some cells (R174, R176) -/

theorem markGlyph_of_empty {p : Nat} (h : s.cellbuf.read .cellbuf p = 0) (lay : Layout) (blink : Bool) :
    markGlyph lay blink (cellCode s p) = none := by
  rw [cellCode, h]
  rfl

/-- The mark of position `p` in the quadrant at `org`, none for an Empty cell: what `cellPrims` gives on a playfield
that fits (`cellPrims_of_fits`). -/
def markPrims (blink : Bool) (s : State) (org : Origin) (p : Nat) : List Prim :=
  (markGlyph s.lrom blink (cellCode s p)).toList.map fun glyph =>
    .blit glyph.1.toNat (org.col + s.ctx.fofs.toNat + p % 10) (org.prow + 8 * (p / 10)) glyph.2 s.lrom.markMode false

theorem cellPrims_of_fits {q : Nat} (horg : originOf s.lrom q = some org) (hfit : PlayfieldFits s org) (blink : Bool)
    {p : Nat} (hp : p < 100) : cellPrims q blink s p = (markPrims blink s org p).map some := by
  unfold cellPrims markPrims
  cases markGlyph s.lrom blink (cellCode s p) with
  | none => rfl
  | some glyph => simp [horg, markAt_of_fits hfit hp]

/-- The accesses of the marks of `cells`, cell after cell. -/
def markAccesses (blink : Bool) (s : State) (org : Origin) (cells : List Nat) : List Access :=
  primAccesses s.atlas (cells.flatMap (markPrims blink s org))

theorem composePlan_cellPrims {q : Nat} (horg : originOf s.lrom q = some org) (hfit : PlayfieldFits s org)
    (blink : Bool) {cells : List Nat} (hcells : ∀ p ∈ cells, p < 100) :
    composePlan s.atlas (cells.flatMap (cellPrims q blink s)) = .ok (markAccesses blink s org cells) := by
  refine composePlan_ok.2 ⟨_, ?_, rfl⟩
  rw [List.map_flatMap]
  exact List.flatMap_congr fun p hp => cellPrims_of_fits horg hfit blink (hcells p hp)

theorem mem_markAccesses {blink : Bool} {cells : List Nat} {acc : Access} :
    acc ∈ markAccesses blink s org cells ↔
      ∃ p ∈ cells, ∃ tile color, markGlyph s.lrom blink (cellCode s p) = some (tile, color) ∧
        ∃ r b, r < 8 ∧ b < 2 ∧ acc = ⟨org.prow + 8 * (p / 10) + r, 2 * (org.col + s.ctx.fofs.toNat + p % 10) + b,
          .put (outByte (tileByte s.atlas tile.toNat r b) color s.lrom.markMode false)⟩ := by
  simp [markAccesses, primAccesses, markPrims, Prim.accesses, mem_blitAccesses, and_assoc]

theorem markAccesses_inRange (hfit : PlayfieldFits s org) (blink : Bool) {cells : List Nat}
    (hcells : ∀ p ∈ cells, p < 100) : ∀ acc ∈ markAccesses blink s org cells, acc.InRange := by
  intro acc hacc
  obtain ⟨p, hp, -, -, -, r, b, hr, hb, rfl⟩ := mem_markAccesses.1 hacc
  obtain ⟨a, ha⟩ := exists_cellAddr hfit (hcells p hp) hr hb
  exact inRange_of_surfAddr ha

/-- A byte outside the marked cells is not touched. -/
theorem untouched_markAccesses {blink : Bool} {cells : List Nat} {a : Nat}
    (h : ∀ p ∈ cells, ∀ r b, r < 8 → b < 2 → markGlyph s.lrom blink (cellCode s p) ≠ none →
      cellAddr s org p r b ≠ some a) : Untouched (markAccesses blink s org cells) a := by
  intro acc hacc
  obtain ⟨p, hp, tile, color, hglyph, r, b, hr, hb, rfl⟩ := mem_markAccesses.1 hacc
  exact h p hp r b hr hb (by simp [hglyph])

/-- What the mark of position `p` makes of byte `b` of its row `r` (R173, R174, R176). -/
def markByte (blink : Bool) (s : State) (p r b : Nat) (old : Byte) : Byte :=
  match markGlyph s.lrom blink (cellCode s p) with
  | none => old
  | some (tile, color) => outByte (tileByte s.atlas tile.toNat r b) color s.lrom.markMode false

theorem markByte_eq (blink : Bool) (s : State) (p r b : Nat) (old : Byte) : markByte blink s p r b old =
    if s.cellbuf.read .cellbuf p = 1 then
      outByte (tileByte s.atlas (if blink then s.lrom.hitAltTile else s.lrom.hitTile).toNat r b)
        s.lrom.hitColor s.lrom.markMode false
    else if s.cellbuf.read .cellbuf p = 2 then
      outByte (tileByte s.atlas s.lrom.missTile.toNat r b) s.lrom.missColor s.lrom.markMode false
    else old := by
  unfold markByte markGlyph cellCode
  split_ifs <;> rfl

theorem read_markAccesses {blink : Bool} {cells : List Nat} {m m' : Mem}
    (h : applyAccesses (markAccesses blink s org cells) m = some m') {p r b a : Nat} (hp : p ∈ cells) (hr : r < 8)
    (hb : b < 2) (ha : cellAddr s org p r b = some a) :
    m'.read .surf a = markByte blink s p r b (m.read .surf a) := by
  unfold markByte
  cases hglyph : markGlyph s.lrom blink (cellCode s p) with
  | none =>
    refine applyAccesses_read_untouched h (untouched_markAccesses fun p' _ r' b' hr' hb' hmark ha' => hmark ?_)
    obtain ⟨rfl, -, -⟩ := cellAddr_injective hr hb hr' hb' ha ha'
    exact hglyph
  | some glyph =>
    have htouched : ¬ Untouched (markAccesses blink s org cells) a := fun hun =>
      hun _ (mem_markAccesses.2 ⟨p, hp, glyph.1, glyph.2, hglyph, r, b, hr, hb, rfl⟩) ha
    obtain ⟨acc, hacc, ha', old, hold⟩ := applyAccesses_lookup_touched h htouched
    obtain ⟨p', -, tile, color, hglyph', r', b', hr', hb', rfl⟩ := mem_markAccesses.1 hacc
    obtain ⟨rfl, rfl, rfl⟩ := cellAddr_injective hr hb hr' hb' ha ha'
    obtain rfl : glyph = (tile, color) := Option.some.inj (hglyph.symm.trans hglyph')
    simp [Mem.read, hold, AccessKind.result]

/-- A command whose plan is the marks of `cells` draws them and changes nothing but their bytes and RESULT. -/
theorem runPlan_cellPrims_draws (w : CmdWord) {q : Nat} (horg : originOf s.lrom q = some org)
    (hfit : PlayfieldFits s org) (blink : Bool) {cells : List Nat} (hcells : ∀ p ∈ cells, p < 100) :
    ∃ m, applyAccesses (markAccesses blink s org cells) s.surf = some m ∧
      runPlan w (composePlan s.atlas (cells.flatMap (cellPrims q blink s))) s =
        .next { s with surf := m, result := .ok } ∧
      (∀ p ∈ cells, ∀ r b, r < 8 → b < 2 → ∃ a, cellAddr s org p r b = some a ∧
        m.read .surf a = markByte blink s p r b (s.surf.read .surf a)) ∧
      ∀ a, (∀ p ∈ cells, ∀ r b, r < 8 → b < 2 → s.cellbuf.read .cellbuf p ≠ 0 → cellAddr s org p r b ≠ some a) →
        m.read .surf a = s.surf.read .surf a := by
  rw [composePlan_cellPrims horg hfit blink hcells]
  obtain ⟨m, hm, hrun⟩ := performAndFinish_of_inRange (markAccesses_inRange hfit blink hcells) s
  refine ⟨m, hm, hrun, fun p hp r b hr hb => ?_, fun a hout => ?_⟩
  · obtain ⟨a, ha⟩ := exists_cellAddr hfit (hcells p hp) hr hb
    exact ⟨a, ha, read_markAccesses hm hp hr hb ha⟩
  · refine applyAccesses_read_untouched hm (untouched_markAccesses fun p hp r b hr hb hmark => ?_)
    exact hout p hp r b hr hb fun hempty => hmark (markGlyph_of_empty hempty _ blink)

/-- The mark of an Empty cell has no accesses. -/
theorem markAccesses_of_empty {p : Nat} (blink : Bool) (h : s.cellbuf.read .cellbuf p = 0) :
    markAccesses blink s org [p] = [] := by
  simp [markAccesses, primAccesses, markPrims, markGlyph_of_empty h]

end Marks

/-! ### The faults of RENDERFIELD and UPDATECELL (R174, R176) -/

theorem fieldPlan_of_notReady (q : Nat) {s : State} (h : s.status.inited = false ∨ s.status.ctxValid = false) :
    fieldPlan q s = .error .notReady := by
  have hready : contextReady s = false := Bool.and_eq_false_iff.2 h
  simp [fieldPlan, hready]

theorem fieldPlan_of_outOfBounds {q : Nat} {s : State} (hi : s.status.inited = true) (hc : s.status.ctxValid = true)
    (hout : s.ctx.pcnt.toNat ≤ q ∨ (∃ p, p < 100 ∧ 2 < (s.cellbuf.read .cellbuf p).toNat) ∨
      none ∈ (List.range 100).flatMap (cellPrims q false s)) : fieldPlan q s = .error .outOfBounds := by
  unfold fieldPlan
  split_ifs with hready hquadrant hvalid
  · simp [contextReady, hi, hc] at hready
  · rfl
  · rfl
  · simp only [quadrantActive, cellValid, Bool.not_eq_true', Bool.not_eq_false, decide_eq_true_eq, List.all_eq_true,
      List.mem_range] at hquadrant hvalid
    have hcells : ¬ ∃ p, p < 100 ∧ 2 < (s.cellbuf.read .cellbuf p).toNat :=
      fun ⟨p, hp, hcode⟩ => Nat.not_lt.2 (hvalid p hp) hcode
    exact composePlan_error.2 ⟨rfl, (hout.resolve_left (by omega)).resolve_left hcells⟩

theorem cellPlan_of_notReady (q pos : Nat) (blink : Bool) {s : State}
    (h : s.status.inited = false ∨ s.status.ctxValid = false) : cellPlan q pos blink s = .error .notReady := by
  have hready : contextReady s = false := Bool.and_eq_false_iff.2 h
  simp [cellPlan, hready]

theorem cellPlan_of_outOfBounds {q pos : Nat} {blink : Bool} {s : State} (hi : s.status.inited = true)
    (hc : s.status.ctxValid = true) (hout : s.ctx.pcnt.toNat ≤ q ∨ 99 < pos ∨
      2 < (s.cellbuf.read .cellbuf pos).toNat ∨ none ∈ cellPrims q blink s pos) :
    cellPlan q pos blink s = .error .outOfBounds := by
  unfold cellPlan
  split_ifs with hready hrange hvalid
  · simp [contextReady, hi, hc] at hready
  · rfl
  · rfl
  · simp only [quadrantActive, cellValid, Bool.not_eq_true', Bool.not_eq_false, Bool.and_eq_true,
      decide_eq_true_eq] at hrange hvalid
    obtain ⟨hq, hpos⟩ := hrange
    exact composePlan_error.2
      ⟨rfl, ((hout.resolve_left (by omega)).resolve_left (by omega)).resolve_left (Nat.not_lt.2 hvalid)⟩

/-! ### The statements about the game field -/

/-- Settles O37: the plan is a fault in the first two cases, and the marks of all 100 cells in the third. -/
theorem renderfieldPaintsEveryMarkedCell : Obligations.RenderfieldPaintsEveryMarkedCell := by
  intro q s
  refine ⟨fun hready => congrArg (runPlan _ · s) (fieldPlan_of_notReady q hready),
    fun hi hc hout => congrArg (runPlan _ · s) (fieldPlan_of_outOfBounds hi hc hout),
    fun org hinv hwf hc hq horg hcells => ?_⟩
  have hfit : PlayfieldFits s org := playfieldFits_of_layoutWF hinv hwf hc hq horg
  have hplan := fieldPlan_of_inRange (hinv.ctxAfterInit hc) hc hq hcells
  obtain ⟨m, -, hrun, hbytes, hframe⟩ := runPlan_cellPrims_draws (encode (.renderfield q)) horg hfit false
    (cells := List.range 100) fun p => List.mem_range.1
  refine ⟨m, (congrArg (runPlan _ · s) hplan).trans hrun, fun p r b hp hr hb => ?_, fun a hout => ?_⟩
  · obtain ⟨a, ha, hread⟩ := hbytes p (List.mem_range.2 hp) r b hr hb
    exact ⟨a, ha, hread.trans (markByte_eq false s p r b _)⟩
  · exact hframe a fun p hp r b => hout p r b (List.mem_range.1 hp)

/-- Settles O38: the plan is a fault in the first two cases, and the mark of the one cell in the third. -/
theorem updatecellPaintsOneCell : Obligations.UpdatecellPaintsOneCell := by
  intro q pos blink s
  refine ⟨fun hready => congrArg (runPlan _ · s) (cellPlan_of_notReady q pos blink hready),
    fun hi hc hout => congrArg (runPlan _ · s) (cellPlan_of_outOfBounds hi hc hout),
    fun org hinv hwf hc hq hpos horg hcell => ?_⟩
  have hfit : PlayfieldFits s org := playfieldFits_of_layoutWF hinv hwf hc hq horg
  have hplan := cellPlan_of_inRange blink (hinv.ctxAfterInit hc) hc hq hpos hcell
  obtain ⟨m, hm, hrun, hbytes, hframe⟩ := runPlan_cellPrims_draws (encode (.updatecell q pos blink)) horg hfit blink
    (cells := [pos]) fun p hp => by
      obtain rfl := List.mem_singleton.1 hp
      omega
  rw [List.flatMap_singleton] at hrun
  refine ⟨m, (congrArg (runPlan _ · s) hplan).trans hrun, fun hempty => ?_, fun r b hr hb => ?_, fun a hout => ?_⟩
  · rw [markAccesses_of_empty blink hempty] at hm
    exact (Option.some.inj hm).symm
  · obtain ⟨a, ha, hread⟩ := hbytes pos (List.mem_singleton_self pos) r b hr hb
    exact ⟨a, ha, hread.trans (markByte_eq blink s pos r b _)⟩
  · refine hframe a fun p hp r b hr hb _ => ?_
    rw [List.mem_singleton.1 hp]
    exact hout r b hr hb

end Sys2Proof.Machine

/-! Surface control: INIT, RSTSURF, and the samples of a WAITVSYNC counted from its start (45_surface_control.md). -/

namespace Sys2Proof.Machine

open Sys2Proof

/-! ### Runs, extended by one step -/

theorem run_succ_of_run {M : Host.Core} {k : Nat} {s u : M.State} (h : M.run k s = .next u) :
    M.run (k + 1) s = M.step u := by
  induction k generalizing s with
  | zero =>
    obtain rfl : s = u := by simpa [Host.Core.run] using h
    cases hs : M.step s <;> simp [Host.Core.run, hs]
  | succ k ih =>
    rw [Host.Core.run] at h ⊢
    cases hs : M.step s with
    | next s' => rw [hs] at h; exact ih h
    | fault r => rw [hs] at h; cases h
    | refused r => rw [hs] at h; cases h

/-! ### The samples ahead, one by one (R191) -/

@[simp] theorem afterSamples_zero (s : State) : afterSamples 0 s = s := by
  simp [afterSamples]

/-- The sample taken after `k` others is the `k`-th one ahead. -/
theorem sampleVsync_afterSamples (k : Nat) (s : State) :
    sampleVsync (afterSamples k s) = (vsyncAhead s k, afterSamples (k + 1) s) := by
  rcases Nat.lt_or_ge k s.vsyncIn.length with hk | hk
  · have hdrop : (afterSamples k s).vsyncIn = s.vsyncIn[k] :: s.vsyncIn.drop (k + 1) :=
      List.drop_eq_getElem_cons hk
    have hfresh : k - s.vsyncIn.length = k + 1 - s.vsyncIn.length := by omega
    rw [sampleVsync_cons hdrop]
    simp [vsyncAhead, afterSamples, hk, hfresh]
  · have hdrop : (afterSamples k s).vsyncIn = [] := List.drop_eq_nil_of_le hk
    have hdrop' : s.vsyncIn.drop (k + 1) = [] := List.drop_eq_nil_of_le (by omega)
    have hfresh : k + 1 - s.vsyncIn.length = k - s.vsyncIn.length + 1 := by omega
    rw [sampleVsync_nil hdrop]
    simp [vsyncAhead, afterSamples, hk, hdrop', hfresh, Nat.add_assoc]

/-! ### One turn of a wait, by whether it times out (R191, R192) -/

theorem waitStep_of_timeout {wt : Wait} {s : State} (h : s.vsto ≠ 0) (hcount : wt.count = s.vsto) :
    waitStep wt s = raise .syncTimeout (encode .waitvsync) { s with wait := none } := by
  rw [waitStep, if_pos ⟨h, hcount⟩]

/-- A turn that does not time out takes a sample; a 0 in phase 2 ends the wait and a 1 leads to phase 2. -/
theorem waitStep_of_sample {wt : Wait} {s s' : State} {v : Bool} (h : s.vsto = 0 ∨ wt.count ≠ s.vsto)
    (hv : sampleVsync s = (v, s')) :
    waitStep wt s =
      if wt.phase = .deassertion ∧ v = false then finishOk { s' with wait := none }
      else { s' with wait := some ⟨if v then .deassertion else wt.phase, wt.count + 1⟩ } := by
  obtain ⟨phase, count⟩ := wt
  rw [waitStep, if_neg (by tauto), hv]
  cases phase <;> cases v <;> rfl

/-! ### The wait after `k` samples -/

/-- The phase of a WAITVSYNC issued in `s` after `k` samples: phase 2 as soon as a 1 has come (R191). -/
def phaseAfter (s : State) : Nat → WaitPhase
  | 0 => .assertion
  | k + 1 => if vsyncAhead s k then .deassertion else phaseAfter s k

theorem phaseAfter_eq_deassertion_iff {s : State} {k : Nat} :
    phaseAfter s k = .deassertion ↔ ∃ a, a < k ∧ vsyncAhead s a = true := by
  induction k with
  | zero => simp [phaseAfter]
  | succ k ih =>
    rw [phaseAfter, Nat.exists_lt_succ_right, ← ih]
    cases vsyncAhead s k <;> simp

/-- A WAITVSYNC issued in `s` that still waits after `k` samples (R40, log entry 5). -/
def waitingAfter (s : State) (k : Nat) : State :=
  { afterSamples k s with wait := some ⟨phaseAfter s k, BitVec.ofNat 32 k⟩ }

theorem waitingAfter_succ (s : State) (k : Nat) :
    waitingAfter s (k + 1) = { afterSamples (k + 1) s with
      wait := some ⟨if vsyncAhead s k then .deassertion else phaseAfter s k, BitVec.ofNat 32 k + 1⟩ } := by
  rw [waitingAfter, phaseAfter, BitVec.ofNat_add]
  rfl

theorem exec_waitvsync (s : State) : exec .waitvsync s = .next (waitingAfter s 0) := by
  rw [waitingAfter, afterSamples_zero]
  rfl

section Wait

variable {s : State} {k : Nat}

theorem step_waitingAfter_eq_waitStep (hr : s.resetIn = []) :
    step (waitingAfter s k) = .next (waitStep ⟨phaseAfter s k, BitVec.ofNat 32 k⟩ (waitingAfter s k)) := by
  have hr' : (waitingAfter s k).resetIn = [] := hr
  rw [step_waiting (s := waitingAfter s k) (by simp [hr']) rfl, hr', List.tail_nil, ← hr']

/-- The sample count has not reached a VSTO above `k`: it has not wrapped there (log entry 19). -/
theorem ofNat_ne_vsto (h : s.vsto = 0 ∨ k < s.vsto.toNat) : s.vsto = 0 ∨ BitVec.ofNat 32 k ≠ s.vsto := by
  refine h.imp_right fun hk heq => ?_
  have hlt := s.vsto.isLt
  have hnat : k % 2 ^ 32 = s.vsto.toNat := by rw [← heq, BitVec.toNat_ofNat]
  omega

/-- Before the timeout a waiting engine takes the next sample, which ends the wait or is counted. -/
theorem step_waitingAfter_of_sample (hr : s.resetIn = []) (h : s.vsto = 0 ∨ k < s.vsto.toNat) :
    step (waitingAfter s k) = .next
      (if phaseAfter s k = .deassertion ∧ vsyncAhead s k = false then
        finishOk { afterSamples (k + 1) s with wait := none }
      else waitingAfter s (k + 1)) := by
  have hv : sampleVsync (waitingAfter s k) =
      (vsyncAhead s k, { afterSamples (k + 1) s with wait := (waitingAfter s k).wait }) :=
    sampleVsync_afterSamples k { s with wait := (waitingAfter s k).wait }
  rw [step_waitingAfter_eq_waitStep hr, waitStep_of_sample (ofNat_ne_vsto h) hv, waitingAfter_succ]

/-- A waiting engine that has taken as many samples as VSTO says raises the timeout (R192). -/
theorem step_waitingAfter_of_timeout (hr : s.resetIn = []) (h : s.vsto ≠ 0) :
    step (waitingAfter s s.vsto.toNat) =
      .next (raise .syncTimeout (encode .waitvsync) { afterSamples s.vsto.toNat s with wait := none }) := by
  have hcount : BitVec.ofNat 32 s.vsto.toNat = s.vsto := by simp
  rw [step_waitingAfter_eq_waitStep hr, waitStep_of_timeout (s := waitingAfter s s.vsto.toNat) h hcount]
  rfl

/-- No 1 followed by a 0 among the first `k` samples ahead. -/
def NoAssertionEndsWithin (s : State) (k : Nat) : Prop :=
  ∀ a b, a < b → b < k → vsyncAhead s a = true → vsyncAhead s b = true

/-- While no 1 followed by a 0 has come and the count is within VSTO, every step takes one sample and waits on. -/
theorem run_waitingAfter (hr : s.resetIn = []) (hvsto : s.vsto = 0 ∨ k ≤ s.vsto.toNat)
    (hno : NoAssertionEndsWithin s k) :
    Sys2Proof.core.run k (waitingAfter s 0) = .next (waitingAfter s k) := by
  induction k with
  | zero => rfl
  | succ k ih =>
    have hk := ih (hvsto.imp_right Nat.le_of_succ_le) fun a b hab hb => hno a b hab (Nat.lt_succ_of_lt hb)
    have hgoes : ¬ (phaseAfter s k = .deassertion ∧ vsyncAhead s k = false) := by
      rintro ⟨hphase, hv⟩
      obtain ⟨a, ha, hva⟩ := phaseAfter_eq_deassertion_iff.1 hphase
      simp [hno a k ha (Nat.lt_succ_self k) hva] at hv
    have hstep := step_waitingAfter_of_sample hr (hvsto.imp_right Nat.lt_of_succ_le)
    rw [if_neg hgoes] at hstep
    exact (run_succ_of_run hk).trans hstep

end Wait

theorem afterSamples_wait_none {s : State} (hw : s.wait = none) (k : Nat) :
    { afterSamples k s with wait := none } = afterSamples k s := by
  rw [← hw]; rfl

/-! ### The statements about surface control -/

/-- Settles O44: the wait goes on for `b` samples, is then in phase 2, and the next sample is the 0 that ends it. -/
theorem waitvsyncEndsAfterAssertionAndDeassertion : Obligations.WaitvsyncEndsAfterAssertionAndDeassertion := by
  intro s a b hr hw hlow ha hab hhigh hb hvsto
  have hno : NoAssertionEndsWithin s b := fun i j hij hj hi => by
    have hai : a ≤ i := Nat.le_of_not_lt fun hia => by simp [hlow i hia] at hi
    exact hhigh j (by omega) hj
  have hrun := run_waitingAfter hr (hvsto.imp_right Nat.le_of_succ_le) hno
  have hphase : phaseAfter s b = .deassertion := phaseAfter_eq_deassertion_iff.2 ⟨a, hab, ha⟩
  have hstep := step_waitingAfter_of_sample hr (hvsto.imp_right Nat.lt_of_succ_le)
  rw [if_pos ⟨hphase, hb⟩, afterSamples_wait_none hw] at hstep
  exact ⟨_, exec_waitvsync s, (run_succ_of_run hrun).trans hstep⟩

/-- Settles O45: the wait goes on for VSTO samples, and the next turn finds the count at VSTO. -/
theorem waitvsyncTimesOut : Obligations.WaitvsyncTimesOut := by
  intro s hr hw hvsto hno
  have hrun := run_waitingAfter hr (.inr le_rfl) hno
  have hstep := step_waitingAfter_of_timeout hr hvsto
  rw [afterSamples_wait_none hw] at hstep
  exact ⟨_, exec_waitvsync s, (run_succ_of_run hrun).trans hstep⟩

/-- Settles O46: without a bound the wait goes on for every number of samples, as `run_waitingAfter` says. -/
theorem unboundedWaitvsyncMayHang : Obligations.UnboundedWaitvsyncMayHang := by
  intro s k hr _ hvsto hno
  exact ⟨_, _, exec_waitvsync s, run_waitingAfter hr (.inl hvsto) hno⟩

/-- Settles O39: INIT draws a new unspecified Surface, whose bytes are free values. -/
theorem initMakesTheSurfaceUnspecified : Obligations.InitMakesTheSurfaceUnspecified := fun s =>
  ⟨_, rfl, Mem.read_unspecified .surf s.fresh⟩

/-- Settles O40: a cleared Surface lists every byte as 0x00, whose lanes are all 0. -/
theorem rstsurfClearsEveryByte : Obligations.RstsurfClearsEveryByte := by
  intro s
  have hread : ∀ a, a < 16000 → s.surf.cleared.read .surf a = 0x00#8 := fun a ha => by
    simp only [Mem.read, lookup_cleared, if_pos ha]
  refine ⟨execRstsurf_of_not_inited, fun hi => ⟨_, execRstsurf_of_inited hi, hread, fun row px hr hpx => ?_⟩⟩
  have haddr := surfAddr_of_inRange (row := row) (bcol := px / 4) hr (by omega)
  rw [pixel_of_surfAddr haddr, hread _ (surfAddr_lt haddr)]
  exact congrArg some (lane_rep 0 (Nat.mod_lt px (by decide)))

end Sys2Proof.Machine

/-! How a command ends: NOT_READY, OUT_OF_BOUNDS or OK by the causes of the tables (60_exceptions.md R201, R203). -/

namespace Sys2Proof.Machine

open Sys2Proof

/-! ### Readiness by need (R203) -/

section Ready

variable {i : Instr} {s : State}

theorem inited_of_ready (h : ¬ NotReadyCause i s) (hneeds : needsInit i = true) : s.status.inited = true := by
  rw [← Bool.not_eq_false]
  exact fun hi => h (.inl ⟨hneeds, hi⟩)

theorem ctxValid_of_ready (h : ¬ NotReadyCause i s) (hneeds : needsContext i = true) : s.status.ctxValid = true := by
  rw [← Bool.not_eq_false]
  exact fun hc => h (.inr ⟨hneeds, hc⟩)

theorem registers_of_notReadyCause (h : NotReadyCause i s) : s.status.inited = false ∨ s.status.ctxValid = false :=
  h.imp And.right And.right

/-- A command that does not read CTX is not ready only before INIT. -/
theorem not_inited_of_notReadyCause (h : NotReadyCause i s) (hctx : needsContext i = false) :
    s.status.inited = false := by
  obtain ⟨-, hi⟩ | ⟨hneeds, -⟩ := h
  · exact hi
  · simp [hctx] at hneeds

end Ready

/-- A command that is not ready ends with NOT_READY, whatever its operands (R203). -/
theorem exec_of_notReadyCause {i : Instr} {s : State} (h : NotReadyCause i s) :
    exec i s = .next (raise .notReady (encode i) s) := by
  cases i with
  | init => simp [NotReadyCause, needsInit, needsContext] at h
  | rstsurf => exact execRstsurf_of_not_inited (not_inited_of_notReadyCause h rfl)
  | blit tile x y color mode =>
    exact congrArg (runPlan _ · s)
      (blitPlan_of_not_inited tile x y color mode false (not_inited_of_notReadyCause h rfl))
  | blitc tile x y color mode inverse =>
    exact congrArg (runPlan _ · s)
      (blitPlan_of_not_inited tile x y color mode inverse (not_inited_of_notReadyCause h rfl))
  | fill x y w ht color =>
    exact congrArg (runPlan _ · s) (fillPlan_of_not_inited x y w ht color (not_inited_of_notReadyCause h rfl))
  | drawboard n => exact execDrawboard_of_error (boardPlan_of_not_inited n (not_inited_of_notReadyCause h rfl))
  | drawname q len active =>
    exact congrArg (runPlan _ · s) (namePlan_of_notReady q len active (registers_of_notReadyCause h))
  | renderfield q => exact congrArg (runPlan _ · s) (fieldPlan_of_notReady q (registers_of_notReadyCause h))
  | updatecell q pos blink =>
    exact congrArg (runPlan _ · s) (cellPlan_of_notReady q pos blink (registers_of_notReadyCause h))
  | waitvsync => simp [NotReadyCause, needsInit, needsContext] at h

/-! ### OUT_OF_BOUNDS by the causes of the table (R201) -/

/-- A ready command with a cause of the table ends with OUT_OF_BOUNDS. -/
theorem exec_of_outOfBoundsCause {i : Instr} {s : State} (hready : ¬ NotReadyCause i s) (h : OutOfBoundsCause i s) :
    exec i s = .next (raise .outOfBounds (encode i) s) := by
  cases i with
  | init => exact h.elim
  | rstsurf => exact h.elim
  | blit tile x y color mode =>
    exact congrArg (runPlan _ · s) (blitPlan_of_outOfBounds color mode false (inited_of_ready hready rfl) h)
  | blitc tile x y color mode inverse =>
    exact congrArg (runPlan _ · s) (blitPlan_of_outOfBounds color mode inverse (inited_of_ready hready rfl) h)
  | fill x y w ht color =>
    exact congrArg (runPlan _ · s) (fillPlan_of_outOfBounds color (inited_of_ready hready rfl) h)
  | drawboard n => exact execDrawboard_of_error (boardPlan_of_outOfBounds (inited_of_ready hready rfl) h)
  | drawname q len active =>
    exact congrArg (runPlan _ · s)
      (namePlan_of_outOfBounds (inited_of_ready hready rfl) (ctxValid_of_ready hready rfl) h)
  | renderfield q =>
    exact congrArg (runPlan _ · s)
      (fieldPlan_of_outOfBounds (inited_of_ready hready rfl) (ctxValid_of_ready hready rfl) h)
  | updatecell q pos blink =>
    exact congrArg (runPlan _ · s)
      (cellPlan_of_outOfBounds (inited_of_ready hready rfl) (ctxValid_of_ready hready rfl) h)
  | waitvsync => exact h.elim

/-- The command names more characters than NAMEBUF holds. The model checks this beside NAME_MAX (R157, log entry 15);
the table has no such cause, because NAME_MAX is at most 16. -/
def NameOverrunsBuffer : Instr → Prop
  | .drawname _ len _ => 16 < len
  | _ => False

theorem outOfBoundsCause_of_nameOverrunsBuffer {i : Instr} {s : State} (hmax : s.lrom.nameMax ≤ 16)
    (h : NameOverrunsBuffer i) : OutOfBoundsCause i s := by
  cases i with
  | drawname q len active => exact .inr (.inl (Nat.lt_of_le_of_lt hmax h))
  | _ => exact h.elim

theorem exec_of_nameOverrunsBuffer {i : Instr} {s : State} (hready : ¬ NotReadyCause i s) (h : NameOverrunsBuffer i) :
    exec i s = .next (raise .outOfBounds (encode i) s) := by
  cases i with
  | drawname q len active =>
    have hcontext : contextReady s = true :=
      Bool.and_eq_true_iff.2 ⟨inited_of_ready hready rfl, ctxValid_of_ready hready rfl⟩
    have hlen : lengthInRange len s = false :=
      Bool.and_eq_false_iff.2 (.inr (decide_eq_false (Nat.not_le.2 h)))
    have hplan : namePlan q len active s = .error .outOfBounds := by simp [namePlan, hcontext, hlen]
    exact congrArg (runPlan _ · s) hplan
  | _ => exact h.elim

/-! ### OK without a cause (R205) -/

theorem result_of_runPlan_ok {w : CmdWord} {plan : Except ResultCode (List Access)} {accs : List Access} {s t : State}
    (hplan : plan = .ok accs) (h : runPlan w plan s = .next t) : t.result = .ok := by
  subst hplan
  obtain ⟨m, -, rfl⟩ := performAndFinish_next h
  rfl

theorem result_of_runPlan_composePlan {w : CmdWord} {plan : Except ResultCode (List Access)} {s t : State}
    {prims : List (Option Prim)} (hplan : plan = composePlan s.atlas prims) (hvalid : none ∉ prims)
    (h : runPlan w plan s = .next t) : t.result = .ok := by
  obtain ⟨accs, haccs⟩ := exists_composePlan_ok s.atlas hvalid
  exact result_of_runPlan_ok (hplan.trans haccs) h

/-- A ready command other than WAITVSYNC, for which no check fails, ends OK. -/
theorem result_of_noCause {i : Instr} {s t : State} (hwait : i ≠ .waitvsync) (hready : ¬ NotReadyCause i s)
    (hcause : ¬ OutOfBoundsCause i s) (hname : ¬ NameOverrunsBuffer i) (h : exec i s = .next t) : t.result = .ok := by
  cases i with
  | init => cases h; rfl
  | rstsurf =>
    obtain rfl := Host.Outcome.next.inj ((execRstsurf_of_inited (inited_of_ready hready rfl)).symm.trans h)
    rfl
  | blit tile x y color mode =>
    simp only [OutOfBoundsCause, not_or, Nat.not_lt] at hcause
    obtain ⟨ht, hx, hy⟩ := hcause
    exact result_of_runPlan_ok (blitPlan_of_inRange color mode false (inited_of_ready hready rfl) ht hx hy) h
  | blitc tile x y color mode inverse =>
    simp only [OutOfBoundsCause, not_or, Nat.not_lt] at hcause
    obtain ⟨ht, hx, hy⟩ := hcause
    exact result_of_runPlan_ok (blitPlan_of_inRange color mode inverse (inited_of_ready hready rfl) ht hx hy) h
  | fill x y w ht color =>
    simp only [OutOfBoundsCause, not_or, Nat.not_lt] at hcause
    obtain ⟨hx, hy, hw, hh⟩ := hcause
    exact result_of_runPlan_ok (fillPlan_of_inRange color (inited_of_ready hready rfl) hx hy hw hh) h
  | drawboard n =>
    simp only [OutOfBoundsCause, not_or, Nat.not_lt] at hcause
    obtain ⟨h1, h4, hvalid⟩ := hcause
    obtain ⟨accs, haccs⟩ := exists_composePlan_ok s.atlas hvalid
    obtain ⟨m, -, hexec⟩ :=
      execDrawboard_of_ok ((boardPlan_of_inRange (inited_of_ready hready rfl) h1 h4).trans haccs)
    obtain rfl := Host.Outcome.next.inj (hexec.symm.trans h)
    rfl
  | drawname q len active =>
    simp only [OutOfBoundsCause, not_or, not_exists, not_and, Nat.not_le, Nat.not_lt] at hcause
    obtain ⟨hq, hlen, hascii, hvalid⟩ := hcause
    exact result_of_runPlan_composePlan (namePlan_of_inRange active (inited_of_ready hready rfl)
      (ctxValid_of_ready hready rfl) hq hlen (Nat.not_lt.1 hname) hascii) hvalid h
  | renderfield q =>
    simp only [OutOfBoundsCause, not_or, not_exists, not_and, Nat.not_le, Nat.not_lt] at hcause
    obtain ⟨hq, hcells, hvalid⟩ := hcause
    exact result_of_runPlan_composePlan (fieldPlan_of_inRange (inited_of_ready hready rfl)
      (ctxValid_of_ready hready rfl) hq hcells) hvalid h
  | updatecell q pos blink =>
    simp only [OutOfBoundsCause, not_or, Nat.not_le, Nat.not_lt] at hcause
    obtain ⟨hq, hpos, hcell, hvalid⟩ := hcause
    exact result_of_runPlan_composePlan (cellPlan_of_inRange blink (inited_of_ready hready rfl)
      (ctxValid_of_ready hready rfl) hq hpos hcell) hvalid h
  | waitvsync => exact absurd rfl hwait

/-- No turn of a wait makes RESULT OUT_OF_BOUNDS: it sets SYNC_TIMEOUT, OK, or nothing. -/
theorem result_of_waitStep_outOfBounds {wt : Wait} {s : State} (h : (waitStep wt s).result = .outOfBounds) :
    s.result = .outOfBounds := by
  obtain ⟨-, -, heq⟩ | ⟨-, vs, k, -, heq | ⟨ph, heq⟩⟩ := waitStep_cases wt s
  · simp [heq] at h
  · simp [heq] at h
  · simpa [heq] using h

/-! ### The statements about faults -/

/-- Settles O9, by the ways a command can end. -/
theorem faultingCommandChangesOnlyTheFaultRegisters : Obligations.FaultingCommandChangesOnlyTheFaultRegisters := by
  intro i s t hwait h
  cases exec_next h with
  | fault c hc => exact .inr ⟨c, hc, rfl⟩
  | init => exact .inl rfl
  | waits hi => exact absurd hi hwait
  | board => exact .inl rfl
  | drew => exact .inl rfl

/-- Settles O10: a ready command ends with OUT_OF_BOUNDS or OK. -/
theorem notReadyExactlyBeforeInitOrDrawboard : Obligations.NotReadyExactlyBeforeInitOrDrawboard := by
  refine ⟨fun i s => exec_of_notReadyCause, fun i s t hwait h hresult => ?_⟩
  by_contra hready
  by_cases hfails : OutOfBoundsCause i s ∨ NameOverrunsBuffer i
  · have hexec := hfails.elim (exec_of_outOfBoundsCause hready) (exec_of_nameOverrunsBuffer hready)
    obtain rfl := Host.Outcome.next.inj (hexec.symm.trans h)
    simp at hresult
  · obtain ⟨hcause, hname⟩ := not_or.1 hfails
    simp [result_of_noCause hwait hready hcause hname h] at hresult

/-- Settles O11: without a cause a ready command ends OK, as a name that overruns NAMEBUF is a cause. -/
theorem outOfBoundsCausesAreTheTable : Obligations.OutOfBoundsCausesAreTheTable := by
  refine ⟨fun i s hwait hmax hready => ⟨exec_of_outOfBoundsCause hready, fun h => ?_⟩, fun s t h => ?_,
    fun wt s => result_of_waitStep_outOfBounds⟩
  · by_contra hcause
    have hname : ¬ NameOverrunsBuffer i := fun hn => hcause (outOfBoundsCause_of_nameOverrunsBuffer hmax hn)
    simpa using result_of_noCause hwait hready hcause hname h
  · cases h
    rfl

/-- Settles O8, by whether a fault is already recorded. -/
theorem raiseIsTheFaultSequence : Obligations.RaiseIsTheFaultSequence := fun _ _ _ _ =>
  ⟨fun hfirst => if_neg (by simp [hfirst]), fun hlater => if_pos hlater⟩

end Sys2Proof.Machine

/-! What only RESET clears: the flags of STATUS and the record of the first fault (70_reset_and_hazards.md R230). -/

namespace Sys2Proof.Machine

open Sys2Proof

/-- From `s` to `t` no flag of STATUS was cleared, and FCODE and FCMD stand if they held a fault. -/
def FlagsKept (s t : State) : Prop :=
  (s.status.inited = true → t.status.inited = true) ∧
  (s.status.ctxValid = true → t.status.ctxValid = true) ∧
  (s.status.fault = true → t.status.fault = true ∧ t.fcode = s.fcode ∧ t.fcmd = s.fcmd)

theorem FlagsKept.of_eq {s t : State} (hstatus : t.status = s.status) (hcode : t.fcode = s.fcode)
    (hcmd : t.fcmd = s.fcmd) : FlagsKept s t := by
  simp [FlagsKept, hstatus, hcode, hcmd]

/-- The fault sequence sets FAULT, and records the first fault only (60_exceptions.md R206). -/
theorem FlagsKept.of_raise (c : ResultCode) (w : CmdWord) (s : State) : FlagsKept s (raise c w s) := by
  refine ⟨by simp, by simp, fun hfault => ?_⟩
  simp [hfault]

/-- A command clears no flag: INIT sets INITED, a DRAWBOARD sets CTXVALID, the fault sequence sets FAULT. -/
theorem CommandEnd.keeps_flags {i : Instr} {s t : State} (h : CommandEnd i s t) : FlagsKept s t := by
  cases h with
  | fault c => exact .of_raise c _ s
  | init => exact ⟨fun _ => rfl, id, fun hfault => ⟨hfault, rfl, rfl⟩⟩
  | waits => exact .of_eq rfl rfl rfl
  | board => exact ⟨id, fun _ => rfl, fun hfault => ⟨hfault, rfl, rfl⟩⟩
  | drew => exact .of_eq rfl rfl rfl

theorem runWord_keeps_flags {w : CmdWord} {s t : State} (h : runWord w s = .next t) : FlagsKept s t := by
  obtain ⟨i, -, hend⟩ | rfl := runWord_next h
  · exact hend.keeps_flags
  · exact .of_raise _ w s

/-- A host access clears no flag: STATUS, FCODE and FCMD are read-only to the host (10_state.md R28). -/
theorem hostAccess_keeps_flags {act : HostAction} {s t : State} (h : hostAccess act s = .next t) :
    FlagsKept s t := by
  obtain ⟨w, -, hrun⟩ | ⟨sp, a, v, -, rfl⟩ | ⟨v, -, rfl⟩ | ⟨d, k, -, rfl⟩ := hostAccess_next h
  · exact runWord_keeps_flags hrun
  · exact .of_eq (setMem_status ..) (setMem_fcode ..) (setMem_fcmd ..)
  · exact .of_eq rfl rfl rfl
  · exact .of_eq rfl rfl rfl

/-- A turn of a wait clears no flag: it ends in the fault sequence, or touches none of these registers. -/
theorem waitStep_keeps_flags (wt : Wait) (s : State) : FlagsKept s (waitStep wt s) := by
  obtain ⟨-, -, h⟩ | ⟨-, vs, k, -, h | ⟨ph, h⟩⟩ := waitStep_cases wt s
  · rw [h]
    exact FlagsKept.of_raise .syncTimeout (encode .waitvsync) { s with wait := none }
  · exact h ▸ .of_eq rfl rfl rfl
  · exact h ▸ .of_eq rfl rfl rfl

/-- A step without reset clears no flag, whatever the engine does in it. -/
theorem step_keeps_flags {s t : State} (hr : s.resetIn.head? ≠ some true) (h : step s = .next t) :
    FlagsKept s t := by
  obtain ⟨hr', -⟩ | ⟨-, ⟨wt, -, rfl⟩ | ⟨-, -, rfl⟩ | ⟨-, act, rest, -, hact⟩⟩ := step_next h
  · exact absurd hr' hr
  · exact waitStep_keeps_flags wt { s with resetIn := s.resetIn.tail }
  · exact .of_eq rfl rfl rfl
  · have hkept : FlagsKept (afterIssue s rest) t := hostAccess_keeps_flags hact
    exact hkept

/-- After RESET every memory is unspecified by one new draw (10_state.md R42). -/
theorem memOf_applyReset (sp : Space) (s : State) : memOf sp (applyReset s) = Mem.unspecified s.fresh := by
  cases sp <;> rfl

/-- Settles O7: RESET is looked at before anything else, and no other kind of step clears a flag. -/
theorem onlyResetClearsTheFlags : Obligations.OnlyResetClearsTheFlags := by
  refine ⟨fun s hr => ⟨_, step_reset hr, rfl, rfl, rfl, rfl, rfl, rfl, fun space a => ?_⟩,
    fun s t => step_keeps_flags⟩
  rw [memOf_applyReset, Mem.read_unspecified]

end Sys2Proof.Machine
